-- ==== Sys2Proof/Word.lean ====
section
/-! DEFINITION. The byte, and the sequences of bytes every space and payload is made of (20_memory R50: the unit of every
space is the 8-bit byte; R12: a byte sequence is in wire order, its first byte first). -/

namespace Sys2Proof

/-- The unit of every byte space (R50). -/
abbrev Byte := BitVec 8

/-- A byte sequence in wire order (R12). -/
abbrev Bytes := List Byte

end Sys2Proof
end

