-- ==== Sys2Proof/Config.lean ====
section
/-! DEFINITION. The constants the source fixes (00_scope R6) and the parameters the spec leaves open, at the value the spec
gives each (R7; 92_eei_decisions, "Open parameters, in one place"; assumption 6); and one point on which the spec's own rules disagree,
left free (assumption 18). -/

namespace Sys2Proof.Config

/-- `DU_MAX` (R6): the largest serialized LLDPDU, in bytes. -/
abbrev duMax : Nat := 1500

/-- `TEXT_MAX` (R6): the longest PortDescription, SystemName or SystemDescription. -/
abbrev textMax : Nat := 255

/-- `OID_MAX` (R6): the longest ManagementAddress OID. -/
abbrev oidMax : Nat := 128

/-- `ORG_VALUE_MAX` (R6): the longest OrganizationallySpecific value. -/
abbrev orgValueMax : Nat := 507

/-- `MAC_BYTES` (R6). -/
abbrev macBytes : Nat := 6

/-- `MIN_TRIPLE` (R6): TLVs that precede any optional TLV or EndOfLLDPDU. -/
abbrev minTriple : Nat := 3

/-- `ENV_HDR_BYTES` (R6): the envelope in front of the LLDPDU. -/
abbrev envHdrBytes : Nat := 14

/-- `ETHERTYPE_LLDP` (R6) as frame bytes 12 and 13 (R51). -/
def etherType : Bytes := [0x88, 0xCC]

/-- `LLDP_MCAST[0]` (R6). -/
def mcast0 : Bytes := [0x01, 0x80, 0xC2, 0x00, 0x00, 0x00]

/-- `LLDP_MCAST[1]` (R6). -/
def mcast1 : Bytes := [0x01, 0x80, 0xC2, 0x00, 0x00, 0x03]

/-- `LLDP_MCAST[2]` (R6). -/
def mcast2 : Bytes := [0x01, 0x80, 0xC2, 0x00, 0x00, 0x0E]

/-- `ID_TEXT_MAX` (R7, D11): the longest ChassisId or PortId text. -/
abbrev idTextMax : Nat := 510

/-- `CH_SUB_MAC` (R7, D7). -/
abbrev chSubMac : Byte := 4

/-- `CH_SUB_NET` (R7, D7). -/
abbrev chSubNet : Byte := 5

/-- `PT_SUB_MAC` (R7, D7). -/
abbrev ptSubMac : Byte := 3

/-- `PT_SUB_NET` (R7, D7). -/
abbrev ptSubNet : Byte := 4

/-- `RX_CAP` (R7, D3): capacity of `RXBUF`, OPEN in the spec (any value of at least 14), here its default. DESIGN CHOICE,
unsafe: assumption 6. -/
abbrev rxCap : Nat := 1514

/-- `TX_CAP` (R7): capacity of `TXBUF`, `14 + DU_MAX`. -/
abbrev txCap : Nat := 1514

/-- `TLV_CAP` (R7): capacity of `TLVBUF`, `2 + 511`. -/
abbrev tlvCap : Nat := 513

/-- `DEFAULT_DST_SEL` (R7, D19): `DST_SEL` after reset. -/
def defaultDstSel : BitVec 2 := 2

/-- Bytes of `REC.addr` (R22). -/
abbrev addrBytes : Nat := 16

/-- Bytes of `REC.oui` (R22). -/
abbrev ouiBytes : Nat := 3

/-- Bytes of `REC.val` (R22). -/
abbrev valBytes : Nat := 511

/-- Whether a fault inside RX.FRAME's parse puts `PAY_BASE` and `PAY_LEN` back to what they held when it started (R245), or leaves the
descriptor RX.FRAME has written (R292, R230, D27). The spec says both, and 90_conflicts does not choose: a free value of the
implementation, of which nothing can be proved. DESIGN CHOICE, safe: assumption 18. -/
opaque rxFaultRestoresPay : Bool

end Sys2Proof.Config
end

