-- ==== Sys2Proof/Syntax.lean ====
section
/-! DEFINITION. The instructions: one constructor per row of the opcode table. A TLV of the received stream is an instruction
(00_scope R10) whose operand bytes are its payload, so a defined type carries its payload and its length is derived (R21, R70);
an undefined type carries the low bits of its type code inside its block and its length, which is not examined (R84); an
operation (R90) has no operand of its own, it reads the registers of R91. -/

namespace Sys2Proof

/-- The ten TLV variants (00_scope R3). -/
inductive Variant
  | endOfLldpdu | chassisId | portId | ttl | portDescription | systemName | systemDescription
  | systemCapabilities | managementAddress | organizationallySpecific
  deriving DecidableEq, Repr

inductive Instr
  -- the ten defined TLV types (R74), each with its payload
  | endOfLldpdu (p : Bytes)
  | chassisId (p : Bytes)
  | portId (p : Bytes)
  | ttl (p : Bytes)
  | portDescription (p : Bytes)
  | systemName (p : Bytes)
  | systemDescription (p : Bytes)
  | systemCapabilities (p : Bytes)
  | managementAddress (p : Bytes)
  | organizationallySpecific (p : Bytes)
  -- the undefined types 9 to 126 (R84), in the table's eleven aligned blocks
  | unknown9 (len : BitVec 9)
  | unknown10To11 (x : BitVec 1) (len : BitVec 9)
  | unknown12To15 (x : BitVec 2) (len : BitVec 9)
  | unknown16To31 (x : BitVec 4) (len : BitVec 9)
  | unknown32To63 (x : BitVec 5) (len : BitVec 9)
  | unknown64To95 (x : BitVec 5) (len : BitVec 9)
  | unknown96To111 (x : BitVec 4) (len : BitVec 9)
  | unknown112To119 (x : BitVec 3) (len : BitVec 9)
  | unknown120To123 (x : BitVec 2) (len : BitVec 9)
  | unknown124To125 (x : BitVec 1) (len : BitVec 9)
  | unknown126 (len : BitVec 9)
  -- the operations (R90) and the reserved operation codes (R92)
  | hdrEnc
  | hdrDec
  | tlvEnc
  | tlvDec
  | duNew
  | duAppend
  | duSer
  | duParse
  | duComplete
  | duGet
  | envClassify
  | envBuild
  | rxFrame
  | reservedOp13
  | reservedOp14
  | reservedOp15
  deriving DecidableEq, Repr

/-- What the block is given to decode: bytes of the TLV stream (R70), or the operation port's 4-bit code (R90). -/
inductive Code
  | stream (b : Bytes)
  | port (op : BitVec 4)
  deriving DecidableEq, Repr

/-- Why bytes are no instruction: fewer bytes than a header, or than the header's length declares (R56, R200). -/
inductive Reject
  /-- Fewer than 2 bytes are there (`E_TRUNC_HDR`). -/
  | truncHeader
  /-- The header of type code `t` declares more payload bytes than are there (`E_TRUNC_PAYLOAD`). -/
  | truncPayload (t : Nat)
  deriving DecidableEq, Repr

/-- The TLV instruction of a variant with payload `p`. -/
def Variant.instr : Variant → Bytes → Instr
  | .endOfLldpdu, p => .endOfLldpdu p
  | .chassisId, p => .chassisId p
  | .portId, p => .portId p
  | .ttl, p => .ttl p
  | .portDescription, p => .portDescription p
  | .systemName, p => .systemName p
  | .systemDescription, p => .systemDescription p
  | .systemCapabilities, p => .systemCapabilities p
  | .managementAddress, p => .managementAddress p
  | .organizationallySpecific, p => .organizationallySpecific p

end Sys2Proof
end

