-- ==== Sys2Proof/WellFormed.lean ====
section
/-! DEFINITION. Which instructions have an encoding: a TLV's length field is 9 bits (30_encoding R70), so its payload has at most
511 bytes. Every other operand is as wide as its field. -/

namespace Sys2Proof

/-- The payload bytes of a TLV of a defined type; none for the others. -/
def Instr.payload : Instr → Bytes
  | .endOfLldpdu p | .chassisId p | .portId p | .ttl p | .portDescription p | .systemName p | .systemDescription p
  | .systemCapabilities p | .managementAddress p | .organizationallySpecific p => p
  | _ => []

/-- The instruction can be encoded: its payload fits the 9-bit length (R70). -/
def Instr.wf (i : Instr) : Bool := decide (i.payload.length ≤ 511)

end Sys2Proof
end

