-- ==== Sys2Proof/Decode.lean ====
section
/-! DEFINITION. The header functions (40_header_codec R100, R101), the type-code map (30_encoding R74, R84), the operation-code map
(R90, R92), the decoder of both formats and its encoder. -/

namespace Sys2Proof

/-- `hdr_dec(b0, b1)` (R72, R100): the type code and the length of a header; total. -/
def hdrDec (b0 b1 : Byte) : Nat × Nat :=
  (b0.toNat >>> 1, ((b0.toNat &&& 1) <<< 8) ||| b1.toNat)

/-- The header bytes of type code `t` and length `l` (R72), for `t ≤ 127` and `l ≤ 511`. -/
def hdrJoin (t l : Nat) : Byte × Byte :=
  (BitVec.ofNat 8 ((t <<< 1) ||| (l >>> 8)), BitVec.ofNat 8 (l &&& 0xFF))

/-- `hdr_enc(t, l)` (R101): none where the rule raises `E_HDR_RANGE`, never a truncation. -/
def hdrEnc (t l : Nat) : Option (Byte × Byte) :=
  if l > 511 then none else if t > 127 then none else some (hdrJoin t l)

/-- The type code of a variant (R3, R74). -/
def Variant.code : Variant → Nat
  | .endOfLldpdu => 0
  | .chassisId => 1
  | .portId => 2
  | .ttl => 3
  | .portDescription => 4
  | .systemName => 5
  | .systemDescription => 6
  | .systemCapabilities => 7
  | .managementAddress => 8
  | .organizationallySpecific => 127

/-- The variant of a type code; none for an undefined one (R74, R84). -/
def Variant.ofCode : Nat → Option Variant
  | 0 => some .endOfLldpdu
  | 1 => some .chassisId
  | 2 => some .portId
  | 3 => some .ttl
  | 4 => some .portDescription
  | 5 => some .systemName
  | 6 => some .systemDescription
  | 7 => some .systemCapabilities
  | 8 => some .managementAddress
  | 127 => some .organizationallySpecific
  | _ => none

/-- The instruction of an undefined type code (R84): the block of the opcode table `t` lies in, and its place there. -/
def unknownOf (t l : Nat) : Instr :=
  let len := BitVec.ofNat 9 l
  if t < 10 then .unknown9 len
  else if t < 12 then .unknown10To11 (BitVec.ofNat 1 (t - 10)) len
  else if t < 16 then .unknown12To15 (BitVec.ofNat 2 (t - 12)) len
  else if t < 32 then .unknown16To31 (BitVec.ofNat 4 (t - 16)) len
  else if t < 64 then .unknown32To63 (BitVec.ofNat 5 (t - 32)) len
  else if t < 96 then .unknown64To95 (BitVec.ofNat 5 (t - 64)) len
  else if t < 112 then .unknown96To111 (BitVec.ofNat 4 (t - 96)) len
  else if t < 120 then .unknown112To119 (BitVec.ofNat 3 (t - 112)) len
  else if t < 124 then .unknown120To123 (BitVec.ofNat 2 (t - 120)) len
  else if t < 126 then .unknown124To125 (BitVec.ofNat 1 (t - 124)) len
  else .unknown126 len

/-- The TLV at the front of the bytes, and the bytes after it (R71, R200): an undefined type is told from its header alone,
before the payload is looked for (R84). -/
def decodeTlv : Bytes → Except Reject (Instr × Bytes)
  | b0 :: b1 :: rest =>
    let t := (hdrDec b0 b1).1
    let l := (hdrDec b0 b1).2
    match Variant.ofCode t with
    | some k => if rest.length < l then .error (.truncPayload t) else .ok (k.instr (rest.take l), rest.drop l)
    | none => .ok (unknownOf t l, rest)
  | _ => .error .truncHeader

/-- The operation of a code of the port (R90, R92). -/
def decodeOp (op : BitVec 4) : Instr :=
  match op.toNat with
  | 0 => .hdrEnc
  | 1 => .hdrDec
  | 2 => .tlvEnc
  | 3 => .tlvDec
  | 4 => .duNew
  | 5 => .duAppend
  | 6 => .duSer
  | 7 => .duParse
  | 8 => .duComplete
  | 9 => .duGet
  | 10 => .envClassify
  | 11 => .envBuild
  | 12 => .rxFrame
  | 13 => .reservedOp13
  | 14 => .reservedOp14
  | _ => .reservedOp15

/-- The instruction at the front of a code, and the stream's bytes after it. -/
def decode : Code → Except Reject (Instr × Bytes)
  | .stream b => decodeTlv b
  | .port op => .ok (decodeOp op, [])

/-- The bytes of a TLV: header, then payload (R70). -/
def tlvBytes (t : Nat) (p : Bytes) : Bytes :=
  let h := hdrJoin t p.length
  h.1 :: h.2 :: p

/-- A header with no payload after it: all there is of an undefined TLV (R84). -/
def headerCode (t : Nat) (len : BitVec 9) : Code :=
  let h := hdrJoin t len.toNat
  .stream [h.1, h.2]

/-- The encoding of an instruction (R70, R74, R84, R90, R92). -/
def encode : Instr → Code
  | .endOfLldpdu p => .stream (tlvBytes 0 p)
  | .chassisId p => .stream (tlvBytes 1 p)
  | .portId p => .stream (tlvBytes 2 p)
  | .ttl p => .stream (tlvBytes 3 p)
  | .portDescription p => .stream (tlvBytes 4 p)
  | .systemName p => .stream (tlvBytes 5 p)
  | .systemDescription p => .stream (tlvBytes 6 p)
  | .systemCapabilities p => .stream (tlvBytes 7 p)
  | .managementAddress p => .stream (tlvBytes 8 p)
  | .organizationallySpecific p => .stream (tlvBytes 127 p)
  | .unknown9 len => headerCode 9 len
  | .unknown10To11 x len => headerCode (10 + x.toNat) len
  | .unknown12To15 x len => headerCode (12 + x.toNat) len
  | .unknown16To31 x len => headerCode (16 + x.toNat) len
  | .unknown32To63 x len => headerCode (32 + x.toNat) len
  | .unknown64To95 x len => headerCode (64 + x.toNat) len
  | .unknown96To111 x len => headerCode (96 + x.toNat) len
  | .unknown112To119 x len => headerCode (112 + x.toNat) len
  | .unknown120To123 x len => headerCode (120 + x.toNat) len
  | .unknown124To125 x len => headerCode (124 + x.toNat) len
  | .unknown126 len => headerCode 126 len
  | .hdrEnc => .port 0
  | .hdrDec => .port 1
  | .tlvEnc => .port 2
  | .tlvDec => .port 3
  | .duNew => .port 4
  | .duAppend => .port 5
  | .duSer => .port 6
  | .duParse => .port 7
  | .duComplete => .port 8
  | .duGet => .port 9
  | .envClassify => .port 10
  | .envBuild => .port 11
  | .rxFrame => .port 12
  | .reservedOp13 => .port 13
  | .reservedOp14 => .port 14
  | .reservedOp15 => .port 15

/-- The bytes of a table word: the 16-bit header word `H` is stored big-endian, `H[15:8]` first (R51, R70), and every bit above
it, the whole payload, is 0. -/
def tableBytes (w : Nat) : Bytes :=
  BitVec.ofNat 8 (w / 256) :: BitVec.ofNat 8 w :: List.replicate 511 0

/-- The code a table word of `nbits` bits stands for: a row of one byte is the 4-bit `OP` (R90), a row of two a TLV header. -/
def tableCode (nbits w : Nat) : Code :=
  if nbits ≤ 8 then .port (BitVec.ofNat 4 w) else .stream (tableBytes w)

/-- The instruction this decoder reads from a table word. -/
def decodeTableWord (nbits w : Nat) : Option Instr :=
  match decode (tableCode nbits w) with
  | .ok (i, _) => some i
  | .error _ => none

end Sys2Proof
end

