-- ==== Sys2Proof/Machine/State.lean ====
section
/-! DEFINITION. The state of the block (10_state R20 to R37), as plain data, and its value after reset. -/

namespace Sys2Proof.Machine

/-- Bytes by address, in one canonical form (`Memory.wf`): addresses strictly rising, and no entry equal to `blankByte`, which is
what an unlisted address reads as. It holds the three byte spaces (R33) and the byte arrays of `REC` and `LOCAL_MAC` (R22, R31). -/
abbrev Memory := List Host.Cell

/-- What an address nothing has written reads as. The spec gives such bytes any value (93 U4). DESIGN CHOICE, unsafe: assumption 5. -/
def blankByte : Byte := 0

/-- The three byte spaces (R33). -/
inductive Space
  | rxbuf | txbuf | tlvbuf
  deriving DecidableEq, Repr

/-- The id value of a ChassisId or PortId (R21). -/
inductive IdValue
  | mac (bytes : Bytes)
  | net (af : Byte) (addr : Bytes)
  | text (bytes : Bytes)
  deriving DecidableEq, Repr

/-- A TLV value (R21): a tagged union over the ten variants. Its length is derived, never stored. -/
inductive Tlv
  | endOfLldpdu
  | chassisId (sub : Byte) (id : IdValue)
  | portId (sub : Byte) (id : IdValue)
  | ttl (seconds : BitVec 16)
  | portDescription (text : Bytes)
  | systemName (text : Bytes)
  | systemDescription (text : Bytes)
  | systemCapabilities (supported enabled : BitVec 16)
  | managementAddress (af : Byte) (addr : Bytes) (ifsub : Byte) (ifnum : BitVec 32) (oid : Bytes)
  | organizationallySpecific (oui : Bytes) (sub : Byte) (value : Bytes)
  deriving DecidableEq, Repr

/-- The causes of R240. Codes 18 to 31 are never written (93 U10) and have no constructor. -/
inductive Cause
  | ok | truncHdr | truncPayload | trailing | lenRange | subtype | af | utf8 | hdrRange | unknownType | unexpectedType
  | ordPosition | ordTriple | ordEndDup | ordAfterEnd | capSubset | size | illegalOp
  deriving DecidableEq, Repr

/-- The categories of R241. -/
inductive Category
  | none | malformed | unknownType | ordering | semantic | size | unexpectedType | illegalOp
  deriving DecidableEq, Repr

/-- `ST.stop` (R30): why parsing stopped. -/
inductive Stop
  | notParsed | endTlv | exhausted | fault
  deriving DecidableEq, Repr

/-- The STATUS register, field by field (R30). Its 32-bit view is `Status.word`. -/
structure Status where
  ok : Bool
  cause : Cause
  cat : Category
  tv : Bool
  typ : BitVec 7
  off : BitVec 11
  qual : Bool
  complete : Bool
  stop : Stop
  deriving DecidableEq, Repr

/-- The TLV record register bank `REC` (R22). `addr`, `oui` and `val` are byte arrays of 16, 3 and 511 bytes. -/
structure TlvRecord where
  typ : BitVec 7
  len : BitVec 9
  sub : Byte
  af : Byte
  addr : Memory
  ttl : BitVec 16
  capSup : BitVec 16
  capEn : BitVec 16
  ifsub : Byte
  ifnum : BitVec 32
  oui : Memory
  vlen : BitVec 9
  val : Memory
  deriving DecidableEq, Repr

/-- A host write of one field of `REC`, or one byte of an array of it (R20, R22). -/
inductive RecordWrite
  | typ (v : BitVec 7)
  | len (v : BitVec 9)
  | sub (v : Byte)
  | af (v : Byte)
  | addr (i : Fin 16) (v : Byte)
  | ttl (v : BitVec 16)
  | capSup (v : BitVec 16)
  | capEn (v : BitVec 16)
  | ifsub (v : Byte)
  | ifnum (v : BitVec 32)
  | oui (i : Fin 3) (v : Byte)
  | vlen (v : BitVec 9)
  | val (i : Fin 511) (v : Byte)
  deriving DecidableEq, Repr

/-- What the host can do to the block: one write of host-writable state (R20, R31), one start of an operation (R8, R90), or a
reset (R280). It cannot write `ST`, `OFF`, the containers, `TXBUF` or `TXLEN`. -/
inductive HostInput
  | reset
  | start (op : BitVec 4)
  | writeRecord (w : RecordWrite)
  | writeHtype (v : BitVec 8)
  | writeHlen (v : BitVec 16)
  | writeLocalMac (i : Fin 6) (v : Byte)
  | writeDstSel (v : BitVec 2)
  | writeExpect (v : BitVec 7)
  | writeSel (v : BitVec 1)
  | writeIdx (v : BitVec 10)
  | writePayBase (v : BitVec 16)
  | writePayLen (v : BitVec 16)
  | writeRxByte (a : Nat) (v : Byte)
  | writeRxLen (v : BitVec 16)
  | writeTlvByte (a : Nat) (v : Byte)
  | writeTlvLen (v : BitVec 10)
  deriving DecidableEq, Repr

/-- The whole state (R20). `parsing`, `savedPay` and `inputs` are the model's own: the engine is inside the loop of R201, and what
`PAY_BASE` and `PAY_LEN` held when the RX.FRAME that entered it started (assumption 7); what the host does next, oldest first
(assumption 1). -/
structure State where
  tlvRec : TlvRecord
  htype : BitVec 8
  hlen : BitVec 16
  off : BitVec 11
  duRx : List Tlv
  duTx : List Tlv
  st : Status
  localMac : Memory
  dstSel : BitVec 2
  expect : BitVec 7
  sel : BitVec 1
  idx : BitVec 10
  payBase : BitVec 16
  payLen : BitVec 16
  rxbuf : Memory
  rxLen : BitVec 16
  txbuf : Memory
  txLen : BitVec 16
  tlvbuf : Memory
  tlvLen : BitVec 10
  op : Option (BitVec 4)
  parsing : Bool
  savedPay : Option (BitVec 16 × BitVec 16)
  inputs : List HostInput
  deriving DecidableEq, Repr

/-- Why the model stops. None of these is a fault of the block: those are results in `ST` (R240, R245). -/
inductive Fault
  /-- A `MemRead` that is not inside the valid bytes of the space (R13: defined only there). Raised by `memRead`. Safe: each use
  stands behind the bound check that makes it defined, so no state the block reaches raises it. -/
  | readOutside (sp : Space)
  /-- A `MemWrite` past the capacity of the space (R33). Raised by `storeTx` and `storeTlv`. Safe: no state the block reaches raises it. -/
  | writeOutside (sp : Space)
  /-- A host write to an address the space does not have (R33). Raised by `acceptInput`. Safe. -/
  | noSuchAddress (sp : Space)
  deriving DecidableEq, Repr

/-- What the model gives no meaning. -/
inductive Refusal
  /-- An instruction of the opcode table that has no meaning yet. Raised by `exec`, for no instruction now. Safe. -/
  | notModelled (mnemonic : String)
  /-- The host writes a length register above the capacity of its space: the length registers range over `0..capacity`
  (93 U6: refuse). Raised by `acceptInput`. Safe. -/
  | lengthAboveCapacity (sp : Space)
  deriving DecidableEq, Repr

/-- `ST` of an operation that ended without a fault and reports nothing more (R30): also its reset value (R37). -/
def statusOk : Status :=
  { ok := true, cause := .ok, cat := .none, tv := false, typ := 0, off := 0, qual := false, complete := false,
    stop := .notParsed }

/-- `REC` at reset. R37 leaves it unspecified; every field is 0. DESIGN CHOICE, unsafe: assumption 2. -/
def recordReset : TlvRecord :=
  { typ := 0, len := 0, sub := 0, af := 0, addr := [], ttl := 0, capSup := 0, capEn := 0, ifsub := 0, ifnum := 0,
    oui := [], vlen := 0, val := [] }

/-- The state after reset (R37, R280). `REC`, `HTYPE`, `HLEN` (assumption 2) and `LOCAL_MAC` (assumption 3) have no reset value in
the spec and are 0 here. DESIGN CHOICE, unsafe. -/
def State.reset : State :=
  { tlvRec := recordReset, htype := 0, hlen := 0, off := 0, duRx := [], duTx := [], st := statusOk, localMac := [],
    dstSel := Config.defaultDstSel, expect := 0, sel := 0, idx := 0, payBase := 0, payLen := 0, rxbuf := [], rxLen := 0,
    txbuf := [], txLen := 0, tlvbuf := [], tlvLen := 0, op := none, parsing := false, savedPay := none, inputs := [] }

end Sys2Proof.Machine
end

