-- ==== Sys2Proof/Machine/Bytes.lean ====
section
/-! DEFINITION. Big-endian numbers (20_memory R51, 00_scope R13), a byte of a sequence by index (R12), and well-formed UTF-8
(41_tlv_variants R123). -/

namespace Sys2Proof.Machine

/-- `b[i]` (R12); every use stands behind a length check. -/
def byteAt (b : Bytes) (i : Nat) : Byte := b.getD i 0

/-- `b[i..j)` (R12). -/
def slice (b : Bytes) (i j : Nat) : Bytes := (b.drop i).take (j - i)

/-- `be16` of a 2-byte sequence (R13). -/
def be16 (b : Bytes) : BitVec 16 := byteAt b 0 ++ byteAt b 1

/-- `be32` of a 4-byte sequence (R13). -/
def be32 (b : Bytes) : BitVec 32 := byteAt b 0 ++ byteAt b 1 ++ byteAt b 2 ++ byteAt b 3

/-- `to_be16` (R13): most significant byte first. -/
def toBe16 (v : BitVec 16) : Bytes := [v.extractLsb' 8 8, v.extractLsb' 0 8]

/-- `to_be32` (R13): most significant byte first. -/
def toBe32 (v : BitVec 32) : Bytes := [v.extractLsb' 24 8, v.extractLsb' 16 8, v.extractLsb' 8 8, v.extractLsb' 0 8]

/-- `b` lies in `lo..hi`, an entry of the table of R123. -/
def inRange (lo hi b : Byte) : Bool := decide (lo ≤ b) && decide (b ≤ hi)

/-- The entry `80..BF` of the table of R123. -/
def utf8Tail (b : Byte) : Bool := inRange 0x80 0xBF b

/-- First and second byte of a 2-byte row of R123. -/
def utf8Two (a b : Byte) : Bool := inRange 0xC2 0xDF a && utf8Tail b

/-- First and second byte of a 3-byte row of R123. -/
def utf8Three (a b : Byte) : Bool :=
  (inRange 0xE0 0xE0 a && inRange 0xA0 0xBF b) || (inRange 0xE1 0xEC a && utf8Tail b) ||
  (inRange 0xED 0xED a && inRange 0x80 0x9F b) || (inRange 0xEE 0xEF a && utf8Tail b)

/-- First and second byte of a 4-byte row of R123. -/
def utf8Four (a b : Byte) : Bool :=
  (inRange 0xF0 0xF0 a && inRange 0x90 0xBF b) || (inRange 0xF1 0xF3 a && utf8Tail b) ||
  (inRange 0xF4 0xF4 a && inRange 0x80 0x8F b)

/-- `utf8_ok(b)` (R123): a concatenation of rows of the table and nothing else. -/
def utf8Ok : Bytes → Bool
  | [] => true
  | a :: t1 =>
    if inRange 0x00 0x7F a then utf8Ok t1 else
    match t1 with
    | [] => false
    | b :: t2 =>
      if utf8Two a b then utf8Ok t2 else
      match t2 with
      | [] => false
      | c :: t3 =>
        if utf8Three a b && utf8Tail c then utf8Ok t3 else
        match t3 with
        | [] => false
        | d :: t4 => utf8Four a b && utf8Tail c && utf8Tail d && utf8Ok t4

end Sys2Proof.Machine
end

