-- ==== Sys2Proof/Machine/Memory.lean ====
section
/-! DEFINITION. The named operations over bytes held by address: one byte, a run of bytes, and the canonical form. -/

namespace Sys2Proof.Machine

/-- The byte at address `a`. -/
def Memory.read : Memory → Nat → Byte
  | [], _ => blankByte
  | (x, v) :: m, a => if x = a then v else Memory.read m a

/-- Write one byte, keeping the canonical form: writing `blankByte` leaves no entry. -/
def Memory.write : Memory → Nat → Byte → Memory
  | [], a, b => if b = blankByte then [] else [(a, b)]
  | (x, v) :: m, a, b =>
    if a < x then (if b = blankByte then (x, v) :: m else (a, b) :: (x, v) :: m)
    else if a = x then (if b = blankByte then m else (a, b) :: m)
    else (x, v) :: Memory.write m a b

/-- The `n` bytes from address `a` on (R12: `b[a..a+n)`). -/
def Memory.readN (m : Memory) : Nat → Nat → Bytes
  | _, 0 => []
  | a, n + 1 => m.read a :: Memory.readN m (a + 1) n

/-- Write a byte sequence from address `a` on. -/
def Memory.writeN : Memory → Nat → Bytes → Memory
  | m, _, [] => m
  | m, a, b :: bs => Memory.writeN (m.write a b) (a + 1) bs

/-- Every address is at least `lo`, addresses rise strictly, and no entry is blank. -/
def Memory.wfFrom : Nat → Memory → Bool
  | _, [] => true
  | lo, (x, v) :: m => decide (lo ≤ x) && decide (v ≠ blankByte) && Memory.wfFrom (x + 1) m

/-- The canonical form. -/
def Memory.wf (m : Memory) : Bool := Memory.wfFrom 0 m

/-- No entry lies at or beyond `cap`. -/
def Memory.below (cap : Nat) (m : Memory) : Bool := m.all fun c => decide (c.1 < cap)

/-- The capacity of a space (R33). -/
def capacity : Space → Nat
  | .rxbuf => Config.rxCap
  | .txbuf => Config.txCap
  | .tlvbuf => Config.tlvCap

/-- The contents of a space. -/
def spaceOf (sp : Space) (s : State) : Memory :=
  match sp with
  | .rxbuf => s.rxbuf
  | .txbuf => s.txbuf
  | .tlvbuf => s.tlvbuf

/-- How many bytes of a space are valid: its length register (R33). -/
def validLen (sp : Space) (s : State) : Nat :=
  match sp with
  | .rxbuf => s.rxLen.toNat
  | .txbuf => s.txLen.toNat
  | .tlvbuf => s.tlvLen.toNat

/-- `MemRead(S, a, n)` (R13): defined only inside the valid bytes of the space (and of its capacity, R33). -/
def memRead (sp : Space) (a n : Nat) (s : State) : Except Fault Bytes :=
  if a + n ≤ validLen sp s ∧ a + n ≤ capacity sp then .ok ((spaceOf sp s).readN a n) else .error (.readOutside sp)

end Sys2Proof.Machine
end

