-- ==== Sys2Proof/Machine/Operands.lean ====
section
/-! DEFINITION. The operand forms: the ten payload layouts of 41_tlv_variants, decode and encode, well-formedness (R122), the frames
`dec` and `enc` around them (R121, R125), and the TLV value in the record register bank (10_state R22, R23). -/

namespace Sys2Proof.Machine

/-! ### What a TLV value is -/

/-- The variant of a value. -/
def Tlv.variant : Tlv → Variant
  | .endOfLldpdu => .endOfLldpdu
  | .chassisId _ _ => .chassisId
  | .portId _ _ => .portId
  | .ttl _ => .ttl
  | .portDescription _ => .portDescription
  | .systemName _ => .systemName
  | .systemDescription _ => .systemDescription
  | .systemCapabilities _ _ => .systemCapabilities
  | .managementAddress _ _ _ _ _ => .managementAddress
  | .organizationallySpecific _ _ _ => .organizationallySpecific

/-- A type code as the 7-bit field it is (R21). -/
def variantTyp (k : Variant) : BitVec 7 := BitVec.ofNat 7 k.code

/-- The type code of a value (R21). -/
def Tlv.typ (v : Tlv) : BitVec 7 := variantTyp v.variant

/-- `alen(af)` (R122): address bytes of a family; 0 for a byte that is no family. -/
def addrLen (af : Byte) : Nat := if af = 1 then 4 else if af = 2 then 16 else 0

/-- The byte names an address family (R21). -/
def isFamily (af : Byte) : Bool := af == 1 || af == 2

/-- The kinds of id value (R131). -/
inductive IdKind
  | mac | net | text
  deriving DecidableEq, Repr

/-- The kind of a ChassisId's id value (R131). -/
def chassisKind (sub : Byte) : IdKind :=
  if sub = Config.chSubMac then .mac else if sub = Config.chSubNet then .net else .text

/-- The kind of a PortId's id value (R131). -/
def portKind (sub : Byte) : IdKind :=
  if sub = Config.ptSubMac then .mac else if sub = Config.ptSubNet then .net else .text

/-- An id value is of the kind named. -/
def IdValue.hasKind : IdValue → IdKind → Bool
  | .mac _, .mac => true
  | .net _ _, .net => true
  | .text _, .text => true
  | _, _ => false

/-! ### Payload decoders -/

/-- `id_dec` (R134): subtype and id value of a ChassisId or PortId payload. -/
def idDec (kind : Byte → IdKind) : Bytes → Except Cause (Byte × IdValue)
  | [] => .error .lenRange
  | sub :: rest =>
    if sub < 1 ∨ sub > 7 then .error .subtype else
    match kind sub with
    | .mac => if rest.length ≠ Config.macBytes then .error .lenRange else .ok (sub, .mac rest)
    | .net =>
      match rest with
      | [] => .error .lenRange
      | af :: addr =>
        if !isFamily af then .error .af
        else if addr.length ≠ addrLen af then .error .lenRange
        else .ok (sub, .net af addr)
    | .text =>
      if rest.length > Config.idTextMax then .error .lenRange
      else if !utf8Ok rest then .error .utf8
      else .ok (sub, .text rest)

/-- `text_dec` (R143). -/
def textDec (p : Bytes) : Except Cause Bytes :=
  if p.length > Config.textMax then .error .lenRange else if !utf8Ok p then .error .utf8 else .ok p

/-- EndOfLLDPDU (R170). -/
def pdecEndOfLldpdu (p : Bytes) : Except Cause Tlv :=
  if p.length ≠ 0 then .error .lenRange else .ok .endOfLldpdu

/-- ChassisId (R132). -/
def pdecChassisId (p : Bytes) : Except Cause Tlv :=
  match idDec chassisKind p with
  | .error c => .error c
  | .ok (sub, idv) => .ok (.chassisId sub idv)

/-- PortId (R136). -/
def pdecPortId (p : Bytes) : Except Cause Tlv :=
  match idDec portKind p with
  | .error c => .error c
  | .ok (sub, idv) => .ok (.portId sub idv)

/-- Ttl (R139, R140). -/
def pdecTtl (p : Bytes) : Except Cause Tlv :=
  if p.length ≠ 2 then .error .lenRange else .ok (.ttl (be16 p))

/-- PortDescription (R144). -/
def pdecPortDescription (p : Bytes) : Except Cause Tlv :=
  match textDec p with
  | .error c => .error c
  | .ok t => .ok (.portDescription t)

/-- SystemName (R147). -/
def pdecSystemName (p : Bytes) : Except Cause Tlv :=
  match textDec p with
  | .error c => .error c
  | .ok t => .ok (.systemName t)

/-- SystemDescription (R150). -/
def pdecSystemDescription (p : Bytes) : Except Cause Tlv :=
  match textDec p with
  | .error c => .error c
  | .ok t => .ok (.systemDescription t)

/-- SystemCapabilities (R152, R154). -/
def pdecSystemCapabilities (p : Bytes) : Except Cause Tlv :=
  if p.length ≠ 4 then .error .lenRange else
  let sup := be16 (slice p 0 2)
  let en := be16 (slice p 2 4)
  if en &&& sup ≠ en then .error .capSubset else .ok (.systemCapabilities sup en)

/-- ManagementAddress (R160, R161): every offset is computed from the two length bytes `s` and `o`. -/
def pdecManagementAddress (p : Bytes) : Except Cause Tlv :=
  let n := p.length
  if n < 1 then .error .truncPayload else
  let s := (byteAt p 0).toNat
  if n < s + 7 then .error .truncPayload else
  let o := (byteAt p (s + 6)).toNat
  if n < s + 7 + o then .error .truncPayload else
  if n > s + 7 + o then .error .trailing else
  if s < 1 then .error .lenRange else
  let af := byteAt p 1
  if !isFamily af then .error .af else
  if s - 1 ≠ addrLen af then .error .lenRange else
  if o > Config.oidMax then .error .lenRange else
  let ifsub := byteAt p (s + 1)
  if ifsub < 1 ∨ ifsub > 3 then .error .subtype else
  .ok (.managementAddress af (slice p 2 (s + 1)) ifsub (be32 (slice p (s + 2) (s + 6))) (slice p (s + 7) (s + 7 + o)))

/-- OrganizationallySpecific (R165, R166). -/
def pdecOrganizationallySpecific (p : Bytes) : Except Cause Tlv :=
  if p.length < 4 then .error .lenRange
  else .ok (.organizationallySpecific (slice p 0 3) (byteAt p 3) (slice p 4 p.length))

/-- The payload decoder `pdec_K` of a variant. -/
def pdec : Variant → Bytes → Except Cause Tlv
  | .endOfLldpdu, p => pdecEndOfLldpdu p
  | .chassisId, p => pdecChassisId p
  | .portId, p => pdecPortId p
  | .ttl, p => pdecTtl p
  | .portDescription, p => pdecPortDescription p
  | .systemName, p => pdecSystemName p
  | .systemDescription, p => pdecSystemDescription p
  | .systemCapabilities, p => pdecSystemCapabilities p
  | .managementAddress, p => pdecManagementAddress p
  | .organizationallySpecific, p => pdecOrganizationallySpecific p

/-- A raise inside a frame: its cause, and the type code where the rule names one (R240, R245). -/
structure Raise where
  cause : Cause
  typ : Option (BitVec 7)
  deriving DecidableEq, Repr

/-- `dec(K, b)` (R121): the frame around the payload decoder. A payload fault concerns the TLV of the decoded header (R127). -/
def decFrame (k : Variant) : Bytes → Except Raise Tlv
  | b0 :: b1 :: p =>
    let t := (hdrDec b0 b1).1
    let l := (hdrDec b0 b1).2
    let tc := some (BitVec.ofNat 7 t)
    if t ≠ k.code then .error ⟨.unexpectedType, tc⟩
    else if p.length < l then .error ⟨.truncPayload, tc⟩
    else if p.length > l then .error ⟨.trailing, tc⟩
    else match pdec k p with
      | .error c => .error ⟨c, tc⟩
      | .ok v => .ok v
  | _ => .error ⟨.truncHdr, none⟩

/-! ### Well-formedness and payload encoders -/

/-- The checks of `id_enc` (R135), in its order. A family with the wrong number of bytes, or an id value of another kind than its
subtype's, cannot be expressed in `REC` (R135) and is in no reachable container. -/
def idCheck (kind : Byte → IdKind) (sub : Byte) (idv : IdValue) : Except Cause Unit :=
  if sub < 1 ∨ sub > 7 then .error .subtype else
  if !idv.hasKind (kind sub) then .error .lenRange else
  match idv with
  | .mac b => if b.length ≠ Config.macBytes then .error .lenRange else .ok ()
  | .net af addr => if !isFamily af then .error .af else if addr.length ≠ addrLen af then .error .lenRange else .ok ()
  | .text b => if b.length > Config.idTextMax then .error .lenRange else if !utf8Ok b then .error .utf8 else .ok ()

/-- The checks of `text_enc` (R143). -/
def textCheck (t : Bytes) : Except Cause Unit :=
  if t.length > Config.textMax then .error .lenRange else if !utf8Ok t then .error .utf8 else .ok ()

/-- The well-formedness checks `enc` makes, in the order of the variant's encode rule (R125; R133, R137, R141, R145, R148, R151,
R155, R162, R167, R171). -/
def wfCheck : Tlv → Except Cause Unit
  | .endOfLldpdu => .ok ()
  | .chassisId sub idv => idCheck chassisKind sub idv
  | .portId sub idv => idCheck portKind sub idv
  | .ttl _ => .ok ()
  | .portDescription t => textCheck t
  | .systemName t => textCheck t
  | .systemDescription t => textCheck t
  | .systemCapabilities sup en => if en &&& sup ≠ en then .error .capSubset else .ok ()
  | .managementAddress af addr ifsub _ oid =>
    if !isFamily af then .error .af
    else if addr.length ≠ addrLen af then .error .lenRange
    else if ifsub < 1 ∨ ifsub > 3 then .error .subtype
    else if oid.length > Config.oidMax then .error .lenRange
    else .ok ()
  | .organizationallySpecific oui _ value =>
    if oui.length ≠ Config.ouiBytes then .error .lenRange
    else if value.length > Config.orgValueMax then .error .lenRange else .ok ()

/-- The id value's clauses of `WF` (R122). -/
def idWf (kind : Byte → IdKind) (sub : Byte) (idv : IdValue) : Bool :=
  decide (1 ≤ sub) && decide (sub ≤ 7) && idv.hasKind (kind sub) &&
  match idv with
  | .mac b => b.length == 6
  | .net af addr => isFamily af && addr.length == addrLen af
  | .text b => decide (b.length ≤ Config.idTextMax) && utf8Ok b

/-- `WF(v)` (R122), as the table of that rule states it. -/
def Tlv.wf : Tlv → Bool
  | .endOfLldpdu => true
  | .chassisId sub idv => idWf chassisKind sub idv
  | .portId sub idv => idWf portKind sub idv
  | .ttl _ => true
  | .portDescription t => decide (t.length ≤ 255) && utf8Ok t
  | .systemName t => decide (t.length ≤ 255) && utf8Ok t
  | .systemDescription t => decide (t.length ≤ 255) && utf8Ok t
  | .systemCapabilities sup en => en &&& sup == en
  | .managementAddress af addr ifsub _ oid =>
    isFamily af && addr.length == addrLen af && decide (1 ≤ ifsub) && decide (ifsub ≤ 3) && decide (oid.length ≤ 128)
  | .organizationallySpecific oui _ value => oui.length == 3 && decide (value.length ≤ 507)

/-- The id value's payload bytes after the subtype (R130, R135). -/
def IdValue.bytes : IdValue → Bytes
  | .mac b => b
  | .net af addr => af :: addr
  | .text b => b

/-- `penc(v)` (R125): the payload bytes of a value. -/
def penc : Tlv → Bytes
  | .endOfLldpdu => []
  | .chassisId sub idv => sub :: idv.bytes
  | .portId sub idv => sub :: idv.bytes
  | .ttl secs => toBe16 secs
  | .portDescription t => t
  | .systemName t => t
  | .systemDescription t => t
  | .systemCapabilities sup en => toBe16 sup ++ toBe16 en
  | .managementAddress af addr ifsub ifnum oid =>
    [BitVec.ofNat 8 (1 + addr.length), af] ++ addr ++ [ifsub] ++ toBe32 ifnum ++ [BitVec.ofNat 8 oid.length] ++ oid
  | .organizationallySpecific oui sub value => oui ++ [sub] ++ value

/-- `length(v)` (R21): derived from the value, never stored beside it. -/
def tlvLength (v : Tlv) : Nat := (penc v).length

/-- `size(v) = 2 + length(v)` (R13). -/
def tlvSize (v : Tlv) : Nat := 2 + tlvLength v

/-- The header and payload bytes of a value, without the checks: what `enc` returns on a well-formed one. -/
def encBytes (v : Tlv) : Bytes := tlvBytes v.variant.code (penc v)

/-- `enc(v)` (R125) of a value of one of the ten variants. -/
def enc (v : Tlv) : Except Cause Bytes :=
  match wfCheck v with
  | .error c => .error c
  | .ok () => .ok (encBytes v)

/-! ### The TLV value in `REC` -/

/-- The id value `REC` holds for a subtype: its kind is taken from the subtype (R131, R135). -/
def recordId (kind : Byte → IdKind) (r : TlvRecord) : IdValue :=
  match kind r.sub with
  | .mac => .mac (r.val.readN 0 r.vlen.toNat)
  | .net => .net r.af (r.addr.readN 0 (addrLen r.af))
  | .text => .text (r.val.readN 0 r.vlen.toNat)

/-- `value(REC)` (R23), unchecked; none when `REC.type` is no defined type code (R24). -/
def recordValue (r : TlvRecord) : Option Tlv :=
  let bytes := r.val.readN 0 r.vlen.toNat
  match Variant.ofCode r.typ.toNat with
  | none => none
  | some .endOfLldpdu => some .endOfLldpdu
  | some .chassisId => some (.chassisId r.sub (recordId chassisKind r))
  | some .portId => some (.portId r.sub (recordId portKind r))
  | some .ttl => some (.ttl r.ttl)
  | some .portDescription => some (.portDescription bytes)
  | some .systemName => some (.systemName bytes)
  | some .systemDescription => some (.systemDescription bytes)
  | some .systemCapabilities => some (.systemCapabilities r.capSup r.capEn)
  | some .managementAddress => some (.managementAddress r.af (r.addr.readN 0 (addrLen r.af)) r.ifsub r.ifnum bytes)
  | some .organizationallySpecific => some (.organizationallySpecific (r.oui.readN 0 Config.ouiBytes) r.sub bytes)

/-- Write `REC.vlen` and `REC.val[0..vlen)`. -/
def recordBytes (b : Bytes) (r : TlvRecord) : TlvRecord :=
  { r with vlen := BitVec.ofNat 9 b.length, val := r.val.writeN 0 b }

/-- Write the fields of an id value (R23). -/
def recordWriteId (sub : Byte) (idv : IdValue) (r : TlvRecord) : TlvRecord :=
  match idv with
  | .mac b => { recordBytes b r with sub := sub }
  | .net af addr => { r with sub := sub, af := af, addr := r.addr.writeN 0 addr }
  | .text b => { recordBytes b r with sub := sub }

/-- Write the fields R23 lists for the variant; the others stay unwritten (R23; assumption 4). -/
def recordWriteFields (v : Tlv) (r : TlvRecord) : TlvRecord :=
  match v with
  | .endOfLldpdu => r
  | .chassisId sub idv => recordWriteId sub idv r
  | .portId sub idv => recordWriteId sub idv r
  | .ttl secs => { r with ttl := secs }
  | .portDescription t => recordBytes t r
  | .systemName t => recordBytes t r
  | .systemDescription t => recordBytes t r
  | .systemCapabilities sup en => { r with capSup := sup, capEn := en }
  | .managementAddress af addr ifsub ifnum oid =>
    { recordBytes oid r with af := af, addr := r.addr.writeN 0 addr, ifsub := ifsub, ifnum := ifnum }
  | .organizationallySpecific oui sub value => { recordBytes value r with oui := r.oui.writeN 0 oui, sub := sub }

/-- `REC <- v` (R23): the type, the derived length, and the variant's fields. -/
def recordWrite (v : Tlv) (r : TlvRecord) : TlvRecord :=
  { recordWriteFields v r with typ := v.typ, len := BitVec.ofNat 9 (tlvLength v) }

end Sys2Proof.Machine
end

