-- ==== Sys2Proof/Machine/Flags.lean ====
section
/-! DEFINITION. The block's flags: the summaries of a container (10_state R28, 42_container R195), computed from its sequence and
never stored; the cause and category codes (60_exceptions R240, R241) and the 32-bit view of STATUS (R30). -/

namespace Sys2Proof.Machine

/-! ### Container summaries -/

/-- `len(du)` (R28): the sum of the elements' sizes. -/
def duLen (du : List Tlv) : Nat := (du.map tlvSize).sum

/-- `has_end(du)` (R28): some element is EndOfLLDPDU. -/
def duHasEnd (du : List Tlv) : Bool := du.any fun t => t.variant == .endOfLldpdu

/-- `kind_at(du, i)` (R28); none beyond the last element. -/
def kindAt (du : List Tlv) (i : Nat) : Option Variant := (du[i]?).map Tlv.variant

/-- `complete(du)` (R195): all four checks. -/
def duComplete (du : List Tlv) : Bool :=
  decide (du.length ≥ 4) && kindAt du 0 == some .chassisId && kindAt du 1 == some .portId && kindAt du 2 == some .ttl &&
  kindAt du (du.length - 1) == some .endOfLldpdu

/-! ### Codes -/

/-- `ST.cause` codes (R240). -/
def Cause.code : Cause → BitVec 5
  | .ok => 0
  | .truncHdr => 1
  | .truncPayload => 2
  | .trailing => 3
  | .lenRange => 4
  | .subtype => 5
  | .af => 6
  | .utf8 => 7
  | .hdrRange => 8
  | .unknownType => 9
  | .unexpectedType => 10
  | .ordPosition => 11
  | .ordTriple => 12
  | .ordEndDup => 13
  | .ordAfterEnd => 14
  | .capSubset => 15
  | .size => 16
  | .illegalOp => 17

/-- The category of a cause (R240). -/
def Cause.category : Cause → Category
  | .ok => .none
  | .truncHdr | .truncPayload | .trailing | .lenRange | .subtype | .af | .utf8 | .hdrRange => .malformed
  | .unknownType => .unknownType
  | .unexpectedType => .unexpectedType
  | .ordPosition | .ordTriple | .ordEndDup | .ordAfterEnd => .ordering
  | .capSubset => .semantic
  | .size => .size
  | .illegalOp => .illegalOp

/-- `ST.cat` codes (R241). -/
def Category.code : Category → BitVec 3
  | .none => 0
  | .malformed => 1
  | .unknownType => 2
  | .ordering => 3
  | .semantic => 4
  | .size => 5
  | .unexpectedType => 6
  | .illegalOp => 7

/-- `ST.stop` codes (R30). -/
def Stop.code : Stop → BitVec 2
  | .notParsed => 0
  | .endTlv => 1
  | .exhausted => 2
  | .fault => 3

/-- STATUS as the 32-bit word the host reads (R30): stop in bits 31:30 down to ok in bit 0. -/
def Status.word (st : Status) : BitVec 32 :=
  st.stop.code ++ BitVec.ofBool st.complete ++ BitVec.ofBool st.qual ++ st.off ++ st.typ ++ BitVec.ofBool st.tv ++
  st.cat.code ++ st.cause.code ++ BitVec.ofBool st.ok

end Sys2Proof.Machine
end

