-- ==== Sys2Proof/Machine/Ops.lean ====
section
/-! DEFINITION. The shared operations: insertion into a container (42_container R186), serialization (R190), the end of an operation
(10_state R30), taking a fault (60_exceptions R245), the stores into the byte spaces, the TLV step (42_container R200) and the start
of a parse (R201). There is no return from a fault (R248): a fault moves control nowhere, the engine is idle after it. -/

namespace Sys2Proof.Machine

/-! ### Containers -/

/-- The classes of R185. -/
inductive TlvClass
  | chassis | port | ttl | endTlv | optional
  deriving DecidableEq, Repr

/-- The class of a value (R185). -/
def Tlv.cls (t : Tlv) : TlvClass :=
  match t.variant with
  | .chassisId => .chassis
  | .portId => .port
  | .ttl => .ttl
  | .endOfLldpdu => .endTlv
  | _ => .optional

/-- The position test of R186, invariants 1 to 5: the cause it raises for a value of class `c` at position `n`. -/
def positionFault (c : TlvClass) (n : Nat) : Option Cause :=
  match c with
  | .chassis => if n ≠ 0 then some .ordPosition else none
  | .port => if n ≠ 1 then some .ordPosition else none
  | .ttl => if n ≠ 2 then some .ordPosition else none
  | .optional => if n < Config.minTriple then some .ordTriple else none
  | .endTlv => if n < Config.minTriple then some .ordTriple else none

/-- `append(du, t)` (R186): the end test, the position test, the size test, in this order. -/
def duAppend (du : List Tlv) (t : Tlv) : Except Cause (List Tlv) :=
  if duHasEnd du then (if t.cls = .endTlv then .error .ordEndDup else .error .ordAfterEnd)
  else match positionFault t.cls du.length with
    | some c => .error c
    | none => if duLen du + tlvSize t > Config.duMax then .error .size else .ok (du ++ [t])

/-- `serialize(du)` (R190): each element's encoding in sequence order. Every element of a reachable container is well-formed
(R122), where `encBytes` is `enc`. -/
def serialize (du : List Tlv) : Bytes := du.flatMap encBytes

/-- The container `SEL` selects (R31): 0 = `DU_RX`, 1 = `DU_TX`. -/
def selected (s : State) : List Tlv := if s.sel = 0 then s.duRx else s.duTx

/-! ### The end of an operation, and taking a fault -/

/-- An operation ends: `ST` is written whole (R30) and the engine is idle (R245). -/
def finish (st : Status) (s : State) : State := { s with st := st, op := none, parsing := false }

/-- The operation in progress is `RX.FRAME` (R90): its `ST.qual` is 1 (R230). -/
def viaFrame (s : State) : Bool := s.op == some 12

/-- What a fault of the running parse leaves in `PAY_BASE` and `PAY_LEN`. Only RX.FRAME has written them since it started: the spec
says both that they are then rewritten (R292, R230) and that they keep the value they had at its start (R245), and the model leaves
open which (assumption 18). -/
def faultPay (s : State) : BitVec 16 × BitVec 16 :=
  match s.savedPay with
  | none => (s.payBase, s.payLen)
  | some start => if Config.rxFaultRestoresPay then start else (s.payBase, s.payLen)

/-- `raise c(t)` (R245). A TLV step's fault also says where (`ST.off`), and leaves `DU_RX` empty and `OFF` at the header of the
offending TLV (R201, R202); every other output has the value it had when the operation started, but for the descriptor of RX.FRAME
(`faultPay`, assumption 18). -/
def takeFault (c : Cause) (t : Option (BitVec 7)) (s : State) : State :=
  finish { ok := false, cause := c, cat := c.category, tv := t.isSome, typ := t.getD 0,
           off := if s.parsing then s.off else 0, qual := s.parsing && viaFrame s, complete := false,
           stop := if s.parsing then .fault else .notParsed }
    { s with
      duRx := if s.parsing then [] else s.duRx
      payBase := if s.parsing then (faultPay s).1 else s.payBase
      payLen := if s.parsing then (faultPay s).2 else s.payLen
      savedPay := if s.parsing then none else s.savedPay }

/-- A parse stops without a fault (R201, R230). -/
def stopParse (why : Stop) (s : State) : State :=
  finish { statusOk with stop := why, complete := duComplete s.duRx, qual := viaFrame s } { s with savedPay := none }

/-! ### Stores into the byte spaces -/

/-- `MemWrite(TXBUF, 0, |b|, b); TXLEN <- |b|`, then `ST` (R191, R227). -/
def storeTx (b : Bytes) (st : Status) (s : State) : Host.Outcome State Fault Refusal :=
  if b.length ≤ capacity .txbuf then
    .next (finish st { s with txbuf := s.txbuf.writeN 0 b, txLen := BitVec.ofNat 16 b.length })
  else .fault (.writeOutside .txbuf)

/-- `MemWrite(TLVBUF, 0, |b|, b); TLVLEN <- |b|; ST <- ok` (R104, R126). -/
def storeTlv (b : Bytes) (s : State) : Host.Outcome State Fault Refusal :=
  if b.length ≤ capacity .tlvbuf then
    .next (finish statusOk { s with tlvbuf := s.tlvbuf.writeN 0 b, tlvLen := BitVec.ofNat 10 b.length })
  else .fault (.writeOutside .tlvbuf)

/-- `REC <- v; ST <- ok` (R127, R198). -/
def storeRecord (v : Tlv) (s : State) : State := finish statusOk { s with tlvRec := recordWrite v s.tlvRec }

/-- `PAY_BASE <- base; PAY_LEN <- len` (R222). -/
def setPayload (base len : Nat) (s : State) : State :=
  { s with payBase := BitVec.ofNat 16 base, payLen := BitVec.ofNat 16 len }

/-! ### Parsing -/

/-- Keep what `PAY_BASE` and `PAY_LEN` hold, for a fault of the operation that is about to write them (R245). -/
def savePay (s : State) : State := { s with savedPay := some (s.payBase, s.payLen) }

/-- `DU_RX.seq <- []; OFF <- 0`, and the engine enters the loop of TLV steps (R201). -/
def openParse (s : State) : State := { s with duRx := [], off := 0, parsing := true }

/-- The TLV step from the decoded payload on (R200): append, advance the cursor by `2 + L`, and stop at EndOfLLDPDU. `t` is the
type code of the header, `L` the payload's length, `r` what the variant's payload decoder answers (R128). -/
def tlvStep (t : BitVec 7) (L : Nat) (r : Except Cause Tlv) (s : State) : State :=
  match r with
  | .error c => takeFault c (some t) s
  | .ok v =>
    match duAppend s.duRx v with
    | .error c => takeFault c (some t) s
    | .ok du =>
      let s' := { s with duRx := du, off := s.off + BitVec.ofNat 11 (2 + L) }
      if v.variant = .endOfLldpdu then stopParse .endTlv s' else s'

/-- The TLV step of an undefined type code (R84, R200): a fault from the header alone. -/
def unknownStep (t : Nat) (s : State) : State := takeFault .unknownType (some (BitVec.ofNat 7 t)) s

/-- A reserved operation code, or an illegal selector operand (R92): the fault, and no other change. -/
def illegalOp (s : State) : State := takeFault .illegalOp none s

/-! ### The envelope filter -/

/-- `qualifies(F, mac)` (R220). -/
def qualifies (f mac : Bytes) : Bool :=
  decide (f.length ≥ Config.envHdrBytes) && slice f 12 14 == Config.etherType &&
  (slice f 0 6 == Config.mcast0 || slice f 0 6 == Config.mcast1 || slice f 0 6 == Config.mcast2) &&
  slice f 6 12 != mac

/-- `LOCAL_MAC[0..6)` (R31). -/
def localMacBytes (s : State) : Bytes := s.localMac.readN 0 Config.macBytes

/-- `LLDP_MCAST[DST_SEL]` (R6, R31); none for the illegal value 3. -/
def destination (sel : BitVec 2) : Option Bytes :=
  match sel.toNat with
  | 0 => some Config.mcast0
  | 1 => some Config.mcast1
  | 2 => some Config.mcast2
  | _ => none

/-- `envelope(dst, src)` (R226). -/
def envelope (dst src : Bytes) : Bytes := dst ++ src ++ Config.etherType

end Sys2Proof.Machine
end

