-- ==== Sys2Proof/Machine/Codec.lean ====
section
/-! DEFINITION. The codec operations: HDR.ENC and HDR.DEC (40_header_codec R104, R105), TLV.ENC and TLV.DEC (41_tlv_variants R126,
R127). -/

namespace Sys2Proof.Machine

/-- HDR.ENC (R104). -/
def execHdrEnc (s : State) : Host.Outcome State Fault Refusal :=
  match hdrEnc s.htype.toNat s.hlen.toNat with
  | none => .next (takeFault .hdrRange none s)
  | some (b0, b1) => storeTlv [b0, b1] s

/-- HDR.DEC (R105): the bytes beyond the first two are not looked at. -/
def execHdrDec (s : State) : Host.Outcome State Fault Refusal :=
  if validLen .tlvbuf s < 2 then .next (takeFault .truncHdr none s) else
  match memRead .tlvbuf 0 2 s with
  | .error f => .fault f
  | .ok b =>
    let h := hdrDec (byteAt b 0) (byteAt b 1)
    .next (finish statusOk { s with htype := BitVec.ofNat 8 h.1, hlen := BitVec.ofNat 16 h.2 })

/-- TLV.ENC (R126): `REC.len` is not read. -/
def execTlvEnc (s : State) : Host.Outcome State Fault Refusal :=
  match recordValue s.tlvRec with
  | none => .next (takeFault .unknownType (some s.tlvRec.typ) s)
  | some v =>
    match enc v with
    | .error c => .next (takeFault c (some s.tlvRec.typ) s)
    | .ok b => storeTlv b s

/-- TLV.DEC (R127). -/
def execTlvDec (s : State) : Host.Outcome State Fault Refusal :=
  match Variant.ofCode s.expect.toNat with
  | none => .next (illegalOp s)
  | some k =>
    match memRead .tlvbuf 0 (validLen .tlvbuf s) s with
    | .error f => .fault f
    | .ok b =>
      match decFrame k b with
      | .error r => .next (takeFault r.cause r.typ s)
      | .ok v => .next (storeRecord v s)

end Sys2Proof.Machine
end

