-- ==== Sys2Proof/Machine/Container.lean ====
section
/-! DEFINITION. The container operations (42_container): DU.NEW (R180), DU.APPEND (R187), DU.SER (R191), DU.PARSE (R201), DU.COMPLETE
(R196), DU.GET (R198). -/

namespace Sys2Proof.Machine

/-- DU.NEW (R180): empty the selected container. -/
def execDuNew (s : State) : Host.Outcome State Fault Refusal :=
  .next (finish statusOk (if s.sel = 0 then { s with duRx := [] } else { s with duTx := [] }))

/-- DU.APPEND (R187): the value's checks as `enc` makes them, then `append`. -/
def execDuAppend (s : State) : Host.Outcome State Fault Refusal :=
  match recordValue s.tlvRec with
  | none => .next (takeFault .unknownType (some s.tlvRec.typ) s)
  | some t =>
    match wfCheck t with
    | .error c => .next (takeFault c (some s.tlvRec.typ) s)
    | .ok () =>
      match duAppend s.duTx t with
      | .error c => .next (takeFault c (some s.tlvRec.typ) s)
      | .ok du => .next (finish statusOk { s with duTx := du })

/-- DU.SER (R191). -/
def execDuSer (s : State) : Host.Outcome State Fault Refusal := storeTx (serialize (selected s)) statusOk s

/-- DU.PARSE (R201): the descriptor's check, then the loop of TLV steps begins; the steps that follow are its TLVs' meanings, and
the last of them ends the operation (assumption 7). -/
def execDuParse (s : State) : Host.Outcome State Fault Refusal :=
  if s.payBase.toNat + s.payLen.toNat > validLen .rxbuf s then .next (illegalOp s) else .next (openParse s)

/-- DU.COMPLETE (R196). -/
def execDuComplete (s : State) : Host.Outcome State Fault Refusal :=
  .next (finish { statusOk with complete := duComplete (selected s) } s)

/-- DU.GET (R198). -/
def execDuGet (s : State) : Host.Outcome State Fault Refusal :=
  match (selected s)[s.idx.toNat]? with
  | none => .next (illegalOp s)
  | some v => .next (storeRecord v s)

end Sys2Proof.Machine
end

