-- ==== Sys2Proof/Machine/Envelope.lean ====
section
/-! DEFINITION. The envelope operations (43_envelope): ENV.CLASSIFY (R222), ENV.BUILD (R227), RX.FRAME (R230). A `LOCAL_MAC` the host
has never written holds its reset value (assumption 3). -/

namespace Sys2Proof.Machine

/-- ENV.CLASSIFY (R222): never a fault. -/
def execEnvClassify (s : State) : Host.Outcome State Fault Refusal :=
  match memRead .rxbuf 0 (validLen .rxbuf s) s with
  | .error f => .fault f
  | .ok f =>
    if qualifies f (localMacBytes s) then
      .next (finish { statusOk with qual := true } (setPayload 14 (validLen .rxbuf s - 14) s))
    else .next (finish statusOk (setPayload 0 0 s))

/-- ENV.BUILD (R227): always from `DU_TX`, complete or not. -/
def execEnvBuild (s : State) : Host.Outcome State Fault Refusal :=
  match destination s.dstSel with
  | none => .next (illegalOp s)
  | some dst =>
    storeTx (envelope dst (localMacBytes s) ++ serialize s.duTx) { statusOk with complete := duComplete s.duTx } s

/-- RX.FRAME (R230): classify, then parse if the frame qualified. The descriptor is in range by construction, so the loop of TLV
steps begins at once (assumption 7); a frame that does not qualify empties `DU_RX`. Which
descriptor a run whose parse faults leaves, the one written (R230, R292) or the one found (R245), is open. DESIGN CHOICE, safe:
assumption 18. -/
def execRxFrame (s : State) : Host.Outcome State Fault Refusal :=
  match memRead .rxbuf 0 (validLen .rxbuf s) s with
  | .error f => .fault f
  | .ok f =>
    if qualifies f (localMacBytes s) then .next (openParse (setPayload 14 (validLen .rxbuf s - 14) (savePay s)))
    else .next (finish statusOk { setPayload 0 0 s with duRx := [], off := 0 })

end Sys2Proof.Machine
end

