-- ==== Sys2Proof/Machine/Reserved.lean ====
section
/-! DEFINITION. The reserved operation codes 13, 14 and 15 (30_encoding R92): `E_ILLEGAL_OP`, and no other change. -/

namespace Sys2Proof.Machine

/-- RESERVED_OP_13 (R92). -/
def execReservedOp13 (s : State) : Host.Outcome State Fault Refusal := .next (illegalOp s)

/-- RESERVED_OP_14 (R92). -/
def execReservedOp14 (s : State) : Host.Outcome State Fault Refusal := .next (illegalOp s)

/-- RESERVED_OP_15 (R92). -/
def execReservedOp15 (s : State) : Host.Outcome State Fault Refusal := .next (illegalOp s)

end Sys2Proof.Machine
end

