-- ==== Sys2Proof/Machine/TlvTypes.lean ====
section
/-! DEFINITION. The meanings of the ten defined TLV types: one TLV step each (42_container R200), whose operand is the payload `p`. -/

namespace Sys2Proof.Machine

/-- EndOfLLDPDU (R170): on success the parse stops (R200). -/
def execEndOfLldpdu (p : Bytes) (s : State) : Host.Outcome State Fault Refusal :=
  .next (tlvStep (variantTyp .endOfLldpdu) p.length (pdecEndOfLldpdu p) s)

/-- ChassisId (R132). -/
def execChassisId (p : Bytes) (s : State) : Host.Outcome State Fault Refusal :=
  .next (tlvStep (variantTyp .chassisId) p.length (pdecChassisId p) s)

/-- PortId (R136). -/
def execPortId (p : Bytes) (s : State) : Host.Outcome State Fault Refusal :=
  .next (tlvStep (variantTyp .portId) p.length (pdecPortId p) s)

/-- Ttl (R140). -/
def execTtl (p : Bytes) (s : State) : Host.Outcome State Fault Refusal :=
  .next (tlvStep (variantTyp .ttl) p.length (pdecTtl p) s)

/-- PortDescription (R144). -/
def execPortDescription (p : Bytes) (s : State) : Host.Outcome State Fault Refusal :=
  .next (tlvStep (variantTyp .portDescription) p.length (pdecPortDescription p) s)

/-- SystemName (R147). -/
def execSystemName (p : Bytes) (s : State) : Host.Outcome State Fault Refusal :=
  .next (tlvStep (variantTyp .systemName) p.length (pdecSystemName p) s)

/-- SystemDescription (R150). -/
def execSystemDescription (p : Bytes) (s : State) : Host.Outcome State Fault Refusal :=
  .next (tlvStep (variantTyp .systemDescription) p.length (pdecSystemDescription p) s)

/-- SystemCapabilities (R154). -/
def execSystemCapabilities (p : Bytes) (s : State) : Host.Outcome State Fault Refusal :=
  .next (tlvStep (variantTyp .systemCapabilities) p.length (pdecSystemCapabilities p) s)

/-- ManagementAddress (R161). -/
def execManagementAddress (p : Bytes) (s : State) : Host.Outcome State Fault Refusal :=
  .next (tlvStep (variantTyp .managementAddress) p.length (pdecManagementAddress p) s)

/-- OrganizationallySpecific (R166). -/
def execOrganizationallySpecific (p : Bytes) (s : State) : Host.Outcome State Fault Refusal :=
  .next (tlvStep (variantTyp .organizationallySpecific) p.length (pdecOrganizationallySpecific p) s)

end Sys2Proof.Machine
end

