-- ==== Sys2Proof/Machine/UnknownTypes.lean ====
section
/-! DEFINITION. The meanings of the undefined TLV types 9 to 126 (30_encoding R84), block by block of the opcode table: the fault
`E_UNKNOWN_TYPE`, raised from the header alone. `x` is the type code less the block's first. -/

namespace Sys2Proof.Machine

/-- UNKNOWN_9 (R84). -/
def execUnknown9 (s : State) : Host.Outcome State Fault Refusal := .next (unknownStep 9 s)

/-- UNKNOWN_10_11 (R84). -/
def execUnknown10To11 (x : BitVec 1) (s : State) : Host.Outcome State Fault Refusal := .next (unknownStep (10 + x.toNat) s)

/-- UNKNOWN_12_15 (R84). -/
def execUnknown12To15 (x : BitVec 2) (s : State) : Host.Outcome State Fault Refusal := .next (unknownStep (12 + x.toNat) s)

/-- UNKNOWN_16_31 (R84). -/
def execUnknown16To31 (x : BitVec 4) (s : State) : Host.Outcome State Fault Refusal := .next (unknownStep (16 + x.toNat) s)

/-- UNKNOWN_32_63 (R84). -/
def execUnknown32To63 (x : BitVec 5) (s : State) : Host.Outcome State Fault Refusal := .next (unknownStep (32 + x.toNat) s)

/-- UNKNOWN_64_95 (R84). -/
def execUnknown64To95 (x : BitVec 5) (s : State) : Host.Outcome State Fault Refusal := .next (unknownStep (64 + x.toNat) s)

/-- UNKNOWN_96_111 (R84). -/
def execUnknown96To111 (x : BitVec 4) (s : State) : Host.Outcome State Fault Refusal := .next (unknownStep (96 + x.toNat) s)

/-- UNKNOWN_112_119 (R84). -/
def execUnknown112To119 (x : BitVec 3) (s : State) : Host.Outcome State Fault Refusal := .next (unknownStep (112 + x.toNat) s)

/-- UNKNOWN_120_123 (R84). -/
def execUnknown120To123 (x : BitVec 2) (s : State) : Host.Outcome State Fault Refusal := .next (unknownStep (120 + x.toNat) s)

/-- UNKNOWN_124_125 (R84). -/
def execUnknown124To125 (x : BitVec 1) (s : State) : Host.Outcome State Fault Refusal := .next (unknownStep (124 + x.toNat) s)

/-- UNKNOWN_126 (R84). -/
def execUnknown126 (s : State) : Host.Outcome State Fault Refusal := .next (unknownStep 126 s)

end Sys2Proof.Machine
end

