-- ==== Sys2Proof/Machine/Dispatch.lean ====
section
/-! DEFINITION. One arm per instruction. -/

namespace Sys2Proof.Machine

def exec (i : Instr) (s : State) : Host.Outcome State Fault Refusal :=
  match i with
  | .endOfLldpdu p => Sys2Proof.Machine.execEndOfLldpdu p s
  | .chassisId p => Sys2Proof.Machine.execChassisId p s
  | .portId p => Sys2Proof.Machine.execPortId p s
  | .ttl p => Sys2Proof.Machine.execTtl p s
  | .portDescription p => Sys2Proof.Machine.execPortDescription p s
  | .systemName p => Sys2Proof.Machine.execSystemName p s
  | .systemDescription p => Sys2Proof.Machine.execSystemDescription p s
  | .systemCapabilities p => Sys2Proof.Machine.execSystemCapabilities p s
  | .managementAddress p => Sys2Proof.Machine.execManagementAddress p s
  | .organizationallySpecific p => Sys2Proof.Machine.execOrganizationallySpecific p s
  | .unknown9 _ => Sys2Proof.Machine.execUnknown9 s
  | .unknown10To11 x _ => Sys2Proof.Machine.execUnknown10To11 x s
  | .unknown12To15 x _ => Sys2Proof.Machine.execUnknown12To15 x s
  | .unknown16To31 x _ => Sys2Proof.Machine.execUnknown16To31 x s
  | .unknown32To63 x _ => Sys2Proof.Machine.execUnknown32To63 x s
  | .unknown64To95 x _ => Sys2Proof.Machine.execUnknown64To95 x s
  | .unknown96To111 x _ => Sys2Proof.Machine.execUnknown96To111 x s
  | .unknown112To119 x _ => Sys2Proof.Machine.execUnknown112To119 x s
  | .unknown120To123 x _ => Sys2Proof.Machine.execUnknown120To123 x s
  | .unknown124To125 x _ => Sys2Proof.Machine.execUnknown124To125 x s
  | .unknown126 _ => Sys2Proof.Machine.execUnknown126 s
  | .hdrEnc => Sys2Proof.Machine.execHdrEnc s
  | .hdrDec => Sys2Proof.Machine.execHdrDec s
  | .tlvEnc => Sys2Proof.Machine.execTlvEnc s
  | .tlvDec => Sys2Proof.Machine.execTlvDec s
  | .duNew => Sys2Proof.Machine.execDuNew s
  | .duAppend => Sys2Proof.Machine.execDuAppend s
  | .duSer => Sys2Proof.Machine.execDuSer s
  | .duParse => Sys2Proof.Machine.execDuParse s
  | .duComplete => Sys2Proof.Machine.execDuComplete s
  | .duGet => Sys2Proof.Machine.execDuGet s
  | .envClassify => Sys2Proof.Machine.execEnvClassify s
  | .envBuild => Sys2Proof.Machine.execEnvBuild s
  | .rxFrame => Sys2Proof.Machine.execRxFrame s
  | .reservedOp13 => Sys2Proof.Machine.execReservedOp13 s
  | .reservedOp14 => Sys2Proof.Machine.execReservedOp14 s
  | .reservedOp15 => Sys2Proof.Machine.execReservedOp15 s

end Sys2Proof.Machine
end

