-- ==== Sys2Proof/Machine/HostPort.lean ====
section
/-! DEFINITION. What the host does to an idle block (00_scope R8, R9; 10_state R20, R31; 70_reset_and_hazards R284): one write of
host-writable state, or the start of an operation. Writes have no side effect (R31). -/

namespace Sys2Proof.Machine

/-- A host write of `REC` (R20, R22). -/
def writeRecord (w : RecordWrite) (r : TlvRecord) : TlvRecord :=
  match w with
  | .typ v => { r with typ := v }
  | .len v => { r with len := v }
  | .sub v => { r with sub := v }
  | .af v => { r with af := v }
  | .addr i v => { r with addr := r.addr.write i.val v }
  | .ttl v => { r with ttl := v }
  | .capSup v => { r with capSup := v }
  | .capEn v => { r with capEn := v }
  | .ifsub v => { r with ifsub := v }
  | .ifnum v => { r with ifnum := v }
  | .oui i v => { r with oui := r.oui.write i.val v }
  | .vlen v => { r with vlen := v }
  | .val i v => { r with val := r.val.write i.val v }

/-- The block takes one host input. A length register ranges over `0..capacity` (93 U6: a write above it is refused), an address at
or beyond the capacity does not exist (R33). -/
def acceptInput (a : HostInput) (s : State) : Host.Outcome State Fault Refusal :=
  match a with
  | .reset => .next { State.reset with inputs := s.inputs }
  | .start op => .next { s with op := some op }
  | .writeRecord w => .next { s with tlvRec := writeRecord w s.tlvRec }
  | .writeHtype v => .next { s with htype := v }
  | .writeHlen v => .next { s with hlen := v }
  | .writeLocalMac i v => .next { s with localMac := s.localMac.write i.val v }
  | .writeDstSel v => .next { s with dstSel := v }
  | .writeExpect v => .next { s with expect := v }
  | .writeSel v => .next { s with sel := v }
  | .writeIdx v => .next { s with idx := v }
  | .writePayBase v => .next { s with payBase := v }
  | .writePayLen v => .next { s with payLen := v }
  | .writeRxByte a v =>
    if a < capacity .rxbuf then .next { s with rxbuf := s.rxbuf.write a v } else .fault (.noSuchAddress .rxbuf)
  | .writeRxLen v =>
    if v.toNat ≤ capacity .rxbuf then .next { s with rxLen := v } else .refused (.lengthAboveCapacity .rxbuf)
  | .writeTlvByte a v =>
    if a < capacity .tlvbuf then .next { s with tlvbuf := s.tlvbuf.write a v } else .fault (.noSuchAddress .tlvbuf)
  | .writeTlvLen v =>
    if v.toNat ≤ capacity .tlvbuf then .next { s with tlvLen := v } else .refused (.lengthAboveCapacity .tlvbuf)

end Sys2Proof.Machine
end

