-- ==== Sys2Proof/Machine/Fetch.lean ====
section
/-! DEFINITION. What the engine does next: the TLV at the cursor while it parses (42_container R200), the operation `OP` names when one
is started (00_scope R8), else the host's next input (R9). -/

namespace Sys2Proof.Machine

/-- An instruction to execute, or a step already settled without one. -/
inductive Fetched
  | instr (i : Instr)
  | settled (o : Host.Outcome State Fault Refusal)

/-- How many bytes at the cursor the engine looks at when the first of them are `hdr` (R71, R84, R246): header and payload for a
defined type, the header alone for an undefined one. -/
def tlvExtent : Bytes → Nat
  | b0 :: b1 :: _ =>
    match Variant.ofCode (hdrDec b0 b1).1 with
    | some _ => 2 + (hdrDec b0 b1).2
    | none => 2
  | _ => 2

/-- The bytes of the TLV at the cursor, as many of them as the payload slice has (R55: `RXBUF[PAY_BASE + OFF + k]`). -/
def fetchBytes (s : State) : Except Fault Bytes :=
  let base := s.payBase.toNat + s.off.toNat
  let rem := s.payLen.toNat - s.off.toNat
  match memRead .rxbuf base (min 2 rem) s with
  | .error f => .error f
  | .ok hdr => memRead .rxbuf base (min (tlvExtent hdr) rem) s

/-- The front of the TLV step (R200): exhaustion, a truncated header, a truncated payload, or the instruction at the cursor. -/
def fetchTlv (s : State) : Fetched :=
  match fetchBytes s with
  | .error f => .settled (.fault f)
  | .ok [] => .settled (.next (stopParse .exhausted s))
  | .ok b =>
    match decodeTlv b with
    | .error .truncHeader => .settled (.next (takeFault .truncHdr none s))
    | .error (.truncPayload t) => .settled (.next (takeFault .truncPayload (some (BitVec.ofNat 7 t)) s))
    | .ok (i, _) => .instr i

/-- The engine's next act. A reset is served at once, even inside a parse (R281: nothing of the operation is kept); any other host
input waits until the engine is idle (R287, 93 U3); an idle engine with nothing to do keeps its state (R263). -/
def fetch (s : State) : Fetched :=
  match s.inputs with
  | .reset :: rest => .settled (acceptInput .reset { s with inputs := rest })
  | inputs =>
    if s.parsing then fetchTlv s
    else match s.op with
      | some op => .instr (decodeOp op)
      | none =>
        match inputs with
        | [] => .settled (.next s)
        | a :: rest => .settled (acceptInput a { s with inputs := rest })

/-- The inputs after every reset at their head is taken away. -/
def dropResets : List HostInput → List HostInput
  | .reset :: rest => dropResets rest
  | inputs => inputs

/-- A code placed where the next step fetches. A port code goes into `OP`, the engine outside a parse. Stream bytes go into `RXBUF`
at the cursor, as a running parse finds them: the payload slice and `RXLEN` end with them, and `OP` names DU.PARSE if no parse runs.
The cursor keeps its place where the bytes fit behind it, else it and the slice's base start at 0. A pending reset is taken away. -/
def placeCode (c : Code) (s : State) : State :=
  match c with
  | .port op => { s with op := some op, parsing := false, savedPay := none, inputs := dropResets s.inputs }
  | .stream b =>
    let fits := s.payBase.toNat + s.off.toNat + b.length ≤ capacity .rxbuf
    let base := if fits then s.payBase.toNat else 0
    let off := if fits then s.off.toNat else 0
    { s with
      rxbuf := s.rxbuf.writeN (base + off) b
      rxLen := BitVec.ofNat 16 (base + off + b.length)
      payBase := BitVec.ofNat 16 base
      payLen := BitVec.ofNat 16 (off + b.length)
      off := BitVec.ofNat 11 off
      op := if s.parsing then s.op else some 7
      parsing := true
      inputs := dropResets s.inputs }

end Sys2Proof.Machine
end

