-- ==== Sys2Proof/Machine/Step.lean ====
section
/-! DEFINITION. One step of the block: what `fetch` finds, executed. -/

namespace Sys2Proof.Machine

/-- One step: the instruction fetched is executed, or the step was settled by the fetch (exhaustion, a truncated TLV, a host input). -/
def step (s : State) : Host.Outcome State Fault Refusal :=
  match fetch s with
  | .instr i => exec i s
  | .settled o => o

/-- `s` with the instruction of a table word where `step` fetches its next one. -/
def State.withFetchWord (s : State) (nbits w : Nat) : State := placeCode (tableCode nbits w) s

end Sys2Proof.Machine
end

