-- ==== Sys2Proof/Safety.lean ====
section
/-! DEFINITION. What the spec promises of the states the block reaches, in the terms the statements use: the container invariants
(42_container R188), the form of STATUS (60_exceptions R240, R241, R245), the bounds of the buffers (10_state R33), the cursor of a
running parse (42_container R204), and which operation may raise which cause (60_exceptions R243). -/

namespace Sys2Proof.Machine

/-- The invariants 1 to 7 of a reachable container (R188), by position. -/
structure DuOrdered (du : List Tlv) : Prop where
  chassisAtZero : ∀ i, kindAt du i = some .chassisId → i = 0
  portAtOne : ∀ i, kindAt du i = some .portId → i = 1
  ttlAtTwo : ∀ i, kindAt du i = some .ttl → i = 2
  optionalAfterTriple : ∀ i t, du[i]? = some t → t.cls = .optional → 3 ≤ i
  endAfterTriple : ∀ i, kindAt du i = some .endOfLldpdu → 3 ≤ i
  endOnce : ∀ i j, kindAt du i = some .endOfLldpdu → kindAt du j = some .endOfLldpdu → i = j
  size : duLen du ≤ 1500
  endLast : ∀ i, kindAt du i = some .endOfLldpdu → i + 1 = du.length

/-- A container the block can hold: ordered (R188), every element well-formed (R122). -/
def DuInv (du : List Tlv) : Prop := DuOrdered du ∧ ∀ t ∈ du, t.wf = true

/-- A container got from the empty sequence by `append` alone, of well-formed values (R188). -/
inductive DuReachable : List Tlv → Prop
  | empty : DuReachable []
  | append {du du' : List Tlv} {t : Tlv} : DuReachable du → t.wf = true → duAppend du t = .ok du' → DuReachable du'

/-- STATUS as some rule writes it (R30, R245): `ok` says whether there is a cause, the category is the cause's, the type code is 0
without `tv`, a parse that ended by a fault says so, and a fault reports no completeness. -/
structure StatusInv (st : Status) : Prop where
  okIff : st.ok = decide (st.cause = .ok)
  cat : st.cat = st.cause.category
  typ : st.tv = false → st.typ = 0
  okPlain : st.ok = true → st.tv = false ∧ st.off = 0 ∧ st.stop ≠ .fault
  faultPlain : st.ok = false → st.complete = false ∧ (st.stop = .fault ∨ st.stop = .notParsed)

/-- Bytes in canonical form, none at or beyond `cap`. -/
def MemInv (cap : Nat) (m : Memory) : Prop := m.wf = true ∧ m.below cap = true

/-- A running parse (R26, R200, R204): the operation is DU.PARSE or RX.FRAME, its slice lies inside the valid bytes, the cursor is
where the TLVs taken so far end, and none of them is EndOfLLDPDU; RX.FRAME, and it alone, has kept the descriptor it found (assumption 18). -/
structure ParseInv (s : State) : Prop where
  byParser : s.op = some 7 ∨ s.op = some 12
  sliceInside : s.payBase.toNat + s.payLen.toNat ≤ s.rxLen.toNat
  cursor : s.off.toNat = duLen s.duRx
  cursorInside : s.off.toNat ≤ s.payLen.toNat
  running : duHasEnd s.duRx = false
  saved : s.savedPay.isSome = (s.op == some 12)

/-- What holds in every state the block reaches. -/
structure Inv (s : State) : Prop where
  duRx : DuInv s.duRx
  duTx : DuInv s.duTx
  status : StatusInv s.st
  rxbuf : MemInv Config.rxCap s.rxbuf
  txbuf : MemInv Config.txCap s.txbuf
  tlvbuf : MemInv Config.tlvCap s.tlvbuf
  localMac : MemInv Config.macBytes s.localMac
  recAddr : MemInv Config.addrBytes s.tlvRec.addr
  recOui : MemInv Config.ouiBytes s.tlvRec.oui
  recVal : MemInv Config.valBytes s.tlvRec.val
  rxLen : s.rxLen.toNat ≤ Config.rxCap
  txLen : s.txLen.toNat ≤ Config.txCap
  tlvLen : s.tlvLen.toNat ≤ Config.tlvCap
  parse : s.parsing = true → ParseInv s
  idle : s.parsing = false → s.savedPay = none

/-- A host input the block takes: a byte inside its space (R33), a length within the capacity (93 U6). -/
def legalInput : HostInput → Bool
  | .writeRxByte a _ => decide (a < Config.rxCap)
  | .writeRxLen v => decide (v.toNat ≤ Config.rxCap)
  | .writeTlvByte a _ => decide (a < Config.tlvCap)
  | .writeTlvLen v => decide (v.toNat ≤ Config.tlvCap)
  | _ => true

/-- Every host input still to come is one the block takes. -/
def InputsLegal (s : State) : Prop := ∀ a ∈ s.inputs, legalInput a = true

/-- The causes of the value checks of TLV.ENC (R243). -/
def valueCauses : List Cause := [.subtype, .lenRange, .af, .utf8, .capSubset]

/-- Which causes an instruction can raise: the operations by the table of R243, a TLV by the fault list of its decode rule and by the
ordering and size causes of R201 (none of those behind an EndOfLLDPDU, which no parse reaches). -/
def raisable : Instr → List Cause
  | .endOfLldpdu _ => [.lenRange, .ordTriple, .size]
  | .chassisId _ => [.lenRange, .subtype, .af, .utf8, .ordPosition, .size]
  | .portId _ => [.lenRange, .subtype, .af, .utf8, .ordPosition, .size]
  | .ttl _ => [.lenRange, .ordPosition, .size]
  | .portDescription _ | .systemName _ | .systemDescription _ => [.lenRange, .utf8, .ordTriple, .size]
  | .systemCapabilities _ => [.lenRange, .capSubset, .ordTriple, .size]
  | .managementAddress _ => [.truncPayload, .trailing, .lenRange, .af, .subtype, .ordTriple, .size]
  | .organizationallySpecific _ => [.lenRange, .ordTriple, .size]
  | .unknown9 _ | .unknown10To11 _ _ | .unknown12To15 _ _ | .unknown16To31 _ _ | .unknown32To63 _ _ | .unknown64To95 _ _
  | .unknown96To111 _ _ | .unknown112To119 _ _ | .unknown120To123 _ _ | .unknown124To125 _ _ | .unknown126 _ => [.unknownType]
  | .hdrEnc => [.hdrRange]
  | .hdrDec => [.truncHdr]
  | .tlvEnc => .unknownType :: valueCauses
  | .tlvDec => [.illegalOp, .truncHdr, .unexpectedType, .truncPayload, .trailing] ++ valueCauses
  | .duNew | .duSer | .duComplete | .envClassify | .rxFrame => []
  | .duAppend => .unknownType :: valueCauses ++ [.ordEndDup, .ordAfterEnd, .ordPosition, .ordTriple, .size]
  | .duParse | .duGet | .envBuild => [.illegalOp]
  | .reservedOp13 | .reservedOp14 | .reservedOp15 => [.illegalOp]

/-- The instruction is a TLV of the stream (format `TLV` of the opcode table), not an operation of the port. -/
def isTlv (i : Instr) : Bool :=
  match encode i with
  | .stream _ => true
  | .port _ => false

/-- The position rules 1 to 5 of `append` (R186): where a value of a variant may be inserted when `n` elements are there. -/
def mayStandAt : Variant → Nat → Prop
  | .chassisId, n => n = 0
  | .portId, n => n = 1
  | .ttl, n => n = 2
  | _, n => 3 ≤ n

/-- The variant can be appended to the container: nothing stands behind an EndOfLLDPDU, its position is the one it may have, and
`bytes` more bytes keep the LLDPDU within 1500 (R186). -/
def Accepts (du : List Tlv) (k : Variant) (bytes : Nat) : Prop :=
  duHasEnd du = false ∧ mayStandAt k du.length ∧ duLen du + bytes ≤ 1500

/-- Bytes `m'` read as bytes `m` do, but for address `x`, which reads `v` (R33: a write of one byte). -/
def ByteWritten (x : Nat) (v : Byte) (m m' : Memory) : Prop := ∀ a, m'.read a = if a = x then v else m.read a

/-- The engine serves no reset next (R281). -/
def NoReset (s : State) : Prop := ∀ rest, s.inputs ≠ .reset :: rest

/-- A row of the table of well-formed UTF-8 byte sequences (R123), by the numbers of its bytes. -/
inductive Utf8Row : Bytes → Prop
  | one {a : Byte} (ha : a.toNat ≤ 0x7F) : Utf8Row [a]
  | two {a b : Byte} (ha : 0xC2 ≤ a.toNat ∧ a.toNat ≤ 0xDF) (hb : 0x80 ≤ b.toNat ∧ b.toNat ≤ 0xBF) : Utf8Row [a, b]
  | threeE0 {a b c : Byte} (ha : a.toNat = 0xE0) (hb : 0xA0 ≤ b.toNat ∧ b.toNat ≤ 0xBF)
      (hc : 0x80 ≤ c.toNat ∧ c.toNat ≤ 0xBF) : Utf8Row [a, b, c]
  | threeE1 {a b c : Byte} (ha : 0xE1 ≤ a.toNat ∧ a.toNat ≤ 0xEC) (hb : 0x80 ≤ b.toNat ∧ b.toNat ≤ 0xBF)
      (hc : 0x80 ≤ c.toNat ∧ c.toNat ≤ 0xBF) : Utf8Row [a, b, c]
  | threeED {a b c : Byte} (ha : a.toNat = 0xED) (hb : 0x80 ≤ b.toNat ∧ b.toNat ≤ 0x9F)
      (hc : 0x80 ≤ c.toNat ∧ c.toNat ≤ 0xBF) : Utf8Row [a, b, c]
  | threeEE {a b c : Byte} (ha : 0xEE ≤ a.toNat ∧ a.toNat ≤ 0xEF) (hb : 0x80 ≤ b.toNat ∧ b.toNat ≤ 0xBF)
      (hc : 0x80 ≤ c.toNat ∧ c.toNat ≤ 0xBF) : Utf8Row [a, b, c]
  | fourF0 {a b c d : Byte} (ha : a.toNat = 0xF0) (hb : 0x90 ≤ b.toNat ∧ b.toNat ≤ 0xBF)
      (hc : 0x80 ≤ c.toNat ∧ c.toNat ≤ 0xBF) (hd : 0x80 ≤ d.toNat ∧ d.toNat ≤ 0xBF) : Utf8Row [a, b, c, d]
  | fourF1 {a b c d : Byte} (ha : 0xF1 ≤ a.toNat ∧ a.toNat ≤ 0xF3) (hb : 0x80 ≤ b.toNat ∧ b.toNat ≤ 0xBF)
      (hc : 0x80 ≤ c.toNat ∧ c.toNat ≤ 0xBF) (hd : 0x80 ≤ d.toNat ∧ d.toNat ≤ 0xBF) : Utf8Row [a, b, c, d]
  | fourF4 {a b c d : Byte} (ha : a.toNat = 0xF4) (hb : 0x80 ≤ b.toNat ∧ b.toNat ≤ 0x8F)
      (hc : 0x80 ≤ c.toNat ∧ c.toNat ≤ 0xBF) (hd : 0x80 ≤ d.toNat ∧ d.toNat ≤ 0xBF) : Utf8Row [a, b, c, d]

/-- `REC` holds a value its variant's encode rule turns away, and the cause that rule names, in the order of its checks (R125; id
values R135, texts R143, SystemCapabilities R155, ManagementAddress R162, OrganizationallySpecific R167). -/
inductive RecordFault (r : TlvRecord) : Cause → Prop
  | unknownType (h : 9 ≤ r.typ.toNat ∧ r.typ.toNat ≤ 126) : RecordFault r .unknownType
  | idSubtype (h : r.typ = 1 ∨ r.typ = 2) (hs : r.sub < 1 ∨ 7 < r.sub) : RecordFault r .subtype
  | idMac (h : (r.typ = 1 ∧ r.sub = 4) ∨ (r.typ = 2 ∧ r.sub = 3)) (hl : r.vlen ≠ 6) : RecordFault r .lenRange
  | idFamily (h : (r.typ = 1 ∧ r.sub = 5) ∨ (r.typ = 2 ∧ r.sub = 4)) (ha : r.af ≠ 1 ∧ r.af ≠ 2) : RecordFault r .af
  | idTextLong (h : (r.typ = 1 ∧ r.sub ≠ 4 ∧ r.sub ≠ 5) ∨ (r.typ = 2 ∧ r.sub ≠ 3 ∧ r.sub ≠ 4)) (hs : 1 ≤ r.sub ∧ r.sub ≤ 7)
      (hl : 510 < r.vlen) : RecordFault r .lenRange
  | idTextUtf8 (h : (r.typ = 1 ∧ r.sub ≠ 4 ∧ r.sub ≠ 5) ∨ (r.typ = 2 ∧ r.sub ≠ 3 ∧ r.sub ≠ 4)) (hs : 1 ≤ r.sub ∧ r.sub ≤ 7)
      (hl : r.vlen ≤ 510) (hu : utf8Ok (r.val.readN 0 r.vlen.toNat) = false) : RecordFault r .utf8
  | textLong (h : r.typ = 4 ∨ r.typ = 5 ∨ r.typ = 6) (hl : 255 < r.vlen) : RecordFault r .lenRange
  | textUtf8 (h : r.typ = 4 ∨ r.typ = 5 ∨ r.typ = 6) (hl : r.vlen ≤ 255) (hu : utf8Ok (r.val.readN 0 r.vlen.toNat) = false) :
      RecordFault r .utf8
  | capabilities (h : r.typ = 7) (hc : r.capEn &&& r.capSup ≠ r.capEn) : RecordFault r .capSubset
  | mgmtFamily (h : r.typ = 8) (ha : r.af ≠ 1 ∧ r.af ≠ 2) : RecordFault r .af
  | mgmtSubtype (h : r.typ = 8) (ha : r.af = 1 ∨ r.af = 2) (hs : r.ifsub < 1 ∨ 3 < r.ifsub) : RecordFault r .subtype
  | mgmtOid (h : r.typ = 8) (ha : r.af = 1 ∨ r.af = 2) (hs : 1 ≤ r.ifsub ∧ r.ifsub ≤ 3) (hl : 128 < r.vlen) :
      RecordFault r .lenRange
  | orgLong (h : r.typ = 127) (hl : 507 < r.vlen) : RecordFault r .lenRange

end Sys2Proof.Machine
end

