-- ==== Sys2Proof/Certificates/Slice0/Obligations.lean ====
section
/-! DEFINITION. The statements for the provers. Each names the rules of spec/ it rests on. None rests on the values the model chose
for registers and bytes the spec leaves without one (assumptions 2 to 5): where such a register or byte occurs, the statement holds
for every value of it. The bound `Config.rxCap` on `RXLEN` is the spec's parameter at its default (assumption 6). -/

open Sys2Proof Sys2Proof.Machine

/-! ### Reset and steps -/

/-- R37: what the spec gives a value at reset has it, and nothing else does anything yet. -/
def Obligations.ResetValuesOfTheSpec : Prop :=
  State.reset.duRx = [] ∧ State.reset.duTx = [] ∧ State.reset.off = 0 ∧ State.reset.st.word = 1 ∧ State.reset.rxLen = 0 ∧
  State.reset.txLen = 0 ∧ State.reset.tlvLen = 0 ∧ State.reset.payBase = 0 ∧ State.reset.payLen = 0 ∧ State.reset.sel = 0 ∧
  State.reset.idx = 0 ∧ State.reset.expect = 0 ∧ State.reset.dstSel = 2 ∧ State.reset.op = none ∧ State.reset.parsing = false ∧
  State.reset.savedPay = none

/-- The invariant of the machine holds after reset (R37, R29). -/
def Obligations.ResetMeetsMachineInvariant : Prop := Inv State.reset

/-- Every step keeps the invariant: containers (R188, R29), STATUS (R245), the byte spaces' canonical form and bounds (R33), the
cursor of a running parse (R204). -/
def Obligations.EveryStepKeepsMachineInvariant : Prop := ∀ s t : State, Inv s → step s = .next t → Inv t

/-- No fault stops the engine (R246), nothing is stuck: from a state that meets the invariant every step answers a next state, if the
host's inputs are ones the block takes. -/
def Obligations.NoReachableStateStops : Prop := ∀ s : State, Inv s → InputsLegal s → ∃ t, step s = .next t

/-- R204, R295: a parse always ends, within 750 TLV steps, the stopping one among them (R200). -/
def Obligations.EveryParseEnds : Prop :=
  ∀ s : State, Inv s → s.parsing = true → NoReset s →
    ∃ k t, k ≤ 750 ∧ Host.Core.run Sys2Proof.core k s = .next t ∧ t.parsing = false ∧ t.op = none

/-- R200, R55: inside a parse, when the bytes at the cursor are the encoding of a well-formed TLV instruction, one step is that
instruction executed. -/
def Obligations.StepRunsTheTlvAtTheCursor : Prop :=
  ∀ (s : State) (i : Instr) (b : Bytes), NoReset s → s.parsing = true → i.wf = true → encode i = .stream b →
    s.off.toNat + b.length ≤ s.payLen.toNat → s.payBase.toNat + s.payLen.toNat ≤ s.rxLen.toNat →
    s.rxLen.toNat ≤ Config.rxCap →
    (∀ k (h : k < b.length), s.rxbuf.read (s.payBase.toNat + s.off.toNat + k) = b[k]) →
    step s = exec i s

/-- R8, R90: outside a parse, one step is the operation `OP` names, executed; with none started and no host input, the state stays. -/
def Obligations.StepRunsTheOperationStarted : Prop :=
  (∀ (s : State) (op : BitVec 4), NoReset s → s.parsing = false → s.op = some op → step s = exec (decodeOp op) s) ∧
  (∀ s : State, s.inputs = [] → s.parsing = false → s.op = none → step s = .next s)

/-- R200: the ends of a parse that run no instruction: no byte left (stop EXHAUSTED, R201), one byte left (`E_TRUNC_HDR`), fewer
bytes left than the header of a defined type declares (`E_TRUNC_PAYLOAD`). -/
def Obligations.ParseEndsWithoutAnInstruction : Prop :=
  ∀ s : State, NoReset s → s.parsing = true → s.payBase.toNat + s.payLen.toNat ≤ s.rxLen.toNat → s.rxLen.toNat ≤ Config.rxCap →
    (s.off.toNat = s.payLen.toNat →
      step s = .next { s with
        st := { ok := true, cause := .ok, cat := .none, tv := false, typ := 0, off := 0, qual := s.op == some 12,
                complete := duComplete s.duRx, stop := .exhausted }
        op := none, parsing := false, savedPay := none }) ∧
    (s.off.toNat + 1 = s.payLen.toNat →
      step s = .next { s with
        duRx := []
        st := { ok := false, cause := .truncHdr, cat := .malformed, tv := false, typ := 0, off := s.off, qual := s.op == some 12,
                complete := false, stop := .fault }
        payBase := (faultPay s).1, payLen := (faultPay s).2
        op := none, parsing := false, savedPay := none }) ∧
    (∀ (k : Variant) (b0 b1 : Byte), s.off.toNat + 2 ≤ s.payLen.toNat →
      s.rxbuf.read (s.payBase.toNat + s.off.toNat) = b0 → s.rxbuf.read (s.payBase.toNat + s.off.toNat + 1) = b1 →
      b0.toNat / 2 = k.code → s.payLen.toNat < s.off.toNat + 2 + (b0.toNat % 2 * 256 + b1.toNat) →
      step s = .next { s with
        duRx := []
        st := { ok := false, cause := .truncPayload, cat := .malformed, tv := true, typ := BitVec.ofNat 7 k.code, off := s.off,
                qual := s.op == some 12, complete := false, stop := .fault }
        payBase := (faultPay s).1, payLen := (faultPay s).2
        op := none, parsing := false, savedPay := none })

/-! ### Encodings -/

/-- R70, R74, R84, R90: decoding an instruction's encoding gives the instruction, for every operand its encoding admits, and leaves
the bytes that follow it in the stream. -/
def Obligations.DecodeOfEncodeIsTheInstruction : Prop :=
  ∀ i : Instr, i.wf = true →
    decode (encode i) = .ok (i, []) ∧ ∀ b rest, encode i = .stream b → decodeTlv (b ++ rest) = .ok (i, rest)

/-- R70, R90: what decodes is the encoding of the instruction it decodes to, so no bit is dropped. -/
def Obligations.EncodeOfDecodeIsTheCode : Prop :=
  (∀ b i rest, decodeTlv b = .ok (i, rest) → i.wf = true ∧ ∃ c, encode i = .stream c ∧ b = c ++ rest) ∧
  (∀ op : BitVec 4, (decodeOp op).wf = true ∧ encode (decodeOp op) = .port op)

/-- R56, R84, R200: bytes are refused only when they are too few: fewer than 2, or fewer than a defined type's header declares. A
header of an undefined type is never refused. -/
def Obligations.DecodeRefusesOnlyTruncation : Prop :=
  (∀ b : Bytes, b.length < 2 → decodeTlv b = .error .truncHeader) ∧
  (∀ (b0 b1 : Byte) (p : Bytes) (k : Variant), b0.toNat / 2 = k.code → p.length < b0.toNat % 2 * 256 + b1.toNat →
    decodeTlv (b0 :: b1 :: p) = .error (.truncPayload k.code)) ∧
  (∀ (b0 b1 : Byte) (p : Bytes) (k : Variant), b0.toNat / 2 = k.code → b0.toNat % 2 * 256 + b1.toNat ≤ p.length →
    ∃ r, decodeTlv (b0 :: b1 :: p) = .ok r) ∧
  (∀ (b0 b1 : Byte) (p : Bytes), 9 ≤ b0.toNat / 2 → b0.toNat / 2 ≤ 126 →
    ∃ i, decodeTlv (b0 :: b1 :: p) = .ok (i, p) ∧ ∀ q, decodeTlv (b0 :: b1 :: q) = .ok (i, q))

/-- R74, R84, R90: words written out from the encoding tables decode to the instructions they stand for. -/
def Obligations.SampleWordsDecode : Prop :=
  decodeTlv [0x06, 0x02, 0x00, 0x3C] = .ok (.ttl [0x00, 0x3C], []) ∧
  decodeTlv [0x0A, 0x03, 0x73, 0x77, 0x31, 0x00] = .ok (.systemName [0x73, 0x77, 0x31], [0x00]) ∧
  decodeTlv [0x00, 0x00] = .ok (.endOfLldpdu [], []) ∧
  decodeTlv [0x13, 0xFF] = .ok (.unknown9 511, []) ∧
  decodeTlv [0xB5, 0x07] = .ok (.unknown64To95 26 263, []) ∧
  decodeOp 0b0101 = .duAppend ∧ decodeOp 0b1100 = .rxFrame ∧ decodeOp 0b1111 = .reservedOp15

/-- R102: the header functions are inverse both ways, and encoding fails above 511. That `hdr_enc` gives back what `hdr_dec` read is
the rule's converse, which the spec derives (from R100 and R101). -/
def Obligations.HeaderFunctionsAreInverse : Prop :=
  (∀ t l : Nat, t ≤ 127 → l ≤ 511 → ∃ b0 b1, hdrEnc t l = some (b0, b1) ∧ hdrDec b0 b1 = (t, l)) ∧
  (∀ t l : Nat, 511 < l → hdrEnc t l = none) ∧
  (∀ b0 b1 : Byte, hdrEnc (hdrDec b0 b1).1 (hdrDec b0 b1).2 = some (b0, b1))

/-! ### TLV values -/

/-- R124: both round-trip laws of the variant codecs. -/
def Obligations.VariantCodecsRoundTrip : Prop :=
  (∀ v : Tlv, v.wf = true → ∃ b, enc v = .ok b ∧ decFrame v.variant b = .ok v) ∧
  (∀ (k : Variant) (b : Bytes) (v : Tlv), decFrame k b = .ok v → enc v = .ok b)

/-- R122: a decoder returns only well-formed values, `enc` is defined exactly on them, and their length fits 9 bits. -/
def Obligations.WellFormedValuesAreThoseEncoded : Prop :=
  (∀ (k : Variant) (b : Bytes) (v : Tlv), decFrame k b = .ok v → v.wf = true) ∧
  (∀ v : Tlv, (∃ b, enc v = .ok b) ↔ v.wf = true) ∧
  (∀ v : Tlv, v.wf = true → tlvLength v ≤ 511)

/-- R123: a byte sequence is accepted as UTF-8 exactly when it is a concatenation of rows of the table. -/
def Obligations.Utf8IsRowsOfTheTable : Prop :=
  ∀ b : Bytes, utf8Ok b = true ↔ ∃ rows : List Bytes, (∀ r ∈ rows, Utf8Row r) ∧ rows.flatten = b

/-- The bytes of every variant on the wire (R70, R74; R133, R137, R141, R145, R148, R151, R155, R162, R167, R171). -/
def Obligations.WireBytesOfEveryVariant : Prop :=
  enc .endOfLldpdu = .ok [0x00, 0x00] ∧
  (∀ m : Bytes, m.length = 6 →
    enc (.chassisId 4 (.mac m)) = .ok (0x02 :: 0x07 :: 0x04 :: m) ∧ enc (.portId 3 (.mac m)) = .ok (0x04 :: 0x07 :: 0x03 :: m)) ∧
  (∀ a : Bytes, a.length = 4 →
    enc (.chassisId 5 (.net 1 a)) = .ok (0x02 :: 0x06 :: 0x05 :: 0x01 :: a) ∧
    enc (.portId 4 (.net 1 a)) = .ok (0x04 :: 0x06 :: 0x04 :: 0x01 :: a)) ∧
  (∀ a : Bytes, a.length = 16 →
    enc (.chassisId 5 (.net 2 a)) = .ok (0x02 :: 0x12 :: 0x05 :: 0x02 :: a) ∧
    enc (.portId 4 (.net 2 a)) = .ok (0x04 :: 0x12 :: 0x04 :: 0x02 :: a)) ∧
  (∀ (sub : Byte) (t : Bytes), 1 ≤ sub → sub ≤ 7 → t.length ≤ 510 → utf8Ok t = true →
    (sub ≠ 4 → sub ≠ 5 →
      enc (.chassisId sub (.text t)) =
        .ok (BitVec.ofNat 8 (2 + (1 + t.length) / 256) :: BitVec.ofNat 8 ((1 + t.length) % 256) :: sub :: t)) ∧
    (sub ≠ 3 → sub ≠ 4 →
      enc (.portId sub (.text t)) =
        .ok (BitVec.ofNat 8 (4 + (1 + t.length) / 256) :: BitVec.ofNat 8 ((1 + t.length) % 256) :: sub :: t))) ∧
  (∀ hi lo : Byte, enc (.ttl (hi ++ lo)) = .ok [0x06, 0x02, hi, lo]) ∧
  (∀ t : Bytes, t.length ≤ 255 → utf8Ok t = true →
    enc (.portDescription t) = .ok (0x08 :: BitVec.ofNat 8 t.length :: t) ∧
    enc (.systemName t) = .ok (0x0A :: BitVec.ofNat 8 t.length :: t) ∧
    enc (.systemDescription t) = .ok (0x0C :: BitVec.ofNat 8 t.length :: t)) ∧
  (∀ a b c d : Byte, (c ++ d) &&& (a ++ b) = c ++ d →
    enc (.systemCapabilities (a ++ b) (c ++ d)) = .ok [0x0E, 0x04, a, b, c, d]) ∧
  (∀ (a oid : Bytes) (ifsub n3 n2 n1 n0 : Byte), 1 ≤ ifsub → ifsub ≤ 3 → oid.length ≤ 128 →
    (a.length = 4 → enc (.managementAddress 1 a ifsub (n3 ++ n2 ++ n1 ++ n0) oid) =
      .ok ([0x10, BitVec.ofNat 8 (12 + oid.length), 0x05, 0x01] ++ a ++ [ifsub, n3, n2, n1, n0, BitVec.ofNat 8 oid.length] ++ oid)) ∧
    (a.length = 16 → enc (.managementAddress 2 a ifsub (n3 ++ n2 ++ n1 ++ n0) oid) =
      .ok ([0x10, BitVec.ofNat 8 (24 + oid.length), 0x11, 0x02] ++ a ++ [ifsub, n3, n2, n1, n0, BitVec.ofNat 8 oid.length] ++ oid))) ∧
  (∀ (o0 o1 o2 sub : Byte) (v : Bytes), v.length ≤ 507 →
    enc (.organizationallySpecific [o0, o1, o2] sub v) =
      .ok (BitVec.ofNat 8 (254 + (4 + v.length) / 256) :: BitVec.ofNat 8 ((4 + v.length) % 256) :: o0 :: o1 :: o2 :: sub :: v))

/-- R23: the record register bank gives back the value written to it, with its type and length, and a field the table does not list
for the variant and the kind of its id value stays unwritten; so do the bytes of `val` at and beyond `vlen`, those of `addr` beyond the
family's length, and those of `oui` beyond its three. That what stays unwritten keeps its content is the model's choice
(assumption 4). -/
def Obligations.RecordHoldsTheValueWritten : Prop :=
  ∀ (v : Tlv) (r : TlvRecord), v.wf = true → r.addr.wf = true → r.oui.wf = true → r.val.wf = true →
    recordValue (recordWrite v r) = some v ∧
    (recordWrite v r).typ.toNat = v.variant.code ∧ (recordWrite v r).len.toNat = tlvLength v ∧
    (v.variant ≠ .ttl → (recordWrite v r).ttl = r.ttl) ∧
    (v.variant ≠ .systemCapabilities → (recordWrite v r).capSup = r.capSup ∧ (recordWrite v r).capEn = r.capEn) ∧
    (v.variant ≠ .managementAddress → (recordWrite v r).ifsub = r.ifsub ∧ (recordWrite v r).ifnum = r.ifnum) ∧
    (v.variant ≠ .organizationallySpecific → (recordWrite v r).oui = r.oui) ∧
    (v.variant ∉ [.chassisId, .portId, .organizationallySpecific] → (recordWrite v r).sub = r.sub) ∧
    (v.variant ∉ [.chassisId, .portId, .managementAddress] → (recordWrite v r).af = r.af ∧ (recordWrite v r).addr = r.addr) ∧
    (v.variant ∈ [.endOfLldpdu, .ttl, .systemCapabilities] → (recordWrite v r).vlen = r.vlen ∧ (recordWrite v r).val = r.val) ∧
    (∀ (sub : Byte) (idv : IdValue), v = .chassisId sub idv ∨ v = .portId sub idv →
      (∀ b, idv = .mac b ∨ idv = .text b → (recordWrite v r).af = r.af ∧ (recordWrite v r).addr = r.addr) ∧
      (∀ af a, idv = .net af a → (recordWrite v r).vlen = r.vlen ∧ (recordWrite v r).val = r.val)) ∧
    (∀ a, (recordWrite v r).vlen.toNat ≤ a → (recordWrite v r).val.read a = r.val.read a) ∧
    (∀ a, 16 ≤ a ∨ ((recordWrite v r).af = 1 ∧ 4 ≤ a) → (recordWrite v r).addr.read a = r.addr.read a) ∧
    (∀ a, 3 ≤ a → (recordWrite v r).oui.read a = r.oui.read a)

/-! ### The TLV instructions

Each says what its TLV step does to any state: the value its payload stands for is appended where `append` takes it and the cursor
moves behind it; a payload the decode rule turns away is a fault, and so is a value `append` does not take. -/

/-- R132, R134, R131: ChassisId, in its three kinds. -/
def Obligations.ChassisIdStep : Prop :=
  ∀ s : State,
    (∀ m : Bytes, m.length = 6 → Accepts s.duRx .chassisId 9 →
      exec (.chassisId (4 :: m)) s =
        .next { s with duRx := s.duRx ++ [.chassisId 4 (.mac m)], off := s.off + 9 }) ∧
    (∀ (af : Byte) (a : Bytes), (af = 1 ∧ a.length = 4) ∨ (af = 2 ∧ a.length = 16) → Accepts s.duRx .chassisId (4 + a.length) →
      exec (.chassisId (5 :: af :: a)) s =
        .next { s with duRx := s.duRx ++ [.chassisId 5 (.net af a)], off := s.off + BitVec.ofNat 11 (4 + a.length) }) ∧
    (∀ (sub : Byte) (t : Bytes), 1 ≤ sub → sub ≤ 7 → sub ≠ 4 → sub ≠ 5 → t.length ≤ 510 → utf8Ok t = true →
      Accepts s.duRx .chassisId (3 + t.length) →
      exec (.chassisId (sub :: t)) s =
        .next { s with duRx := s.duRx ++ [.chassisId sub (.text t)], off := s.off + BitVec.ofNat 11 (3 + t.length) }) ∧
    exec (.chassisId []) s = .next (takeFault .lenRange (some 1) s) ∧
    (∀ (sub : Byte) (r : Bytes), sub < 1 ∨ 7 < sub → exec (.chassisId (sub :: r)) s = .next (takeFault .subtype (some 1) s)) ∧
    (∀ m : Bytes, m.length ≠ 6 → exec (.chassisId (4 :: m)) s = .next (takeFault .lenRange (some 1) s)) ∧
    exec (.chassisId [5]) s = .next (takeFault .lenRange (some 1) s) ∧
    (∀ (af : Byte) (a : Bytes), af ≠ 1 → af ≠ 2 → exec (.chassisId (5 :: af :: a)) s = .next (takeFault .af (some 1) s)) ∧
    (∀ (af : Byte) (a : Bytes), (af = 1 ∧ a.length ≠ 4) ∨ (af = 2 ∧ a.length ≠ 16) →
      exec (.chassisId (5 :: af :: a)) s = .next (takeFault .lenRange (some 1) s)) ∧
    (∀ (sub : Byte) (t : Bytes), 1 ≤ sub → sub ≤ 7 → sub ≠ 4 → sub ≠ 5 → t.length ≤ 510 → utf8Ok t = false →
      exec (.chassisId (sub :: t)) s = .next (takeFault .utf8 (some 1) s))

/-- R136, R134, R131: PortId, in its three kinds. -/
def Obligations.PortIdStep : Prop :=
  ∀ s : State,
    (∀ m : Bytes, m.length = 6 → Accepts s.duRx .portId 9 →
      exec (.portId (3 :: m)) s = .next { s with duRx := s.duRx ++ [.portId 3 (.mac m)], off := s.off + 9 }) ∧
    (∀ (af : Byte) (a : Bytes), (af = 1 ∧ a.length = 4) ∨ (af = 2 ∧ a.length = 16) → Accepts s.duRx .portId (4 + a.length) →
      exec (.portId (4 :: af :: a)) s =
        .next { s with duRx := s.duRx ++ [.portId 4 (.net af a)], off := s.off + BitVec.ofNat 11 (4 + a.length) }) ∧
    (∀ (sub : Byte) (t : Bytes), 1 ≤ sub → sub ≤ 7 → sub ≠ 3 → sub ≠ 4 → t.length ≤ 510 → utf8Ok t = true →
      Accepts s.duRx .portId (3 + t.length) →
      exec (.portId (sub :: t)) s =
        .next { s with duRx := s.duRx ++ [.portId sub (.text t)], off := s.off + BitVec.ofNat 11 (3 + t.length) }) ∧
    exec (.portId []) s = .next (takeFault .lenRange (some 2) s) ∧
    (∀ (sub : Byte) (r : Bytes), sub < 1 ∨ 7 < sub → exec (.portId (sub :: r)) s = .next (takeFault .subtype (some 2) s)) ∧
    (∀ m : Bytes, m.length ≠ 6 → exec (.portId (3 :: m)) s = .next (takeFault .lenRange (some 2) s)) ∧
    exec (.portId [4]) s = .next (takeFault .lenRange (some 2) s) ∧
    (∀ (af : Byte) (a : Bytes), af ≠ 1 → af ≠ 2 → exec (.portId (4 :: af :: a)) s = .next (takeFault .af (some 2) s)) ∧
    (∀ (af : Byte) (a : Bytes), (af = 1 ∧ a.length ≠ 4) ∨ (af = 2 ∧ a.length ≠ 16) →
      exec (.portId (4 :: af :: a)) s = .next (takeFault .lenRange (some 2) s)) ∧
    (∀ (sub : Byte) (t : Bytes), 1 ≤ sub → sub ≤ 7 → sub ≠ 3 → sub ≠ 4 → t.length ≤ 510 → utf8Ok t = false →
      exec (.portId (sub :: t)) s = .next (takeFault .utf8 (some 2) s))

/-- R139, R140: Ttl. -/
def Obligations.TtlStep : Prop :=
  ∀ s : State,
    (∀ hi lo : Byte, Accepts s.duRx .ttl 4 →
      exec (.ttl [hi, lo]) s = .next { s with duRx := s.duRx ++ [.ttl (hi ++ lo)], off := s.off + 4 }) ∧
    (∀ p : Bytes, p.length ≠ 2 → exec (.ttl p) s = .next (takeFault .lenRange (some 3) s))

/-- R143, R144, R147, R150: PortDescription, SystemName and SystemDescription. -/
def Obligations.TextTlvSteps : Prop :=
  ∀ (s : State) (t : Bytes),
    (t.length ≤ 255 → utf8Ok t = true →
      (Accepts s.duRx .portDescription (2 + t.length) → exec (.portDescription t) s =
        .next { s with duRx := s.duRx ++ [.portDescription t], off := s.off + BitVec.ofNat 11 (2 + t.length) }) ∧
      (Accepts s.duRx .systemName (2 + t.length) → exec (.systemName t) s =
        .next { s with duRx := s.duRx ++ [.systemName t], off := s.off + BitVec.ofNat 11 (2 + t.length) }) ∧
      (Accepts s.duRx .systemDescription (2 + t.length) → exec (.systemDescription t) s =
        .next { s with duRx := s.duRx ++ [.systemDescription t], off := s.off + BitVec.ofNat 11 (2 + t.length) })) ∧
    (255 < t.length →
      exec (.portDescription t) s = .next (takeFault .lenRange (some 4) s) ∧
      exec (.systemName t) s = .next (takeFault .lenRange (some 5) s) ∧
      exec (.systemDescription t) s = .next (takeFault .lenRange (some 6) s)) ∧
    (t.length ≤ 255 → utf8Ok t = false →
      exec (.portDescription t) s = .next (takeFault .utf8 (some 4) s) ∧
      exec (.systemName t) s = .next (takeFault .utf8 (some 5) s) ∧
      exec (.systemDescription t) s = .next (takeFault .utf8 (some 6) s))

/-- R152, R153, R154: SystemCapabilities, and the subset law. -/
def Obligations.SystemCapabilitiesStep : Prop :=
  ∀ s : State,
    (∀ a b c d : Byte, (c ++ d) &&& (a ++ b) = c ++ d → Accepts s.duRx .systemCapabilities 6 →
      exec (.systemCapabilities [a, b, c, d]) s =
        .next { s with duRx := s.duRx ++ [.systemCapabilities (a ++ b) (c ++ d)], off := s.off + 6 }) ∧
    (∀ a b c d : Byte, (c ++ d) &&& (a ++ b) ≠ c ++ d →
      exec (.systemCapabilities [a, b, c, d]) s = .next (takeFault .capSubset (some 7) s)) ∧
    (∀ p : Bytes, p.length ≠ 4 → exec (.systemCapabilities p) s = .next (takeFault .lenRange (some 7) s))

/-- R160, R161: ManagementAddress, with every check of its decode rule in order. -/
def Obligations.ManagementAddressStep : Prop :=
  ∀ s : State,
    (∀ (af ifsub n3 n2 n1 n0 : Byte) (a oid : Bytes), (af = 1 ∧ a.length = 4) ∨ (af = 2 ∧ a.length = 16) → 1 ≤ ifsub → ifsub ≤ 3 →
      oid.length ≤ 128 → Accepts s.duRx .managementAddress (10 + a.length + oid.length) →
      exec (.managementAddress ([BitVec.ofNat 8 (1 + a.length), af] ++ a ++ [ifsub, n3, n2, n1, n0, BitVec.ofNat 8 oid.length] ++ oid)) s =
        .next { s with duRx := s.duRx ++ [.managementAddress af a ifsub (n3 ++ n2 ++ n1 ++ n0) oid],
                       off := s.off + BitVec.ofNat 11 (10 + a.length + oid.length) }) ∧
    exec (.managementAddress []) s = .next (takeFault .truncPayload (some 8) s) ∧
    (∀ (p : Bytes) (sl ol : Nat), 1 ≤ p.length → sl = (p.getD 0 0).toNat → ol = (p.getD (sl + 6) 0).toNat →
      (p.length < sl + 7 → exec (.managementAddress p) s = .next (takeFault .truncPayload (some 8) s)) ∧
      (sl + 7 ≤ p.length → p.length < sl + 7 + ol → exec (.managementAddress p) s = .next (takeFault .truncPayload (some 8) s)) ∧
      (sl + 7 + ol < p.length → exec (.managementAddress p) s = .next (takeFault .trailing (some 8) s)) ∧
      (p.length = sl + 7 + ol → sl = 0 → exec (.managementAddress p) s = .next (takeFault .lenRange (some 8) s)) ∧
      (p.length = sl + 7 + ol → 1 ≤ sl → p.getD 1 0 ≠ 1 → p.getD 1 0 ≠ 2 →
        exec (.managementAddress p) s = .next (takeFault .af (some 8) s)) ∧
      (p.length = sl + 7 + ol → 1 ≤ sl → (p.getD 1 0 = 1 ∧ sl ≠ 5) ∨ (p.getD 1 0 = 2 ∧ sl ≠ 17) →
        exec (.managementAddress p) s = .next (takeFault .lenRange (some 8) s)) ∧
      (p.length = sl + 7 + ol → (p.getD 1 0 = 1 ∧ sl = 5) ∨ (p.getD 1 0 = 2 ∧ sl = 17) → 128 < ol →
        exec (.managementAddress p) s = .next (takeFault .lenRange (some 8) s)) ∧
      (p.length = sl + 7 + ol → (p.getD 1 0 = 1 ∧ sl = 5) ∨ (p.getD 1 0 = 2 ∧ sl = 17) → ol ≤ 128 →
        p.getD (sl + 1) 0 < 1 ∨ 3 < p.getD (sl + 1) 0 →
        exec (.managementAddress p) s = .next (takeFault .subtype (some 8) s)))

/-- R165, R166: OrganizationallySpecific, whose content is not interpreted. -/
def Obligations.OrganizationallySpecificStep : Prop :=
  ∀ s : State,
    (∀ (o0 o1 o2 sub : Byte) (v : Bytes), v.length ≤ 507 → Accepts s.duRx .organizationallySpecific (6 + v.length) →
      exec (.organizationallySpecific (o0 :: o1 :: o2 :: sub :: v)) s =
        .next { s with duRx := s.duRx ++ [.organizationallySpecific [o0, o1, o2] sub v],
                       off := s.off + BitVec.ofNat 11 (6 + v.length) }) ∧
    (∀ p : Bytes, p.length < 4 → exec (.organizationallySpecific p) s = .next (takeFault .lenRange (some 127) s))

/-- R170, R200, R201: EndOfLLDPDU is appended and stops the parse; a payload byte is a fault. -/
def Obligations.EndOfLldpduStep : Prop :=
  ∀ s : State,
    (Accepts s.duRx .endOfLldpdu 2 →
      exec (.endOfLldpdu []) s = .next { s with
        duRx := s.duRx ++ [.endOfLldpdu]
        off := s.off + 2
        st := { ok := true, cause := .ok, cat := .none, tv := false, typ := 0, off := 0, qual := s.op == some 12,
                complete := duComplete (s.duRx ++ [.endOfLldpdu]), stop := .endTlv }
        op := none, parsing := false, savedPay := none }) ∧
    (∀ p : Bytes, p ≠ [] → exec (.endOfLldpdu p) s = .next (takeFault .lenRange (some 0) s))

/-- R84: every undefined type code faults `E_UNKNOWN_TYPE` from its header alone, whatever the length field says. -/
def Obligations.UndefinedTypesFault : Prop :=
  ∀ (s : State) (len : BitVec 9), s.parsing = true →
    let fault (t : Nat) : State := { s with
      duRx := []
      st := { ok := false, cause := .unknownType, cat := .unknownType, tv := true, typ := BitVec.ofNat 7 t, off := s.off,
              qual := s.op == some 12, complete := false, stop := .fault }
      payBase := (faultPay s).1, payLen := (faultPay s).2
      op := none, parsing := false, savedPay := none }
    exec (.unknown9 len) s = .next (fault 9) ∧
    (∀ x, exec (.unknown10To11 x len) s = .next (fault (10 + x.toNat))) ∧
    (∀ x, exec (.unknown12To15 x len) s = .next (fault (12 + x.toNat))) ∧
    (∀ x, exec (.unknown16To31 x len) s = .next (fault (16 + x.toNat))) ∧
    (∀ x, exec (.unknown32To63 x len) s = .next (fault (32 + x.toNat))) ∧
    (∀ x, exec (.unknown64To95 x len) s = .next (fault (64 + x.toNat))) ∧
    (∀ x, exec (.unknown96To111 x len) s = .next (fault (96 + x.toNat))) ∧
    (∀ x, exec (.unknown112To119 x len) s = .next (fault (112 + x.toNat))) ∧
    (∀ x, exec (.unknown120To123 x len) s = .next (fault (120 + x.toNat))) ∧
    (∀ x, exec (.unknown124To125 x len) s = .next (fault (124 + x.toNat))) ∧
    exec (.unknown126 len) s = .next (fault 126)

/-- R186, R200, R250: a TLV whose payload decodes but which `append` does not take faults with the ordering or the size cause, the
end test before the position test before the size test. -/
def Obligations.TlvStepOrderingFaults : Prop :=
  ∀ (s : State) (k : Variant) (p : Bytes) (v : Tlv), pdec k p = .ok v →
    (duHasEnd s.duRx = true → k = .endOfLldpdu →
      exec (k.instr p) s = .next (takeFault .ordEndDup (some (variantTyp k)) s)) ∧
    (duHasEnd s.duRx = true → k ≠ .endOfLldpdu →
      exec (k.instr p) s = .next (takeFault .ordAfterEnd (some (variantTyp k)) s)) ∧
    (duHasEnd s.duRx = false → ¬ mayStandAt k s.duRx.length → k ∈ [.chassisId, .portId, .ttl] →
      exec (k.instr p) s = .next (takeFault .ordPosition (some (variantTyp k)) s)) ∧
    (duHasEnd s.duRx = false → ¬ mayStandAt k s.duRx.length → k ∉ [.chassisId, .portId, .ttl] →
      exec (k.instr p) s = .next (takeFault .ordTriple (some (variantTyp k)) s)) ∧
    (duHasEnd s.duRx = false → mayStandAt k s.duRx.length → 1500 < duLen s.duRx + (2 + p.length) →
      exec (k.instr p) s = .next (takeFault .size (some (variantTyp k)) s))

/-- R245, R202: what taking a fault writes, inside a TLV step and outside one; all other state keeps the value it has. What the fault of
an RX.FRAME leaves in the descriptor is open between the one it found (R245) and the one it has written (R292), as the implementation
has it (assumption 18). -/
def Obligations.FaultEntryWrites : Prop :=
  ∀ (c : Cause) (t : Option (BitVec 7)) (s : State),
    (s.parsing = true → takeFault c t s = { s with
      duRx := []
      st := { ok := false, cause := c, cat := c.category, tv := t.isSome, typ := t.getD 0, off := s.off, qual := s.op == some 12,
              complete := false, stop := .fault }
      payBase := (faultPay s).1, payLen := (faultPay s).2
      op := none, parsing := false, savedPay := none }) ∧
    (s.savedPay = none → faultPay s = (s.payBase, s.payLen)) ∧
    (∀ start, s.savedPay = some start →
      faultPay s = if Config.rxFaultRestoresPay = true then start else (s.payBase, s.payLen)) ∧
    (s.parsing = false → takeFault c t s = { s with
      st := { ok := false, cause := c, cat := c.category, tv := t.isSome, typ := t.getD 0, off := 0, qual := false,
              complete := false, stop := .notParsed }
      op := none, parsing := false })

/-! ### The codec operations -/

/-- R104: HDR.ENC, operation code 0, writes the two header bytes, which read back so, or faults when an operand is outside its domain.
The bytes beyond keep their content because `MemWrite` writes only its own (R13); 93 U5 promises nothing of them (assumption 5). -/
def Obligations.HdrEncResult : Prop :=
  encode .hdrEnc = .port 0 ∧ decodeOp 0 = .hdrEnc ∧ ∀ s : State,
    (s.htype.toNat ≤ 127 → s.hlen.toNat ≤ 511 →
      exec .hdrEnc s = .next { s with
        tlvbuf := (s.tlvbuf.write 0 (BitVec.ofNat 8 (s.htype.toNat * 2 + s.hlen.toNat / 256))).write 1
          (BitVec.ofNat 8 (s.hlen.toNat % 256))
        tlvLen := 2, st := statusOk, op := none, parsing := false }) ∧
    (s.htype.toNat ≤ 127 → s.hlen.toNat ≤ 511 → s.tlvbuf.wf = true → ∃ t, exec .hdrEnc s = .next t ∧
      (t.tlvbuf.read 0).toNat = s.htype.toNat * 2 + s.hlen.toNat / 256 ∧ (t.tlvbuf.read 1).toNat = s.hlen.toNat % 256 ∧
      ∀ a, 2 ≤ a → t.tlvbuf.read a = s.tlvbuf.read a) ∧
    (511 < s.hlen.toNat ∨ 127 < s.htype.toNat → exec .hdrEnc s = .next (takeFault .hdrRange none s))

/-- R105: HDR.DEC, operation code 1, splits the first two bytes of `TLVBUF`, or faults when they are not both valid. -/
def Obligations.HdrDecResult : Prop :=
  encode .hdrDec = .port 1 ∧ decodeOp 1 = .hdrDec ∧ ∀ s : State,
    (2 ≤ s.tlvLen.toNat →
      exec .hdrDec s = .next { s with
        htype := BitVec.ofNat 8 ((s.tlvbuf.read 0).toNat / 2)
        hlen := BitVec.ofNat 16 ((s.tlvbuf.read 0).toNat % 2 * 256 + (s.tlvbuf.read 1).toNat)
        st := statusOk, op := none, parsing := false }) ∧
    (s.tlvLen.toNat < 2 → exec .hdrDec s = .next (takeFault .truncHdr none s))

/-- R126: TLV.ENC writes the encoding of the value in `REC` into `TLVBUF` from byte 0 on, and no byte beyond it. The bytes
beyond keep their content because `MemWrite` writes only its own (R13); 93 U5 promises nothing of them (assumption 5). -/
def Obligations.TlvEncResult : Prop :=
  ∀ (s : State) (v : Tlv), recordValue s.tlvRec = some v → v.wf = true →
    ∃ t, exec .tlvEnc s = .next t ∧
      t = { s with tlvbuf := t.tlvbuf, tlvLen := BitVec.ofNat 10 (2 + tlvLength v), st := statusOk, op := none, parsing := false } ∧
      (s.tlvbuf.wf = true → enc v = .ok (t.tlvbuf.readN 0 t.tlvLen.toNat) ∧
        ∀ a, t.tlvLen.toNat ≤ a → t.tlvbuf.read a = s.tlvbuf.read a)

/-- R125, R126, R187: a record its variant's encode rule turns away faults with the rule's cause and `REC.type`, in TLV.ENC and in
DU.APPEND alike. -/
def Obligations.RecordFaultsOfEncodeAndAppend : Prop :=
  ∀ (s : State) (c : Cause), RecordFault s.tlvRec c →
    exec .tlvEnc s = .next (takeFault c (some s.tlvRec.typ) s) ∧ exec .duAppend s = .next (takeFault c (some s.tlvRec.typ) s)

/-- R127: TLV.DEC of the exact bytes of a well-formed value writes it into `REC`. -/
def Obligations.TlvDecResult : Prop :=
  ∀ (s : State) (v : Tlv), v.wf = true → s.expect.toNat = v.variant.code → s.tlvLen.toNat ≤ Config.tlvCap →
    enc v = .ok (s.tlvbuf.readN 0 s.tlvLen.toNat) →
    exec .tlvDec s = .next { s with tlvRec := recordWrite v s.tlvRec, st := statusOk, op := none, parsing := false }

/-- R121, R127: the faults of TLV.DEC, in the order of its checks; `REC` is unchanged in each. -/
def Obligations.TlvDecFaults : Prop :=
  ∀ s : State, s.tlvLen.toNat ≤ Config.tlvCap →
    (9 ≤ s.expect.toNat → s.expect.toNat ≤ 126 → exec .tlvDec s = .next (takeFault .illegalOp none s)) ∧
    (∀ (k : Variant) (t l : Nat), s.expect.toNat = k.code → t = (s.tlvbuf.read 0).toNat / 2 →
      l = (s.tlvbuf.read 0).toNat % 2 * 256 + (s.tlvbuf.read 1).toNat →
      (s.tlvLen.toNat < 2 → exec .tlvDec s = .next (takeFault .truncHdr none s)) ∧
      (2 ≤ s.tlvLen.toNat → t ≠ k.code → exec .tlvDec s = .next (takeFault .unexpectedType (some (BitVec.ofNat 7 t)) s)) ∧
      (2 ≤ s.tlvLen.toNat → t = k.code → s.tlvLen.toNat < 2 + l →
        exec .tlvDec s = .next (takeFault .truncPayload (some (BitVec.ofNat 7 t)) s)) ∧
      (t = k.code → 2 + l < s.tlvLen.toNat → exec .tlvDec s = .next (takeFault .trailing (some (BitVec.ofNat 7 t)) s)) ∧
      (∀ c, t = k.code → s.tlvLen.toNat = 2 + l → pdec k (s.tlvbuf.readN 2 l) = .error c →
        exec .tlvDec s = .next (takeFault c (some (BitVec.ofNat 7 t)) s)))

/-! ### The container operations -/

/-- R180: DU.NEW empties the selected container, and only that one. -/
def Obligations.DuNewResult : Prop :=
  ∀ s : State,
    (s.sel = 0 → exec .duNew s = .next { s with duRx := [], st := statusOk, op := none, parsing := false }) ∧
    (s.sel = 1 → exec .duNew s = .next { s with duTx := [], st := statusOk, op := none, parsing := false })

/-- R187: DU.APPEND adds the value in `REC` at the end of `DU_TX` when it is well-formed and `append` takes it, and otherwise faults
with `append`'s cause. -/
def Obligations.DuAppendResult : Prop :=
  ∀ (s : State) (v : Tlv), recordValue s.tlvRec = some v → v.wf = true →
    (Accepts s.duTx v.variant (2 + tlvLength v) →
      exec .duAppend s = .next { s with duTx := s.duTx ++ [v], st := statusOk, op := none, parsing := false }) ∧
    (duHasEnd s.duTx = true → v = .endOfLldpdu → exec .duAppend s = .next (takeFault .ordEndDup (some s.tlvRec.typ) s)) ∧
    (duHasEnd s.duTx = true → v ≠ .endOfLldpdu → exec .duAppend s = .next (takeFault .ordAfterEnd (some s.tlvRec.typ) s)) ∧
    (duHasEnd s.duTx = false → ¬ mayStandAt v.variant s.duTx.length → v.variant ∈ [.chassisId, .portId, .ttl] →
      exec .duAppend s = .next (takeFault .ordPosition (some s.tlvRec.typ) s)) ∧
    (duHasEnd s.duTx = false → ¬ mayStandAt v.variant s.duTx.length → v.variant ∉ [.chassisId, .portId, .ttl] →
      exec .duAppend s = .next (takeFault .ordTriple (some s.tlvRec.typ) s)) ∧
    (duHasEnd s.duTx = false → mayStandAt v.variant s.duTx.length → 1500 < duLen s.duTx + (2 + tlvLength v) →
      exec .duAppend s = .next (takeFault .size (some s.tlvRec.typ) s))

/-- R190, R191: DU.SER writes the selected container's bytes into `TXBUF` from byte 0 on, complete or not, and no byte beyond them;
the container is unchanged. The bytes
beyond keep their content because `MemWrite` writes only its own (R13); 93 U5 promises nothing of them (assumption 5). -/
def Obligations.DuSerResult : Prop :=
  ∀ s : State, duLen (if s.sel = 0 then s.duRx else s.duTx) ≤ 1500 →
    ∃ t, exec .duSer s = .next t ∧
      t = { s with txbuf := t.txbuf, txLen := BitVec.ofNat 16 (duLen (if s.sel = 0 then s.duRx else s.duTx)), st := statusOk,
                   op := none, parsing := false } ∧
      (s.txbuf.wf = true →
        t.txbuf.readN 0 t.txLen.toNat = ((if s.sel = 0 then s.duRx else s.duTx).map encBytes).flatten ∧
        ∀ a, t.txLen.toNat ≤ a → t.txbuf.read a = s.txbuf.read a)

/-- R201: DU.PARSE begins a parse of its slice with an empty `DU_RX` at offset 0, or faults when the slice is not inside the valid
bytes, with `DU_RX` and `OFF` unchanged. -/
def Obligations.DuParseBegins : Prop :=
  ∀ s : State, s.parsing = false →
    (s.payBase.toNat + s.payLen.toNat ≤ s.rxLen.toNat → exec .duParse s = .next { s with duRx := [], off := 0, parsing := true }) ∧
    (s.rxLen.toNat < s.payBase.toNat + s.payLen.toNat →
      exec .duParse s = .next { s with
        st := { ok := false, cause := .illegalOp, cat := .illegalOp, tv := false, typ := 0, off := 0, qual := false,
                complete := false, stop := .notParsed }
        op := none })

/-- R195, R196: DU.COMPLETE reports the fourfold check of the selected container. -/
def Obligations.DuCompleteResult : Prop :=
  ∀ s : State, ∃ b : Bool,
    exec .duComplete s = .next { s with st := { statusOk with complete := b }, op := none, parsing := false } ∧
    (b = true ↔ ∃ du, du = (if s.sel = 0 then s.duRx else s.duTx) ∧ 4 ≤ du.length ∧ kindAt du 0 = some .chassisId ∧
      kindAt du 1 = some .portId ∧ kindAt du 2 = some .ttl ∧ kindAt du (du.length - 1) = some .endOfLldpdu)

/-- R198: DU.GET writes the element at `IDX` into `REC`, or faults beyond the last one. -/
def Obligations.DuGetResult : Prop :=
  ∀ s : State,
    (∀ v, (if s.sel = 0 then s.duRx else s.duTx)[s.idx.toNat]? = some v →
      exec .duGet s = .next { s with tlvRec := recordWrite v s.tlvRec, st := statusOk, op := none, parsing := false }) ∧
    ((if s.sel = 0 then s.duRx else s.duTx).length ≤ s.idx.toNat → exec .duGet s = .next (takeFault .illegalOp none s))

/-- R188: a container got by `append` alone satisfies the seven invariants, which the spec derives from R186. -/
def Obligations.ReachableContainersAreOrdered : Prop := ∀ du : List Tlv, DuReachable du → DuOrdered du

/-- R189: a reachable container begins with ChassisId, PortId, Ttl, as far as it goes, and behind them stand optional TLVs, the last
of which alone may be an EndOfLLDPDU instead. -/
def Obligations.ReachableContainersBeginWithTheTriple : Prop :=
  ∀ du : List Tlv, DuReachable du →
    (∀ i, i < du.length → (i = 0 → kindAt du i = some .chassisId) ∧ (i = 1 → kindAt du i = some .portId) ∧
      (i = 2 → kindAt du i = some .ttl)) ∧
    (∀ i t, du[i]? = some t → 3 ≤ i → t.cls = .optional ∨ (t = .endOfLldpdu ∧ i + 1 = du.length))

/-- R195: for a reachable container the fourfold check equals `has_end`. -/
def Obligations.ReachableCompletenessIsHasEnd : Prop := ∀ du : List Tlv, DuReachable du → duComplete du = duHasEnd du

/-- R205: parsing the serialization of a reachable container ends without fault with that container, at its end, by END or
exhaustion. -/
def Obligations.ParseOfSerializeIsTheContainer : Prop :=
  ∀ (s : State) (du : List Tlv), DuReachable du → s.parsing = true → s.op = some 7 ∨ s.op = some 12 → NoReset s →
    s.duRx = [] → s.off = 0 → s.payBase.toNat + s.payLen.toNat ≤ s.rxLen.toNat → s.rxLen.toNat ≤ Config.rxCap →
    s.rxbuf.readN s.payBase.toNat s.payLen.toNat = serialize du →
    ∃ k t, Host.Core.run Sys2Proof.core k s = .next t ∧ t.parsing = false ∧ t.st.ok = true ∧ t.duRx = du ∧
      t.off.toNat = duLen du ∧ t.st.complete = duHasEnd du ∧
      t.st.stop = (if duHasEnd du = true then .endTlv else .exhausted)

/-- R205, R202: when a parse has ended without fault, the bytes it consumed are the serialization of `DU_RX`; when it has ended with
one, `DU_RX` is empty. -/
def Obligations.SerializeOfParseIsTheBytesConsumed : Prop :=
  ∀ (s t : State) (k : Nat), s.parsing = true → s.duRx = [] → s.off = 0 → s.inputs = [] →
    Host.Core.run Sys2Proof.core k s = .next t → t.parsing = false →
    (t.st.ok = true → serialize t.duRx = s.rxbuf.readN s.payBase.toNat t.off.toNat) ∧ (t.st.ok = false → t.duRx = [])

/-! ### The envelope operations -/

/-- R220: which frames qualify. -/
def Obligations.QualifyingFrames : Prop :=
  ∀ f mac : Bytes, qualifies f mac = true ↔
    14 ≤ f.length ∧ f.getD 12 0 = 0x88 ∧ f.getD 13 0 = 0xCC ∧
    (f.take 6 = [0x01, 0x80, 0xC2, 0x00, 0x00, 0x00] ∨ f.take 6 = [0x01, 0x80, 0xC2, 0x00, 0x00, 0x03] ∨
      f.take 6 = [0x01, 0x80, 0xC2, 0x00, 0x00, 0x0E]) ∧
    (f.drop 6).take 6 ≠ mac

/-- R222: ENV.CLASSIFY writes the payload descriptor and `ST.qual`, and never faults. -/
def Obligations.EnvClassifyResult : Prop :=
  ∀ s : State, s.rxLen.toNat ≤ Config.rxCap →
    (qualifies (s.rxbuf.readN 0 s.rxLen.toNat) (s.localMac.readN 0 6) = true →
      exec .envClassify s = .next { s with
        payBase := 14, payLen := BitVec.ofNat 16 (s.rxLen.toNat - 14), st := { statusOk with qual := true }, op := none,
        parsing := false }) ∧
    (qualifies (s.rxbuf.readN 0 s.rxLen.toNat) (s.localMac.readN 0 6) = false →
      exec .envClassify s = .next { s with payBase := 0, payLen := 0, st := statusOk, op := none, parsing := false })

/-- R226, R227: ENV.BUILD writes the envelope and `DU_TX`'s bytes into `TXBUF`, complete or not; the frame qualifies at exactly the
stations with another `LOCAL_MAC`; `DST_SEL = 3` is a fault. The bytes
beyond keep their content because `MemWrite` writes only its own (R13); 93 U5 promises nothing of them (assumption 5). -/
def Obligations.EnvBuildResult : Prop :=
  ∀ s : State, duLen s.duTx ≤ 1500 →
    (s.dstSel ≠ 3 →
      ∃ (t : State) (last : Byte), exec .envBuild s = .next t ∧
        (s.dstSel = 0 ∧ last = 0x00 ∨ s.dstSel = 1 ∧ last = 0x03 ∨ s.dstSel = 2 ∧ last = 0x0E) ∧
        t = { s with txbuf := t.txbuf, txLen := BitVec.ofNat 16 (14 + duLen s.duTx),
                     st := { statusOk with complete := duComplete s.duTx }, op := none, parsing := false } ∧
        (s.txbuf.wf = true →
          t.txbuf.readN 0 t.txLen.toNat =
            [0x01, 0x80, 0xC2, 0x00, 0x00, last] ++ s.localMac.readN 0 6 ++ [0x88, 0xCC] ++ (s.duTx.map encBytes).flatten ∧
          (∀ a, t.txLen.toNat ≤ a → t.txbuf.read a = s.txbuf.read a) ∧
          ∀ mac : Bytes, qualifies (t.txbuf.readN 0 t.txLen.toNat) mac = true ↔ mac ≠ s.localMac.readN 0 6)) ∧
    (s.dstSel = 3 → exec .envBuild s = .next (takeFault .illegalOp none s))

/-- R230: RX.FRAME classifies, and begins the parse of a frame that qualifies; one that does not empties `DU_RX` and is no fault. The
state in which the parse has begun is the model's own, inside an operation the spec calls atomic (assumption 7);
`RxFrameRunsToItsEnd` says where the operation ends. -/
def Obligations.RxFrameResult : Prop :=
  ∀ s : State, s.rxLen.toNat ≤ Config.rxCap → s.parsing = false →
    (qualifies (s.rxbuf.readN 0 s.rxLen.toNat) (s.localMac.readN 0 6) = true →
      exec .rxFrame s = .next { s with
        payBase := 14, payLen := BitVec.ofNat 16 (s.rxLen.toNat - 14), duRx := [], off := 0, parsing := true
        savedPay := some (s.payBase, s.payLen) }) ∧
    (qualifies (s.rxbuf.readN 0 s.rxLen.toNat) (s.localMac.readN 0 6) = false →
      exec .rxFrame s = .next { s with payBase := 0, payLen := 0, duRx := [], off := 0, st := statusOk, op := none })

/-- R230, R245, R292: RX.FRAME of a frame that qualifies runs to its end, and nothing but the descriptor, `DU_RX`, `OFF` and `ST`
differs then; `ST.qual` is 1. Without a fault the descriptor is the one it wrote; with a fault it is the one it found (R245) or the one it
wrote (R292), as the implementation has it: that the model leaves this open is its own choice (assumption 18). -/
def Obligations.RxFrameRunsToItsEnd : Prop :=
  ∀ s : State, Inv s → NoReset s → s.parsing = false → s.op = some 12 →
    qualifies (s.rxbuf.readN 0 s.rxLen.toNat) (s.localMac.readN 0 6) = true →
    ∃ k t, k ≤ 751 ∧ Host.Core.run Sys2Proof.core k s = .next t ∧
      t = { s with payBase := t.payBase, payLen := t.payLen, duRx := t.duRx, off := t.off, st := t.st, op := none } ∧
      t.st.qual = true ∧
      (t.st.ok = true → t.payBase = 14 ∧ t.payLen.toNat = s.rxLen.toNat - 14 ∧ t.st.complete = duComplete t.duRx ∧ t.st.off = 0 ∧
        (t.st.stop = .endTlv ∨ t.st.stop = .exhausted)) ∧
      (t.st.ok = false → (t.payBase, t.payLen) = (if Config.rxFaultRestoresPay = true then (s.payBase, s.payLen)
          else (14, BitVec.ofNat 16 (s.rxLen.toNat - 14))) ∧ t.duRx = [] ∧ t.st.off = t.off ∧ t.st.stop = .fault ∧
        t.st.complete = false)

/-- R92: starting a reserved operation changes nothing but `ST`, which says `E_ILLEGAL_OP`. -/
def Obligations.ReservedOperationsFault : Prop :=
  ∀ s : State, s.parsing = false →
    let t : State := { s with
      st := { ok := false, cause := .illegalOp, cat := .illegalOp, tv := false, typ := 0, off := 0, qual := false, complete := false,
              stop := .notParsed }
      op := none }
    exec .reservedOp13 s = .next t ∧ exec .reservedOp14 s = .next t ∧ exec .reservedOp15 s = .next t

/-! ### The whole machine -/

/-- R243: an instruction that ends its operation with a fault reports one of the causes the table lists for it. -/
def Obligations.FaultCausesAreThoseListed : Prop :=
  ∀ (i : Instr) (s t : State), s.op ≠ none → (isTlv i = true → duHasEnd s.duRx = false) → exec i s = .next t → t.op = none →
    t.st.ok = true ∨ t.st.cause ∈ raisable i

/-- R91, R27, R31, R245, R246: what each instruction may write. The control registers, `LOCAL_MAC` and `RXBUF` are written by none,
`DU_TX` and the output spaces by none on the receive side; the descriptor by ENV.CLASSIFY and RX.FRAME, and by a fault inside an
RX.FRAME's parse, which may put back the one kept (assumption 18). -/
def Obligations.InstructionsWriteOnlyTheirResults : Prop :=
  ∀ (i : Instr) (s t : State), exec i s = .next t →
    t.localMac = s.localMac ∧ t.dstSel = s.dstSel ∧ t.expect = s.expect ∧ t.sel = s.sel ∧ t.idx = s.idx ∧
    t.rxbuf = s.rxbuf ∧ t.rxLen = s.rxLen ∧ t.inputs = s.inputs ∧
    (i ≠ .hdrDec → t.htype = s.htype ∧ t.hlen = s.hlen) ∧
    (i ∉ [.tlvDec, .duGet] → t.tlvRec = s.tlvRec) ∧
    (i ∉ [.hdrEnc, .tlvEnc] → t.tlvbuf = s.tlvbuf ∧ t.tlvLen = s.tlvLen) ∧
    (i ∉ [.duSer, .envBuild] → t.txbuf = s.txbuf ∧ t.txLen = s.txLen) ∧
    (i ∉ [.envClassify, .rxFrame] → t.payBase = s.payBase ∧ t.payLen = s.payLen ∨
      s.parsing = true ∧ t.st.ok = false ∧ s.savedPay = some (t.payBase, t.payLen)) ∧
    (isTlv i = false → s.parsing = false → i ≠ .rxFrame → t.savedPay = s.savedPay) ∧
    (i ∉ [.duNew, .duAppend] → t.duTx = s.duTx) ∧
    (isTlv i = false → i ∉ [.duParse, .rxFrame] → t.off = s.off) ∧
    (isTlv i = false → s.parsing = false → i ∉ [.duNew, .duParse, .rxFrame] → t.duRx = s.duRx)

/-- R30: the fields of STATUS stand in the bits the rule gives them. -/
def Obligations.StatusWordLayout : Prop :=
  ∀ st : Status,
    st.word.extractLsb' 0 1 = BitVec.ofBool st.ok ∧ st.word.extractLsb' 1 5 = st.cause.code ∧
    st.word.extractLsb' 6 3 = st.cat.code ∧ st.word.extractLsb' 9 1 = BitVec.ofBool st.tv ∧ st.word.extractLsb' 10 7 = st.typ ∧
    st.word.extractLsb' 17 11 = st.off ∧ st.word.extractLsb' 28 1 = BitVec.ofBool st.qual ∧
    st.word.extractLsb' 29 1 = BitVec.ofBool st.complete ∧ st.word.extractLsb' 30 2 = st.stop.code

/-- R240, R241, R30: the numbers of the causes, the categories and the stop reasons, and the category of every cause. -/
def Obligations.StatusCodes : Prop :=
  (let rows : List (Cause × BitVec 5 × Category) :=
    [(.ok, 0, .none), (.truncHdr, 1, .malformed), (.truncPayload, 2, .malformed), (.trailing, 3, .malformed),
     (.lenRange, 4, .malformed), (.subtype, 5, .malformed), (.af, 6, .malformed), (.utf8, 7, .malformed),
     (.hdrRange, 8, .malformed), (.unknownType, 9, .unknownType), (.unexpectedType, 10, .unexpectedType),
     (.ordPosition, 11, .ordering), (.ordTriple, 12, .ordering), (.ordEndDup, 13, .ordering), (.ordAfterEnd, 14, .ordering),
     (.capSubset, 15, .semantic), (.size, 16, .size), (.illegalOp, 17, .illegalOp)];
    ∀ c : Cause, (c, c.code, c.category) ∈ rows) ∧
  Category.none.code = 0 ∧ Category.malformed.code = 1 ∧ Category.unknownType.code = 2 ∧ Category.ordering.code = 3 ∧
  Category.semantic.code = 4 ∧ Category.size.code = 5 ∧ Category.unexpectedType.code = 6 ∧ Category.illegalOp.code = 7 ∧
  Stop.notParsed.code = 0 ∧ Stop.endTlv.code = 1 ∧ Stop.exhausted.code = 2 ∧ Stop.fault.code = 3

/-- R280, R281: a reset, even inside an operation, leaves the reset state and nothing of the operation. Which of the host's acts come
next is no state of the block (assumption 1). The values the reset state gives `REC`, `HTYPE`, `HLEN` and `LOCAL_MAC` are the model's
own (assumptions 2, 3); the statement says only that they are the reset state's. -/
def Obligations.ResetAbandonsTheOperation : Prop :=
  ∀ (s : State) (rest : List HostInput), s.inputs = .reset :: rest → step s = .next { State.reset with inputs := rest }

/-- R287, R20, R31, R33: while an operation runs the host waits: a step of a running operation takes no input but a reset, and changes
no register or buffer that only the host writes. That the host waits is the model's reading of its obligation (assumption 10). -/
def Obligations.HostWaitsForTheOperation : Prop :=
  ∀ s t : State, NoReset s → s.parsing = true ∨ s.op ≠ none → step s = .next t →
    t.inputs = s.inputs ∧ t.localMac = s.localMac ∧ t.dstSel = s.dstSel ∧ t.expect = s.expect ∧ t.sel = s.sel ∧ t.idx = s.idx ∧
    t.rxbuf = s.rxbuf ∧ t.rxLen = s.rxLen

/-- R20, R31, R33: an idle block takes the host's next input, which writes its one register or byte and has no side effect. That a byte
address the space does not have stops the model, and that a length above the capacity is refused, is assumption 11 (R33, 93 U6). -/
def Obligations.HostInputsWriteTheirRegister : Prop :=
  ∀ (s : State) (a : HostInput) (rest : List HostInput), s.inputs = a :: rest → s.parsing = false → s.op = none →
    (∀ op, a = .start op → step s = .next { s with inputs := rest, op := some op }) ∧
    (∀ w, a = .writeRecord w → step s = .next { s with inputs := rest, tlvRec := writeRecord w s.tlvRec }) ∧
    (∀ v, a = .writeHtype v → step s = .next { s with inputs := rest, htype := v }) ∧
    (∀ v, a = .writeHlen v → step s = .next { s with inputs := rest, hlen := v }) ∧
    (∀ i v, a = .writeLocalMac i v → step s = .next { s with inputs := rest, localMac := s.localMac.write i.val v } ∧
      (s.localMac.wf = true → ByteWritten i.val v s.localMac (s.localMac.write i.val v))) ∧
    (∀ v, a = .writeDstSel v → step s = .next { s with inputs := rest, dstSel := v }) ∧
    (∀ v, a = .writeExpect v → step s = .next { s with inputs := rest, expect := v }) ∧
    (∀ v, a = .writeSel v → step s = .next { s with inputs := rest, sel := v }) ∧
    (∀ v, a = .writeIdx v → step s = .next { s with inputs := rest, idx := v }) ∧
    (∀ v, a = .writePayBase v → step s = .next { s with inputs := rest, payBase := v }) ∧
    (∀ v, a = .writePayLen v → step s = .next { s with inputs := rest, payLen := v }) ∧
    (∀ x v, a = .writeRxByte x v →
      (x < Config.rxCap → step s = .next { s with inputs := rest, rxbuf := s.rxbuf.write x v } ∧
        (s.rxbuf.wf = true → ByteWritten x v s.rxbuf (s.rxbuf.write x v))) ∧
      (Config.rxCap ≤ x → step s = .fault (.noSuchAddress .rxbuf))) ∧
    (∀ v, a = .writeRxLen v →
      (v.toNat ≤ Config.rxCap → step s = .next { s with inputs := rest, rxLen := v }) ∧
      (Config.rxCap < v.toNat → step s = .refused (.lengthAboveCapacity .rxbuf))) ∧
    (∀ x v, a = .writeTlvByte x v →
      (x < 513 → step s = .next { s with inputs := rest, tlvbuf := s.tlvbuf.write x v } ∧
        (s.tlvbuf.wf = true → ByteWritten x v s.tlvbuf (s.tlvbuf.write x v))) ∧
      (513 ≤ x → step s = .fault (.noSuchAddress .tlvbuf))) ∧
    (∀ v, a = .writeTlvLen v →
      (v.toNat ≤ 513 → step s = .next { s with inputs := rest, tlvLen := v }) ∧
      (513 < v.toNat → step s = .refused (.lengthAboveCapacity .tlvbuf)))

/-- R22, R20: a host write of `REC` writes its one field, or its one byte of an array field, and nothing else of the bank. -/
def Obligations.HostWritesOneFieldOfTheRecord : Prop :=
  ∀ (s : State) (w : RecordWrite) (rest : List HostInput), s.inputs = .writeRecord w :: rest → s.parsing = false → s.op = none →
    ∃ r, step s = .next { s with inputs := rest, tlvRec := r } ∧
      (∀ v, w = .typ v → r = { s.tlvRec with typ := v }) ∧
      (∀ v, w = .len v → r = { s.tlvRec with len := v }) ∧
      (∀ v, w = .sub v → r = { s.tlvRec with sub := v }) ∧
      (∀ v, w = .af v → r = { s.tlvRec with af := v }) ∧
      (∀ i v, w = .addr i v → r = { s.tlvRec with addr := r.addr } ∧
        (s.tlvRec.addr.wf = true → r.addr.wf = true ∧ ByteWritten i.val v s.tlvRec.addr r.addr)) ∧
      (∀ v, w = .ttl v → r = { s.tlvRec with ttl := v }) ∧
      (∀ v, w = .capSup v → r = { s.tlvRec with capSup := v }) ∧
      (∀ v, w = .capEn v → r = { s.tlvRec with capEn := v }) ∧
      (∀ v, w = .ifsub v → r = { s.tlvRec with ifsub := v }) ∧
      (∀ v, w = .ifnum v → r = { s.tlvRec with ifnum := v }) ∧
      (∀ i v, w = .oui i v → r = { s.tlvRec with oui := r.oui } ∧
        (s.tlvRec.oui.wf = true → r.oui.wf = true ∧ ByteWritten i.val v s.tlvRec.oui r.oui)) ∧
      (∀ v, w = .vlen v → r = { s.tlvRec with vlen := v }) ∧
      (∀ i v, w = .val i v → r = { s.tlvRec with val := r.val } ∧
        (s.tlvRec.val.wf = true → r.val.wf = true ∧ ByteWritten i.val v s.tlvRec.val r.val))
end

