-- ==== Sys2Proof/Laws/Header.lean ====
section
/-! SUPPORT. The header functions as arithmetic on natural numbers (20_memory R51: the header is `type_code * 512 + length`), and the
type-code map. -/

namespace Sys2Proof

/-- A header's type code and length, without shifts and masks. -/
theorem hdrDec_eq (b0 b1 : Byte) : hdrDec b0 b1 = (b0.toNat / 2, b0.toNat % 2 * 256 + b1.toNat) := by
  have h1 : b1.toNat < 2 ^ 8 := b1.isLt
  simp only [hdrDec, Nat.shiftRight_eq_div_pow, Nat.and_one_is_mod, Nat.shiftLeft_eq, pow_one]
  rw [← Nat.shiftLeft_eq, ← Nat.shiftLeft_add_eq_or_of_lt h1, Nat.shiftLeft_eq]

/-- The header bytes, without shifts and masks. -/
theorem hdrJoin_eq {t l : Nat} (h : l < 512) : hdrJoin t l = (BitVec.ofNat 8 (t * 2 + l / 256), BitVec.ofNat 8 (l % 256)) := by
  have h1 : l / 256 < 2 ^ 1 := by omega
  have e : (t <<< 1) ||| (l >>> 8) = t * 2 + l / 256 := by
    rw [Nat.shiftRight_eq_div_pow, ← Nat.shiftLeft_add_eq_or_of_lt (by simpa using h1), Nat.shiftLeft_eq]
  have e2 : l &&& 0xFF = l % 256 := by
    have := Nat.and_two_pow_sub_one_eq_mod l 8
    simpa using this
  rw [hdrJoin, e, e2]

/-- A decoded type code is 7 bits, a decoded length 9 (R100). -/
theorem hdrDec_lt (b0 b1 : Byte) : (hdrDec b0 b1).1 < 128 ∧ (hdrDec b0 b1).2 < 512 := by
  have h0 : b0.toNat < 256 := b0.isLt
  have h1 : b1.toNat < 256 := b1.isLt
  rw [hdrDec_eq]
  constructor
  · show b0.toNat / 2 < 128
    omega
  · show b0.toNat % 2 * 256 + b1.toNat < 512
    omega

/-- Everything the header encoder can do (R101). -/
theorem hdrEnc_eq_some {t l : Nat} {h : Byte × Byte} : hdrEnc t l = some h ↔ l ≤ 511 ∧ t ≤ 127 ∧ h = hdrJoin t l := by
  unfold hdrEnc
  split
  · simp; omega
  · split
    · simp; omega
    · rename_i h1 h2
      simp only [Option.some.injEq, eq_comm (a := hdrJoin t l)]
      exact ⟨fun e => ⟨by omega, by omega, e⟩, fun e => e.2.2⟩

theorem hdrEnc_eq_none {t l : Nat} : hdrEnc t l = none ↔ 511 < l ∨ 127 < t := by
  unfold hdrEnc
  split
  · simp; omega
  · split <;> simp <;> omega

/-- A variant's code is its own. -/
theorem variant_ofCode_code (k : Variant) : Variant.ofCode k.code = some k := by cases k <;> rfl

/-- A code names at most one variant (R74). -/
theorem variant_code_of_ofCode {t : Nat} {k : Variant} (h : Variant.ofCode t = some k) : k.code = t := by
  unfold Variant.ofCode at h
  split at h <;> first | (injection h with h; subst h; rfl) | cases h

theorem variant_code_lt (k : Variant) : k.code < 128 := by cases k <;> decide

theorem instr_payload (k : Variant) (p : Bytes) : (k.instr p).payload = p := by cases k <;> rfl

/-- An undefined type code lies in 9..126 (R84). -/
theorem variant_ofCode_none {t : Nat} (ht : t < 128) : Variant.ofCode t = none ↔ 9 ≤ t ∧ t ≤ 126 := by
  constructor
  · intro h
    by_contra hc
    have : t ∈ [0, 1, 2, 3, 4, 5, 6, 7, 8, 127] := by
      simp only [List.mem_cons, List.not_mem_nil, or_false]
      omega
    simp only [List.mem_cons, List.not_mem_nil, or_false] at this
    rcases this with h' | h' | h' | h' | h' | h' | h' | h' | h' | h' <;> subst h' <;> cases h
  · rintro ⟨h1, h2⟩
    unfold Variant.ofCode
    split <;> first | rfl | omega

end Sys2Proof
end

