-- ==== Sys2Proof/Laws/Memory.lean ====
section
/-! SUPPORT. The laws of bytes held by address: a read after a write, the canonical form, the bound of the addresses, and what a run
of bytes reads as. -/

namespace Sys2Proof.Machine

@[simp] theorem read_nil (a : Nat) : Memory.read [] a = blankByte := rfl

@[simp] theorem read_cons (x : Nat) (v : Byte) (m : Memory) (a : Nat) :
    Memory.read ((x, v) :: m) a = if x = a then v else m.read a := rfl

/-- Below the first listed address every byte is blank. -/
theorem read_of_wfFrom {m : Memory} {lo a : Nat} (h : m.wfFrom lo = true) (ha : a < lo) : m.read a = blankByte := by
  induction m generalizing lo with
  | nil => rfl
  | cons c m ih =>
    obtain ⟨x, v⟩ := c
    simp only [Memory.wfFrom, Bool.and_eq_true, decide_eq_true_eq] at h
    rw [read_cons, if_neg (by omega)]
    exact ih h.2 (by omega)

theorem wfFrom_mono {m : Memory} {lo lo' : Nat} (h : m.wfFrom lo = true) (hl : lo' ≤ lo) : m.wfFrom lo' = true := by
  cases m with
  | nil => rfl
  | cons c m =>
    obtain ⟨x, v⟩ := c
    simp only [Memory.wfFrom, Bool.and_eq_true, decide_eq_true_eq] at h ⊢
    exact ⟨⟨by omega, h.1.2⟩, h.2⟩

/-- A write keeps the canonical form. -/
theorem wfFrom_write {m : Memory} {lo a : Nat} (b : Byte) (h : m.wfFrom lo = true) (ha : lo ≤ a) :
    (m.write a b).wfFrom lo = true := by
  induction m generalizing lo with
  | nil =>
    unfold Memory.write
    split
    · rfl
    · simp [Memory.wfFrom, *]
  | cons c m ih =>
    obtain ⟨x, v⟩ := c
    simp only [Memory.wfFrom, Bool.and_eq_true, decide_eq_true_eq] at h
    obtain ⟨⟨hx, hv⟩, hm⟩ := h
    unfold Memory.write
    split
    · split
      · simp [Memory.wfFrom, hx, hv, hm]
      · rename_i hlt hb
        simp [Memory.wfFrom, ha, hb, hv, hm, Nat.succ_le_of_lt hlt]
    · split
      · subst_vars
        split
        · exact wfFrom_mono hm (by omega)
        · rename_i hb
          simp [Memory.wfFrom, ha, hb, hm]
      · simp [Memory.wfFrom, hx, hv, ih hm (by omega)]

theorem wf_write {m : Memory} (a : Nat) (b : Byte) (h : m.wf = true) : (m.write a b).wf = true :=
  wfFrom_write b h (Nat.zero_le a)

/-- Reading the address written gives the byte written; every other address reads as before. -/
theorem read_write {m : Memory} {lo : Nat} (h : m.wfFrom lo = true) (a a' : Nat) (b : Byte) :
    (m.write a b).read a' = if a' = a then b else m.read a' := by
  induction m generalizing lo with
  | nil =>
    unfold Memory.write
    by_cases hb : b = blankByte <;> by_cases ha : a' = a <;> simp [hb, ha, eq_comm (a := a) (b := a')]
  | cons c m ih =>
    obtain ⟨x, v⟩ := c
    simp only [Memory.wfFrom, Bool.and_eq_true, decide_eq_true_eq] at h
    unfold Memory.write
    by_cases h1 : a < x
    · have hr : Memory.read m a = blankByte := read_of_wfFrom h.2 (by omega)
      by_cases hb : b = blankByte
      · by_cases ha : a' = a
        · subst ha
          simp [h1, hb, hr, Nat.ne_of_gt h1]
        · simp [h1, hb, ha]
      · by_cases ha : a' = a
        · simp [h1, hb, ha]
        · simp [h1, hb, ha, Ne.symm ha]
    · by_cases h2 : a = x
      · subst h2
        have hr : Memory.read m a = blankByte := read_of_wfFrom h.2 (by omega)
        by_cases hb : b = blankByte
        · by_cases ha : a' = a
          · subst ha; simp [hb, hr]
          · simp [hb, ha, Ne.symm ha]
        · by_cases ha : a' = a
          · subst ha; simp [hb]
          · simp [hb, ha, Ne.symm ha]
      · simp only [h1, h2, if_false, read_cons]
        by_cases hx : x = a'
        · have hne : a' ≠ a := by omega
          simp [hx, hne]
        · simp [hx, ih h.2]

theorem read_write_same {m : Memory} (h : m.wf = true) (a : Nat) (b : Byte) : (m.write a b).read a = b := by
  simp [read_write h]

theorem read_write_ne {m : Memory} (h : m.wf = true) {a a' : Nat} (b : Byte) (hne : a' ≠ a) :
    (m.write a b).read a' = m.read a' := by
  simp [read_write h, hne]

theorem below_write {m : Memory} {cap a : Nat} (b : Byte) (h : m.below cap = true) (ha : a < cap) :
    (m.write a b).below cap = true := by
  induction m with
  | nil =>
    unfold Memory.write
    split <;> simp [Memory.below, ha]
  | cons c m ih =>
    obtain ⟨x, v⟩ := c
    simp only [Memory.below, List.all_cons, Bool.and_eq_true, decide_eq_true_eq] at h ih ⊢
    unfold Memory.write
    split
    · split <;> simp [h.1, h.2, ha]
    · split
      · split <;> simp [h.2, ha]
      · simpa [h.1] using ih h.2

@[simp] theorem writeN_nil (m : Memory) (a : Nat) : m.writeN a [] = m := rfl

@[simp] theorem writeN_cons (m : Memory) (a : Nat) (b : Byte) (bs : Bytes) :
    m.writeN a (b :: bs) = (m.write a b).writeN (a + 1) bs := rfl

theorem wf_writeN {m : Memory} (a : Nat) (bs : Bytes) (h : m.wf = true) : (m.writeN a bs).wf = true := by
  induction bs generalizing m a with
  | nil => exact h
  | cons b bs ih => exact ih (a + 1) (wf_write a b h)

theorem below_writeN {m : Memory} {cap a : Nat} (bs : Bytes) (h : m.below cap = true) (ha : a + bs.length ≤ cap) :
    (m.writeN a bs).below cap = true := by
  induction bs generalizing m a with
  | nil => exact h
  | cons b bs ih =>
    simp only [List.length_cons] at ha
    exact ih (below_write b h (by omega)) (by omega)

/-- A byte outside a run written reads as before. -/
theorem read_writeN_outside {m : Memory} (h : m.wf = true) (a a' : Nat) (bs : Bytes) (ho : a' < a ∨ a + bs.length ≤ a') :
    (m.writeN a bs).read a' = m.read a' := by
  induction bs generalizing m a with
  | nil => rfl
  | cons b bs ih =>
    simp only [List.length_cons] at ho
    rw [writeN_cons, ih (wf_write a b h) (a + 1) (by omega), read_write_ne h b (by omega)]

/-- A byte inside a run written reads as the byte written there. -/
theorem read_writeN_inside {m : Memory} (h : m.wf = true) (a k : Nat) (bs : Bytes) (hk : k < bs.length) :
    (m.writeN a bs).read (a + k) = bs[k] := by
  induction bs generalizing m a k with
  | nil => simp at hk
  | cons b bs ih =>
    cases k with
    | zero =>
      rw [writeN_cons, read_writeN_outside (wf_write a b h) _ _ _ (by omega)]
      simpa using read_write_same h a b
    | succ k =>
      have := ih (wf_write a b h) (a + 1) k (by simpa using hk)
      simpa [Nat.add_assoc, Nat.add_comm 1 k] using this

@[simp] theorem readN_zero (m : Memory) (a : Nat) : m.readN a 0 = [] := rfl

@[simp] theorem readN_succ (m : Memory) (a n : Nat) : m.readN a (n + 1) = m.read a :: m.readN (a + 1) n := rfl

@[simp] theorem readN_length (m : Memory) (a n : Nat) : (m.readN a n).length = n := by
  induction n generalizing a with
  | zero => rfl
  | succ n ih => simp [ih]

theorem readN_getElem (m : Memory) (a n k : Nat) (hk : k < (m.readN a n).length) : (m.readN a n)[k] = m.read (a + k) := by
  induction n generalizing a k with
  | zero => simp at hk
  | succ n ih =>
    cases k with
    | zero => rfl
    | succ k =>
      have hk' : k < (m.readN (a + 1) n).length := by simpa using hk
      have e := ih (a + 1) k hk'
      rw [show a + (k + 1) = a + 1 + k by omega, ← e]
      rfl

/-- Two runs read alike when every byte of them does. -/
theorem readN_congr {m m' : Memory} {a n : Nat} (h : ∀ k, k < n → m.read (a + k) = m'.read (a + k)) :
    m.readN a n = m'.readN a n := by
  induction n generalizing a with
  | zero => rfl
  | succ n ih =>
    have h0 : m.read a = m'.read a := h 0 (by omega)
    rw [readN_succ, readN_succ, h0]
    congr 1
    exact ih fun k hk => by
      have := h (k + 1) (by omega)
      rwa [show a + (k + 1) = a + 1 + k by omega] at this

/-- A run read in two parts. -/
theorem readN_add (m : Memory) (a n k : Nat) : m.readN a (n + k) = m.readN a n ++ m.readN (a + n) k := by
  induction n generalizing a with
  | zero => simp
  | succ n ih => rw [show n + 1 + k = (n + k) + 1 by omega, readN_succ, readN_succ, ih, show a + 1 + n = a + (n + 1) by omega]; rfl

theorem readN_take (m : Memory) (a n k : Nat) : (m.readN a n).take k = m.readN a (min k n) := by
  induction n generalizing a k with
  | zero => simp
  | succ n ih =>
    cases k with
    | zero => simp
    | succ k => simp [ih, Nat.succ_min_succ]

/-- Reading back the run just written. -/
theorem readN_writeN {m : Memory} (h : m.wf = true) (a : Nat) (bs : Bytes) : (m.writeN a bs).readN a bs.length = bs := by
  apply List.ext_getElem (by simp)
  intro k h1 h2
  rw [readN_getElem, read_writeN_inside h a k bs h2]

/-- Memories in canonical form that read alike are equal. -/
theorem eq_of_read_eq {m m' : Memory} {lo : Nat} (h : m.wfFrom lo = true) (h' : m'.wfFrom lo = true)
    (hr : ∀ a, m.read a = m'.read a) : m = m' := by
  induction m generalizing m' lo with
  | nil =>
    cases m' with
    | nil => rfl
    | cons c m' =>
      obtain ⟨x, v⟩ := c
      simp only [Memory.wfFrom, Bool.and_eq_true, decide_eq_true_eq] at h'
      have := hr x
      simp at this
      exact absurd this.symm h'.1.2
  | cons c m ih =>
    obtain ⟨x, v⟩ := c
    simp only [Memory.wfFrom, Bool.and_eq_true, decide_eq_true_eq] at h
    cases m' with
    | nil =>
      have := hr x
      simp at this
      exact absurd this h.1.2
    | cons c' m' =>
      obtain ⟨y, w⟩ := c'
      simp only [Memory.wfFrom, Bool.and_eq_true, decide_eq_true_eq] at h'
      have hxy : x = y := by
        rcases Nat.lt_trichotomy x y with hlt | he | hgt
        · have h1 := hr x
          rw [read_cons, read_cons, if_pos rfl, if_neg (by omega), read_of_wfFrom h'.2 (by omega)] at h1
          exact absurd h1 h.1.2
        · exact he
        · have h1 := hr y
          rw [read_cons, read_cons, if_pos rfl, if_neg (by omega), read_of_wfFrom h.2 (by omega)] at h1
          exact absurd h1.symm h'.1.2
      subst hxy
      have hv : v = w := by simpa using hr x
      subst hv
      have hm : m = m' := by
        refine ih h.2 h'.2 fun a => ?_
        by_cases ha : x = a
        · subst ha
          rw [read_of_wfFrom h.2 (by omega), read_of_wfFrom h'.2 (by omega)]
        · simpa [ha] using hr a
      rw [hm]

/-- What a read that is defined answers (R13). -/
theorem memRead_eq {sp : Space} {a n : Nat} {s : State} (h : a + n ≤ validLen sp s) (hc : a + n ≤ capacity sp) :
    memRead sp a n s = .ok ((spaceOf sp s).readN a n) := by
  simp [memRead, h, hc]

/-- Everything a read can do: it answers the bytes, inside the valid bytes and the space, or it is outside. -/
theorem memRead_cases {sp : Space} {a n : Nat} {s : State} {r : Except Fault Bytes} (h : memRead sp a n s = r) :
    (r = .ok ((spaceOf sp s).readN a n) ∧ a + n ≤ validLen sp s ∧ a + n ≤ capacity sp) ∨
    (r = .error (.readOutside sp) ∧ ¬ (a + n ≤ validLen sp s ∧ a + n ≤ capacity sp)) := by
  unfold memRead at h
  split at h
  · rename_i hb
    exact .inl ⟨h.symm, hb⟩
  · rename_i hb
    exact .inr ⟨h.symm, hb⟩

end Sys2Proof.Machine
end

