-- ==== Sys2Proof/Laws/State.lean ====
section
/-! SUPPORT. Each field of the state after each named update, so that no proof unfolds a record update. -/

namespace Sys2Proof.Machine

/-! ### `finish` -/

section
variable (st : Status) (s : State)

@[simp] theorem finish_tlvRec : (finish st s).tlvRec = s.tlvRec := rfl
@[simp] theorem finish_htype : (finish st s).htype = s.htype := rfl
@[simp] theorem finish_hlen : (finish st s).hlen = s.hlen := rfl
@[simp] theorem finish_off : (finish st s).off = s.off := rfl
@[simp] theorem finish_duRx : (finish st s).duRx = s.duRx := rfl
@[simp] theorem finish_duTx : (finish st s).duTx = s.duTx := rfl
@[simp] theorem finish_st : (finish st s).st = st := rfl
@[simp] theorem finish_localMac : (finish st s).localMac = s.localMac := rfl
@[simp] theorem finish_dstSel : (finish st s).dstSel = s.dstSel := rfl
@[simp] theorem finish_expect : (finish st s).expect = s.expect := rfl
@[simp] theorem finish_sel : (finish st s).sel = s.sel := rfl
@[simp] theorem finish_idx : (finish st s).idx = s.idx := rfl
@[simp] theorem finish_payBase : (finish st s).payBase = s.payBase := rfl
@[simp] theorem finish_payLen : (finish st s).payLen = s.payLen := rfl
@[simp] theorem finish_rxbuf : (finish st s).rxbuf = s.rxbuf := rfl
@[simp] theorem finish_rxLen : (finish st s).rxLen = s.rxLen := rfl
@[simp] theorem finish_txbuf : (finish st s).txbuf = s.txbuf := rfl
@[simp] theorem finish_txLen : (finish st s).txLen = s.txLen := rfl
@[simp] theorem finish_tlvbuf : (finish st s).tlvbuf = s.tlvbuf := rfl
@[simp] theorem finish_tlvLen : (finish st s).tlvLen = s.tlvLen := rfl
@[simp] theorem finish_op : (finish st s).op = none := rfl
@[simp] theorem finish_parsing : (finish st s).parsing = false := rfl
@[simp] theorem finish_savedPay : (finish st s).savedPay = s.savedPay := rfl
@[simp] theorem finish_inputs : (finish st s).inputs = s.inputs := rfl

end

/-! ### `takeFault` -/

section
variable (c : Cause) (t : Option (BitVec 7)) (s : State)

@[simp] theorem takeFault_tlvRec : (takeFault c t s).tlvRec = s.tlvRec := rfl
@[simp] theorem takeFault_htype : (takeFault c t s).htype = s.htype := rfl
@[simp] theorem takeFault_hlen : (takeFault c t s).hlen = s.hlen := rfl
@[simp] theorem takeFault_off : (takeFault c t s).off = s.off := rfl
@[simp] theorem takeFault_duRx : (takeFault c t s).duRx = if s.parsing then [] else s.duRx := rfl
@[simp] theorem takeFault_duTx : (takeFault c t s).duTx = s.duTx := rfl
@[simp] theorem takeFault_localMac : (takeFault c t s).localMac = s.localMac := rfl
@[simp] theorem takeFault_dstSel : (takeFault c t s).dstSel = s.dstSel := rfl
@[simp] theorem takeFault_expect : (takeFault c t s).expect = s.expect := rfl
@[simp] theorem takeFault_sel : (takeFault c t s).sel = s.sel := rfl
@[simp] theorem takeFault_idx : (takeFault c t s).idx = s.idx := rfl
@[simp] theorem takeFault_payBase : (takeFault c t s).payBase = if s.parsing then (faultPay s).1 else s.payBase := rfl
@[simp] theorem takeFault_payLen : (takeFault c t s).payLen = if s.parsing then (faultPay s).2 else s.payLen := rfl
@[simp] theorem takeFault_rxbuf : (takeFault c t s).rxbuf = s.rxbuf := rfl
@[simp] theorem takeFault_rxLen : (takeFault c t s).rxLen = s.rxLen := rfl
@[simp] theorem takeFault_txbuf : (takeFault c t s).txbuf = s.txbuf := rfl
@[simp] theorem takeFault_txLen : (takeFault c t s).txLen = s.txLen := rfl
@[simp] theorem takeFault_tlvbuf : (takeFault c t s).tlvbuf = s.tlvbuf := rfl
@[simp] theorem takeFault_tlvLen : (takeFault c t s).tlvLen = s.tlvLen := rfl
@[simp] theorem takeFault_op : (takeFault c t s).op = none := rfl
@[simp] theorem takeFault_parsing : (takeFault c t s).parsing = false := rfl
@[simp] theorem takeFault_savedPay : (takeFault c t s).savedPay = if s.parsing then none else s.savedPay := rfl
@[simp] theorem takeFault_inputs : (takeFault c t s).inputs = s.inputs := rfl

end

/-! ### `stopParse` -/

section
variable (why : Stop) (s : State)

@[simp] theorem stopParse_tlvRec : (stopParse why s).tlvRec = s.tlvRec := rfl
@[simp] theorem stopParse_htype : (stopParse why s).htype = s.htype := rfl
@[simp] theorem stopParse_hlen : (stopParse why s).hlen = s.hlen := rfl
@[simp] theorem stopParse_off : (stopParse why s).off = s.off := rfl
@[simp] theorem stopParse_duRx : (stopParse why s).duRx = s.duRx := rfl
@[simp] theorem stopParse_duTx : (stopParse why s).duTx = s.duTx := rfl
@[simp] theorem stopParse_st : (stopParse why s).st = { statusOk with stop := why, complete := duComplete s.duRx, qual := viaFrame s } := rfl
@[simp] theorem stopParse_localMac : (stopParse why s).localMac = s.localMac := rfl
@[simp] theorem stopParse_dstSel : (stopParse why s).dstSel = s.dstSel := rfl
@[simp] theorem stopParse_expect : (stopParse why s).expect = s.expect := rfl
@[simp] theorem stopParse_sel : (stopParse why s).sel = s.sel := rfl
@[simp] theorem stopParse_idx : (stopParse why s).idx = s.idx := rfl
@[simp] theorem stopParse_payBase : (stopParse why s).payBase = s.payBase := rfl
@[simp] theorem stopParse_payLen : (stopParse why s).payLen = s.payLen := rfl
@[simp] theorem stopParse_rxbuf : (stopParse why s).rxbuf = s.rxbuf := rfl
@[simp] theorem stopParse_rxLen : (stopParse why s).rxLen = s.rxLen := rfl
@[simp] theorem stopParse_txbuf : (stopParse why s).txbuf = s.txbuf := rfl
@[simp] theorem stopParse_txLen : (stopParse why s).txLen = s.txLen := rfl
@[simp] theorem stopParse_tlvbuf : (stopParse why s).tlvbuf = s.tlvbuf := rfl
@[simp] theorem stopParse_tlvLen : (stopParse why s).tlvLen = s.tlvLen := rfl
@[simp] theorem stopParse_op : (stopParse why s).op = none := rfl
@[simp] theorem stopParse_parsing : (stopParse why s).parsing = false := rfl
@[simp] theorem stopParse_savedPay : (stopParse why s).savedPay = none := rfl
@[simp] theorem stopParse_inputs : (stopParse why s).inputs = s.inputs := rfl

end

/-! ### `openParse` -/

section
variable (s : State)

@[simp] theorem openParse_tlvRec : (openParse s).tlvRec = s.tlvRec := rfl
@[simp] theorem openParse_htype : (openParse s).htype = s.htype := rfl
@[simp] theorem openParse_hlen : (openParse s).hlen = s.hlen := rfl
@[simp] theorem openParse_off : (openParse s).off = 0 := rfl
@[simp] theorem openParse_duRx : (openParse s).duRx = [] := rfl
@[simp] theorem openParse_duTx : (openParse s).duTx = s.duTx := rfl
@[simp] theorem openParse_st : (openParse s).st = s.st := rfl
@[simp] theorem openParse_localMac : (openParse s).localMac = s.localMac := rfl
@[simp] theorem openParse_dstSel : (openParse s).dstSel = s.dstSel := rfl
@[simp] theorem openParse_expect : (openParse s).expect = s.expect := rfl
@[simp] theorem openParse_sel : (openParse s).sel = s.sel := rfl
@[simp] theorem openParse_idx : (openParse s).idx = s.idx := rfl
@[simp] theorem openParse_payBase : (openParse s).payBase = s.payBase := rfl
@[simp] theorem openParse_payLen : (openParse s).payLen = s.payLen := rfl
@[simp] theorem openParse_rxbuf : (openParse s).rxbuf = s.rxbuf := rfl
@[simp] theorem openParse_rxLen : (openParse s).rxLen = s.rxLen := rfl
@[simp] theorem openParse_txbuf : (openParse s).txbuf = s.txbuf := rfl
@[simp] theorem openParse_txLen : (openParse s).txLen = s.txLen := rfl
@[simp] theorem openParse_tlvbuf : (openParse s).tlvbuf = s.tlvbuf := rfl
@[simp] theorem openParse_tlvLen : (openParse s).tlvLen = s.tlvLen := rfl
@[simp] theorem openParse_op : (openParse s).op = s.op := rfl
@[simp] theorem openParse_parsing : (openParse s).parsing = true := rfl
@[simp] theorem openParse_savedPay : (openParse s).savedPay = s.savedPay := rfl
@[simp] theorem openParse_inputs : (openParse s).inputs = s.inputs := rfl

end

/-! ### `setPayload` -/

section
variable (b n : Nat) (s : State)

@[simp] theorem setPayload_tlvRec : (setPayload b n s).tlvRec = s.tlvRec := rfl
@[simp] theorem setPayload_htype : (setPayload b n s).htype = s.htype := rfl
@[simp] theorem setPayload_hlen : (setPayload b n s).hlen = s.hlen := rfl
@[simp] theorem setPayload_off : (setPayload b n s).off = s.off := rfl
@[simp] theorem setPayload_duRx : (setPayload b n s).duRx = s.duRx := rfl
@[simp] theorem setPayload_duTx : (setPayload b n s).duTx = s.duTx := rfl
@[simp] theorem setPayload_st : (setPayload b n s).st = s.st := rfl
@[simp] theorem setPayload_localMac : (setPayload b n s).localMac = s.localMac := rfl
@[simp] theorem setPayload_dstSel : (setPayload b n s).dstSel = s.dstSel := rfl
@[simp] theorem setPayload_expect : (setPayload b n s).expect = s.expect := rfl
@[simp] theorem setPayload_sel : (setPayload b n s).sel = s.sel := rfl
@[simp] theorem setPayload_idx : (setPayload b n s).idx = s.idx := rfl
@[simp] theorem setPayload_payBase : (setPayload b n s).payBase = BitVec.ofNat 16 b := rfl
@[simp] theorem setPayload_payLen : (setPayload b n s).payLen = BitVec.ofNat 16 n := rfl
@[simp] theorem setPayload_rxbuf : (setPayload b n s).rxbuf = s.rxbuf := rfl
@[simp] theorem setPayload_rxLen : (setPayload b n s).rxLen = s.rxLen := rfl
@[simp] theorem setPayload_txbuf : (setPayload b n s).txbuf = s.txbuf := rfl
@[simp] theorem setPayload_txLen : (setPayload b n s).txLen = s.txLen := rfl
@[simp] theorem setPayload_tlvbuf : (setPayload b n s).tlvbuf = s.tlvbuf := rfl
@[simp] theorem setPayload_tlvLen : (setPayload b n s).tlvLen = s.tlvLen := rfl
@[simp] theorem setPayload_op : (setPayload b n s).op = s.op := rfl
@[simp] theorem setPayload_parsing : (setPayload b n s).parsing = s.parsing := rfl
@[simp] theorem setPayload_savedPay : (setPayload b n s).savedPay = s.savedPay := rfl
@[simp] theorem setPayload_inputs : (setPayload b n s).inputs = s.inputs := rfl

end

/-! ### `savePay` -/

section
variable (s : State)

@[simp] theorem savePay_tlvRec : (savePay s).tlvRec = s.tlvRec := rfl
@[simp] theorem savePay_htype : (savePay s).htype = s.htype := rfl
@[simp] theorem savePay_hlen : (savePay s).hlen = s.hlen := rfl
@[simp] theorem savePay_off : (savePay s).off = s.off := rfl
@[simp] theorem savePay_duRx : (savePay s).duRx = s.duRx := rfl
@[simp] theorem savePay_duTx : (savePay s).duTx = s.duTx := rfl
@[simp] theorem savePay_st : (savePay s).st = s.st := rfl
@[simp] theorem savePay_localMac : (savePay s).localMac = s.localMac := rfl
@[simp] theorem savePay_dstSel : (savePay s).dstSel = s.dstSel := rfl
@[simp] theorem savePay_expect : (savePay s).expect = s.expect := rfl
@[simp] theorem savePay_sel : (savePay s).sel = s.sel := rfl
@[simp] theorem savePay_idx : (savePay s).idx = s.idx := rfl
@[simp] theorem savePay_payBase : (savePay s).payBase = s.payBase := rfl
@[simp] theorem savePay_payLen : (savePay s).payLen = s.payLen := rfl
@[simp] theorem savePay_rxbuf : (savePay s).rxbuf = s.rxbuf := rfl
@[simp] theorem savePay_rxLen : (savePay s).rxLen = s.rxLen := rfl
@[simp] theorem savePay_txbuf : (savePay s).txbuf = s.txbuf := rfl
@[simp] theorem savePay_txLen : (savePay s).txLen = s.txLen := rfl
@[simp] theorem savePay_tlvbuf : (savePay s).tlvbuf = s.tlvbuf := rfl
@[simp] theorem savePay_tlvLen : (savePay s).tlvLen = s.tlvLen := rfl
@[simp] theorem savePay_op : (savePay s).op = s.op := rfl
@[simp] theorem savePay_parsing : (savePay s).parsing = s.parsing := rfl
@[simp] theorem savePay_savedPay : (savePay s).savedPay = some (s.payBase, s.payLen) := rfl
@[simp] theorem savePay_inputs : (savePay s).inputs = s.inputs := rfl

end

/-! ### `faultPay` -/

theorem faultPay_of_none {s : State} (h : s.savedPay = none) : faultPay s = (s.payBase, s.payLen) := by simp [faultPay, h]

theorem faultPay_of_some {s : State} {start : BitVec 16 × BitVec 16} (h : s.savedPay = some start) :
    faultPay s = if Config.rxFaultRestoresPay = true then start else (s.payBase, s.payLen) := by simp [faultPay, h]

/-- Everything a fault can leave in the descriptor. -/
theorem faultPay_cases (s : State) : faultPay s = (s.payBase, s.payLen) ∨ s.savedPay = some (faultPay s) := by
  cases h : s.savedPay with
  | none => exact .inl (faultPay_of_none h)
  | some start => rw [faultPay_of_some h]; split <;> simp

/-! ### `storeRecord` -/

section
variable (v : Tlv) (s : State)

@[simp] theorem storeRecord_tlvRec : (storeRecord v s).tlvRec = recordWrite v s.tlvRec := rfl
@[simp] theorem storeRecord_htype : (storeRecord v s).htype = s.htype := rfl
@[simp] theorem storeRecord_hlen : (storeRecord v s).hlen = s.hlen := rfl
@[simp] theorem storeRecord_off : (storeRecord v s).off = s.off := rfl
@[simp] theorem storeRecord_duRx : (storeRecord v s).duRx = s.duRx := rfl
@[simp] theorem storeRecord_duTx : (storeRecord v s).duTx = s.duTx := rfl
@[simp] theorem storeRecord_st : (storeRecord v s).st = statusOk := rfl
@[simp] theorem storeRecord_localMac : (storeRecord v s).localMac = s.localMac := rfl
@[simp] theorem storeRecord_dstSel : (storeRecord v s).dstSel = s.dstSel := rfl
@[simp] theorem storeRecord_expect : (storeRecord v s).expect = s.expect := rfl
@[simp] theorem storeRecord_sel : (storeRecord v s).sel = s.sel := rfl
@[simp] theorem storeRecord_idx : (storeRecord v s).idx = s.idx := rfl
@[simp] theorem storeRecord_payBase : (storeRecord v s).payBase = s.payBase := rfl
@[simp] theorem storeRecord_payLen : (storeRecord v s).payLen = s.payLen := rfl
@[simp] theorem storeRecord_rxbuf : (storeRecord v s).rxbuf = s.rxbuf := rfl
@[simp] theorem storeRecord_rxLen : (storeRecord v s).rxLen = s.rxLen := rfl
@[simp] theorem storeRecord_txbuf : (storeRecord v s).txbuf = s.txbuf := rfl
@[simp] theorem storeRecord_txLen : (storeRecord v s).txLen = s.txLen := rfl
@[simp] theorem storeRecord_tlvbuf : (storeRecord v s).tlvbuf = s.tlvbuf := rfl
@[simp] theorem storeRecord_tlvLen : (storeRecord v s).tlvLen = s.tlvLen := rfl
@[simp] theorem storeRecord_op : (storeRecord v s).op = none := rfl
@[simp] theorem storeRecord_parsing : (storeRecord v s).parsing = false := rfl
@[simp] theorem storeRecord_savedPay : (storeRecord v s).savedPay = s.savedPay := rfl
@[simp] theorem storeRecord_inputs : (storeRecord v s).inputs = s.inputs := rfl

end

/-! ### `ST` after a fault (R245) -/

section
variable (c : Cause) (t : Option (BitVec 7)) (s : State)

@[simp] theorem takeFault_st_ok : (takeFault c t s).st.ok = false := rfl
@[simp] theorem takeFault_st_cause : (takeFault c t s).st.cause = c := rfl
@[simp] theorem takeFault_st_cat : (takeFault c t s).st.cat = c.category := rfl
@[simp] theorem takeFault_st_tv : (takeFault c t s).st.tv = t.isSome := rfl
@[simp] theorem takeFault_st_typ : (takeFault c t s).st.typ = t.getD 0 := rfl
@[simp] theorem takeFault_st_off : (takeFault c t s).st.off = if s.parsing then s.off else 0 := rfl
@[simp] theorem takeFault_st_qual : (takeFault c t s).st.qual = (s.parsing && viaFrame s) := rfl
@[simp] theorem takeFault_st_complete : (takeFault c t s).st.complete = false := rfl
@[simp] theorem takeFault_st_stop : (takeFault c t s).st.stop = if s.parsing then .fault else .notParsed := rfl

end

end Sys2Proof.Machine
end

