-- ==== Sys2Proof/Laws/Ops.lean ====
section
/-! SUPPORT. Once for each shared operation: everything it can do. -/

namespace Sys2Proof.Machine

/-! ### Stores -/

/-- A store into `TXBUF` goes on only inside the space, and then the bytes stand from byte 0 on (R191, R227). -/
theorem storeTx_next {b : Bytes} {st : Status} {s s' : State} (h : storeTx b st s = .next s') :
    b.length ≤ Config.txCap ∧ s' = finish st { s with txbuf := s.txbuf.writeN 0 b, txLen := BitVec.ofNat 16 b.length } := by
  unfold storeTx at h
  split at h
  · rename_i hb
    injection h with h
    exact ⟨hb, h.symm⟩
  · cases h

/-- A store into `TLVBUF` goes on only inside the space (R104, R126). -/
theorem storeTlv_next {b : Bytes} {s s' : State} (h : storeTlv b s = .next s') :
    b.length ≤ Config.tlvCap ∧
    s' = finish statusOk { s with tlvbuf := s.tlvbuf.writeN 0 b, tlvLen := BitVec.ofNat 10 b.length } := by
  unfold storeTlv at h
  split at h
  · rename_i hb
    injection h with h
    exact ⟨hb, h.symm⟩
  · cases h

theorem storeTx_eq {b : Bytes} (st : Status) (s : State) (h : b.length ≤ Config.txCap) :
    storeTx b st s = .next (finish st { s with txbuf := s.txbuf.writeN 0 b, txLen := BitVec.ofNat 16 b.length }) :=
  if_pos h

theorem storeTlv_eq {b : Bytes} (s : State) (h : b.length ≤ Config.tlvCap) :
    storeTlv b s = .next (finish statusOk { s with tlvbuf := s.tlvbuf.writeN 0 b, tlvLen := BitVec.ofNat 10 b.length }) :=
  if_pos h

/-! ### Containers -/

@[simp] theorem duLen_nil : duLen [] = 0 := rfl

@[simp] theorem duLen_append (du du' : List Tlv) : duLen (du ++ du') = duLen du + duLen du' := by simp [duLen]

@[simp] theorem duLen_singleton (t : Tlv) : duLen [t] = tlvSize t := by simp [duLen]

@[simp] theorem duHasEnd_nil : duHasEnd [] = false := rfl

@[simp] theorem duHasEnd_append (du du' : List Tlv) : duHasEnd (du ++ du') = (duHasEnd du || duHasEnd du') := by
  simp [duHasEnd]

@[simp] theorem duHasEnd_singleton (t : Tlv) : duHasEnd [t] = (t.variant == .endOfLldpdu) := by simp [duHasEnd]

/-- `append` succeeds exactly when its three tests pass, and then adds the value at the end (R186). -/
theorem duAppend_eq_ok {du du' : List Tlv} {t : Tlv} :
    duAppend du t = .ok du' ↔
    duHasEnd du = false ∧ positionFault t.cls du.length = none ∧ duLen du + tlvSize t ≤ Config.duMax ∧ du' = du ++ [t] := by
  unfold duAppend
  constructor
  · intro h
    split at h
    · split at h <;> cases h
    · rename_i he
      split at h
      · cases h
      · rename_i hp
        split at h
        · cases h
        · rename_i hs
          injection h with h
          exact ⟨by simpa using he, hp, by omega, h.symm⟩
  · rintro ⟨he, hp, hs, rfl⟩
    simp [he, hp, Nat.not_lt.mpr hs]

/-- What `append` raises, and when (R186, in the order of its tests). -/
theorem duAppend_eq_error {du : List Tlv} {t : Tlv} {c : Cause} (h : duAppend du t = .error c) :
    (duHasEnd du = true ∧ c = if t.cls = .endTlv then .ordEndDup else .ordAfterEnd) ∨
    (duHasEnd du = false ∧ positionFault t.cls du.length = some c) ∨
    (duHasEnd du = false ∧ positionFault t.cls du.length = none ∧ Config.duMax < duLen du + tlvSize t ∧ c = .size) := by
  unfold duAppend at h
  split at h
  · rename_i he
    left
    refine ⟨he, ?_⟩
    split at h <;> (injection h with h; simp [*])
  · rename_i he
    have he' : duHasEnd du = false := by simpa using he
    split at h
    · rename_i c' hp
      injection h with h
      exact .inr (.inl ⟨he', h ▸ hp⟩)
    · rename_i hp
      split at h
      · rename_i hs
        injection h with h
        exact .inr (.inr ⟨he', hp, hs, h.symm⟩)
      · cases h

/-- Everything a TLV step can do once its payload is decoded (R200). -/
theorem tlvStep_cases (t : BitVec 7) (L : Nat) (r : Except Cause Tlv) (s : State) :
    (∃ c, r = .error c ∧ tlvStep t L r s = takeFault c (some t) s) ∨
    (∃ v c, r = .ok v ∧ duAppend s.duRx v = .error c ∧ tlvStep t L r s = takeFault c (some t) s) ∨
    (∃ v, r = .ok v ∧ duAppend s.duRx v = .ok (s.duRx ++ [v]) ∧ v.variant = .endOfLldpdu ∧
      tlvStep t L r s = stopParse .endTlv { s with duRx := s.duRx ++ [v], off := s.off + BitVec.ofNat 11 (2 + L) }) ∨
    (∃ v, r = .ok v ∧ duAppend s.duRx v = .ok (s.duRx ++ [v]) ∧ v.variant ≠ .endOfLldpdu ∧
      tlvStep t L r s = { s with duRx := s.duRx ++ [v], off := s.off + BitVec.ofNat 11 (2 + L) }) := by
  cases r with
  | error c => exact .inl ⟨c, rfl, rfl⟩
  | ok v =>
    right
    cases hd : duAppend s.duRx v with
    | error c => exact .inl ⟨v, c, rfl, hd, by simp [tlvStep, hd]⟩
    | ok du =>
      obtain rfl := (duAppend_eq_ok.mp hd).2.2.2
      by_cases hv : v.variant = .endOfLldpdu
      · exact .inr (.inl ⟨v, rfl, hd, hv, by simp [tlvStep, hd, hv]⟩)
      · exact .inr (.inr ⟨v, rfl, hd, hv, by simp [tlvStep, hd, hv]⟩)

/-! ### Payload decoders -/

/-- What `text_dec` accepts (R143): the text itself. -/
theorem textDec_eq_ok {p t : Bytes} : textDec p = .ok t ↔ p.length ≤ 255 ∧ utf8Ok p = true ∧ t = p := by
  unfold textDec
  simp only [Config.textMax]
  by_cases hl : p.length > 255
  · simp [hl]
  · by_cases hu : utf8Ok p = true
    · simp only [hl, hu, if_false, Bool.not_true, Bool.false_eq_true, Except.ok.injEq, true_and]
      exact ⟨fun h => ⟨by omega, h.symm⟩, fun h => h.2.symm⟩
    · simp [hl, hu]

/-- Everything `id_dec` accepts (R134): a subtype in 1..7, and after it the bytes of its kind. -/
theorem idDec_eq_ok {kind : Byte → IdKind} {p : Bytes} {sub : Byte} {idv : IdValue} (h : idDec kind p = .ok (sub, idv)) :
    ∃ rest, p = sub :: rest ∧ ¬ (sub < 1 ∨ sub > 7) ∧
      ((kind sub = .mac ∧ rest.length = 6 ∧ idv = .mac rest) ∨
       (∃ af addr, kind sub = .net ∧ rest = af :: addr ∧ isFamily af = true ∧ addr.length = addrLen af ∧ idv = .net af addr) ∨
       (kind sub = .text ∧ rest.length ≤ 510 ∧ utf8Ok rest = true ∧ idv = .text rest)) := by
  cases p with
  | nil => cases h
  | cons x rest =>
    simp only [idDec] at h
    split at h
    · cases h
    · rename_i hs
      split at h
      · rename_i hk
        split at h
        · cases h
        · rename_i hl
          cases h
          exact ⟨rest, rfl, hs, .inl ⟨hk, by simpa [Config.macBytes] using hl, rfl⟩⟩
      · rename_i hk
        split at h
        · cases h
        · rename_i af addr
          split at h
          · cases h
          · rename_i hf
            split at h
            · cases h
            · rename_i hl
              cases h
              exact ⟨_, rfl, hs, .inr (.inl ⟨af, addr, hk, rfl, by simpa using hf, by simpa using hl, rfl⟩)⟩
      · rename_i hk
        split at h
        · cases h
        · rename_i hl
          split at h
          · cases h
          · rename_i hu
            cases h
            exact ⟨rest, rfl, hs, .inr (.inr ⟨hk, by simpa [Config.idTextMax] using hl, by simpa using hu, rfl⟩)⟩

/-- What `enc` answers (R125): the bytes, when the checks pass. -/
theorem enc_eq_ok {v : Tlv} {b : Bytes} : enc v = .ok b ↔ wfCheck v = .ok () ∧ b = encBytes v := by
  unfold enc
  cases wfCheck v with
  | error c => simp
  | ok u => simp [eq_comm]

/-- Everything the frame of a decoder can do (R121). -/
theorem decFrame_eq_ok {k : Variant} {b : Bytes} {v : Tlv} (h : decFrame k b = .ok v) :
    ∃ b0 b1 p, b = b0 :: b1 :: p ∧ (hdrDec b0 b1).1 = k.code ∧ p.length = (hdrDec b0 b1).2 ∧ pdec k p = .ok v := by
  unfold decFrame at h
  split at h
  · rename_i b0 b1 p
    simp only at h
    split at h
    · cases h
    · rename_i h1
      split at h
      · cases h
      · rename_i h2
        split at h
        · cases h
        · rename_i h3
          split at h
          · cases h
          · rename_i v' hv
            injection h with h
            exact ⟨b0, b1, p, rfl, by simpa using h1, by omega, h ▸ hv⟩
  · cases h

end Sys2Proof.Machine
end

