-- ==== Sys2Proof/Laws/Fetch.lean ====
section
/-! SUPPORT. What the engine does next, case by case (42_container R200; 00_scope R8, R9), and what `exec` is for each instruction. -/

namespace Sys2Proof.Machine

/-- A reset is served at once (R281). -/
theorem fetch_reset {s : State} {rest : List HostInput} (h : s.inputs = .reset :: rest) :
    fetch s = .settled (.next { State.reset with inputs := rest }) := by
  unfold fetch
  rw [h]
  rfl

/-- Inside a parse the engine takes the TLV at the cursor (R200). -/
theorem fetch_parsing {s : State} (h : NoReset s) (hp : s.parsing = true) : fetch s = fetchTlv s := by
  unfold fetch
  split
  · rename_i rest hr
    exact absurd hr (h rest)
  · simp [hp]

/-- Outside a parse it takes the operation that is started (R8). -/
theorem fetch_op {s : State} {op : BitVec 4} (h : NoReset s) (hp : s.parsing = false) (ho : s.op = some op) :
    fetch s = .instr (decodeOp op) := by
  unfold fetch
  split
  · rename_i rest hr
    exact absurd hr (h rest)
  · simp [hp, ho]

/-- An idle engine with nothing to do keeps its state (R263). -/
theorem fetch_idle {s : State} (hi : s.inputs = []) (hp : s.parsing = false) (ho : s.op = none) :
    fetch s = .settled (.next s) := by
  unfold fetch
  simp [hi, hp, ho]

/-- An idle engine takes the host's next input (R9). -/
theorem fetch_input {s : State} {a : HostInput} {rest : List HostInput} (hi : s.inputs = a :: rest) (hp : s.parsing = false)
    (ho : s.op = none) : fetch s = .settled (acceptInput a { s with inputs := rest }) := by
  by_cases ha : a = .reset
  · subst ha
    rw [fetch_reset hi]
    rfl
  · unfold fetch
    split
    · rename_i rest' hr
      rw [hi] at hr
      cases hr
      exact absurd rfl ha
    · simp only [hp, ho, hi]
      rfl

/-- Everything the front of a TLV step can do (R200): read outside (no reachable state), exhaustion, a truncated header, a truncated
payload, or the instruction the bytes decode to. -/
theorem fetchTlv_cases (s : State) :
    (∃ f, fetchBytes s = .error f ∧ fetchTlv s = .settled (.fault f)) ∨
    (fetchBytes s = .ok [] ∧ fetchTlv s = .settled (.next (stopParse .exhausted s))) ∨
    (∃ b, fetchBytes s = .ok b ∧ b ≠ [] ∧ decodeTlv b = .error .truncHeader ∧
      fetchTlv s = .settled (.next (takeFault .truncHdr none s))) ∨
    (∃ b t, fetchBytes s = .ok b ∧ b ≠ [] ∧ decodeTlv b = .error (.truncPayload t) ∧
      fetchTlv s = .settled (.next (takeFault .truncPayload (some (BitVec.ofNat 7 t)) s))) ∨
    (∃ b i rest, fetchBytes s = .ok b ∧ b ≠ [] ∧ decodeTlv b = .ok (i, rest) ∧ fetchTlv s = .instr i) := by
  unfold fetchTlv
  split
  · rename_i f hf
    exact .inl ⟨f, hf, rfl⟩
  · rename_i hf
    exact .inr (.inl ⟨hf, rfl⟩)
  · rename_i b hb hf
    have hne : b ≠ [] := hb
    right; right
    split
    · rename_i hd
      exact .inl ⟨b, hf, hne, hd, rfl⟩
    · rename_i t hd
      exact .inr (.inl ⟨b, t, hf, hne, hd, rfl⟩)
    · rename_i i rest hd
      exact .inr (.inr ⟨b, i, rest, hf, hne, hd, rfl⟩)

/-- One step is the instruction fetched, executed. -/
theorem step_instr {s : State} {i : Instr} (h : fetch s = .instr i) : step s = exec i s := by simp [step, h]

/-- A step settled by the fetch. -/
theorem step_settled {s : State} {o : Host.Outcome State Fault Refusal} (h : fetch s = .settled o) : step s = o := by
  simp [step, h]

/-- A TLV of a defined type is one TLV step (R200, R128). -/
theorem exec_variant (k : Variant) (p : Bytes) (s : State) :
    exec (k.instr p) s = .next (tlvStep (variantTyp k) p.length (pdec k p) s) := by cases k <;> rfl

/-- A write of one byte to bytes in canonical form is `ByteWritten` (R33). -/
theorem byteWritten_write {m : Memory} (h : m.wf = true) (x : Nat) (v : Byte) : ByteWritten x v m (m.write x v) :=
  fun a => read_write h x a v

end Sys2Proof.Machine
end

