-- ==== Sys2Proof/Laws/PerInstr.lean ====
section
/-! SUPPORT. Statements about every instruction as syntax, one lemma per constructor. -/

namespace Sys2Proof.Laws.EncodedSize

/-- A TLV's encoding is its 2 header bytes and its payload (30_encoding R70, R71); an operation's is its port code (R90). -/
def Statement (i : Instr) : Prop := ∀ b, encode i = .stream b → b.length = 2 + i.payload.length

theorem endOfLldpdu (p : Bytes) : Statement (.endOfLldpdu p) := by
  rintro b ⟨⟩; simp [tlvBytes, Instr.payload]; omega

theorem chassisId (p : Bytes) : Statement (.chassisId p) := by
  rintro b ⟨⟩; simp [tlvBytes, Instr.payload]; omega

theorem portId (p : Bytes) : Statement (.portId p) := by
  rintro b ⟨⟩; simp [tlvBytes, Instr.payload]; omega

theorem ttl (p : Bytes) : Statement (.ttl p) := by
  rintro b ⟨⟩; simp [tlvBytes, Instr.payload]; omega

theorem portDescription (p : Bytes) : Statement (.portDescription p) := by
  rintro b ⟨⟩; simp [tlvBytes, Instr.payload]; omega

theorem systemName (p : Bytes) : Statement (.systemName p) := by
  rintro b ⟨⟩; simp [tlvBytes, Instr.payload]; omega

theorem systemDescription (p : Bytes) : Statement (.systemDescription p) := by
  rintro b ⟨⟩; simp [tlvBytes, Instr.payload]; omega

theorem systemCapabilities (p : Bytes) : Statement (.systemCapabilities p) := by
  rintro b ⟨⟩; simp [tlvBytes, Instr.payload]; omega

theorem managementAddress (p : Bytes) : Statement (.managementAddress p) := by
  rintro b ⟨⟩; simp [tlvBytes, Instr.payload]; omega

theorem organizationallySpecific (p : Bytes) : Statement (.organizationallySpecific p) := by
  rintro b ⟨⟩; simp [tlvBytes, Instr.payload]; omega

theorem unknown9 (len : BitVec 9) : Statement (.unknown9 len) := by
  rintro b ⟨⟩; rfl

theorem unknown10To11 (x : BitVec 1) (len : BitVec 9) : Statement (.unknown10To11 x len) := by
  rintro b ⟨⟩; rfl

theorem unknown12To15 (x : BitVec 2) (len : BitVec 9) : Statement (.unknown12To15 x len) := by
  rintro b ⟨⟩; rfl

theorem unknown16To31 (x : BitVec 4) (len : BitVec 9) : Statement (.unknown16To31 x len) := by
  rintro b ⟨⟩; rfl

theorem unknown32To63 (x : BitVec 5) (len : BitVec 9) : Statement (.unknown32To63 x len) := by
  rintro b ⟨⟩; rfl

theorem unknown64To95 (x : BitVec 5) (len : BitVec 9) : Statement (.unknown64To95 x len) := by
  rintro b ⟨⟩; rfl

theorem unknown96To111 (x : BitVec 4) (len : BitVec 9) : Statement (.unknown96To111 x len) := by
  rintro b ⟨⟩; rfl

theorem unknown112To119 (x : BitVec 3) (len : BitVec 9) : Statement (.unknown112To119 x len) := by
  rintro b ⟨⟩; rfl

theorem unknown120To123 (x : BitVec 2) (len : BitVec 9) : Statement (.unknown120To123 x len) := by
  rintro b ⟨⟩; rfl

theorem unknown124To125 (x : BitVec 1) (len : BitVec 9) : Statement (.unknown124To125 x len) := by
  rintro b ⟨⟩; rfl

theorem unknown126 (len : BitVec 9) : Statement (.unknown126 len) := by
  rintro b ⟨⟩; rfl

theorem hdrEnc : Statement .hdrEnc := by rintro b ⟨⟩

theorem hdrDec : Statement .hdrDec := by rintro b ⟨⟩

theorem tlvEnc : Statement .tlvEnc := by rintro b ⟨⟩

theorem tlvDec : Statement .tlvDec := by rintro b ⟨⟩

theorem duNew : Statement .duNew := by rintro b ⟨⟩

theorem duAppend : Statement .duAppend := by rintro b ⟨⟩

theorem duSer : Statement .duSer := by rintro b ⟨⟩

theorem duParse : Statement .duParse := by rintro b ⟨⟩

theorem duComplete : Statement .duComplete := by rintro b ⟨⟩

theorem duGet : Statement .duGet := by rintro b ⟨⟩

theorem envClassify : Statement .envClassify := by rintro b ⟨⟩

theorem envBuild : Statement .envBuild := by rintro b ⟨⟩

theorem rxFrame : Statement .rxFrame := by rintro b ⟨⟩

theorem reservedOp13 : Statement .reservedOp13 := by rintro b ⟨⟩

theorem reservedOp14 : Statement .reservedOp14 := by rintro b ⟨⟩

theorem reservedOp15 : Statement .reservedOp15 := by rintro b ⟨⟩

end Sys2Proof.Laws.EncodedSize
end

