-- ==== Sys2Proof/Tests/Slice0.lean ====
section
/-! SUPPORT. The model's own tests: refusals of WellFormed, words written out from the encoding tables (30_encoding R74, R84, R90),
one step on a small state with the result the spec's examples give, and for every obligation with hypotheses a witness that meets them. -/

namespace Sys2Proof.Tests

open Sys2Proof Sys2Proof.Machine

/-! ### Helpers -/

/-- A part of the state after a step; none if there is no next state. -/
def after {α : Type} (o : Host.Outcome State Fault Refusal) (f : State → α) : Option α :=
  match o with
  | .next s => some (f s)
  | _ => none

/-- `ST` as the host reads it after a step. -/
def stAfter (o : Host.Outcome State Fault Refusal) : Option (BitVec 32) := after o fun s => s.st.word

/-- The MAC address of the spec's examples. -/
def mac1 : Bytes := [0x02, 0x04, 0xDF, 0x88, 0xA2, 0xB4]

/-- The mandatory triple of the spec's examples (42_container R191). -/
def triple : List Tlv := [.chassisId 4 (.mac mac1), .portId 5 (.text [0x65, 0x74, 0x68, 0x30]), .ttl 60]

/-- Its bytes (R191). -/
def tripleBytes : Bytes :=
  [0x02, 0x07, 0x04, 0x02, 0x04, 0xDF, 0x88, 0xA2, 0xB4, 0x04, 0x05, 0x05, 0x65, 0x74, 0x68, 0x30, 0x06, 0x02, 0x00, 0x3C]

/-- A container of 1046 bytes: the triple and two OrganizationallySpecific TLVs of the greatest size. -/
def longDu : List Tlv :=
  triple ++ [.organizationallySpecific [0, 0, 0] 0 (List.replicate 507 0), .organizationallySpecific [0, 0, 0] 0 (List.replicate 507 0)]

/-- A running DU.PARSE with `du` taken so far and the bytes `b` at the cursor, the last of the slice. -/
def parsingState (du : List Tlv) (b : Bytes) : State :=
  { State.reset with
    duRx := du, off := BitVec.ofNat 11 (duLen du), rxbuf := Memory.writeN [] (duLen du) b
    rxLen := BitVec.ofNat 16 (duLen du + b.length), payLen := BitVec.ofNat 16 (duLen du + b.length), op := some 7, parsing := true }

/-- The record that holds a value, everything else as after reset. -/
def recordOf (v : Tlv) : TlvRecord := recordWrite v recordReset

/-- A state with bytes in `TLVBUF`. -/
def tlvState (b : Bytes) : State := { State.reset with tlvbuf := Memory.writeN [] 0 b, tlvLen := BitVec.ofNat 10 b.length }

/-- A state with a frame in `RXBUF`. -/
def frameState (b : Bytes) : State := { State.reset with rxbuf := Memory.writeN [] 0 b, rxLen := BitVec.ofNat 16 b.length }

/-! ### WellFormed -/

/-- A payload of 512 bytes has no encoding (R70: the length is 9 bits); one of 511 bytes has. -/
theorem test_wellFormed_refuses_long_payload :
    ((List.map (fun k : Variant => (k.instr (List.replicate 512 0)).wf)
      [.endOfLldpdu, .chassisId, .portId, .ttl, .portDescription, .systemName, .systemDescription, .systemCapabilities,
       .managementAddress, .organizationallySpecific]).all (· == false)) = true ∧
    (Instr.organizationallySpecific (List.replicate 511 0)).wf = true := by decide +kernel

/-! ### Decoding -/

/-- Header words of the defined types, type code then length bit by bit (R70, R74); the payload bits above the word are 0. -/
theorem test_decode_defined_types :
    decodeTableWord 16 0b0000000000000000 = some (.endOfLldpdu []) ∧
    decodeTableWord 16 0b0000001000000111 = some (.chassisId [0, 0, 0, 0, 0, 0, 0]) ∧
    decodeTableWord 16 0b0000010000000001 = some (.portId [0]) ∧
    decodeTableWord 16 0b0000011000000010 = some (.ttl [0, 0]) ∧
    decodeTableWord 16 0b0000100000000011 = some (.portDescription [0, 0, 0]) ∧
    decodeTableWord 16 0b0000101000000000 = some (.systemName []) ∧
    decodeTableWord 16 0b0000110000000001 = some (.systemDescription [0]) ∧
    decodeTableWord 16 0b0000111000000100 = some (.systemCapabilities [0, 0, 0, 0]) ∧
    decodeTableWord 16 0b0001000000000010 = some (.managementAddress [0, 0]) ∧
    decodeTableWord 16 0b1111111000000100 = some (.organizationallySpecific [0, 0, 0, 0]) := by decide +kernel

/-- The ninth length bit is bit 0 of byte 0 (R70). -/
theorem test_decode_long_length : decodeTableWord 16 0b0000001100000000 = some (.chassisId (List.replicate 256 0)) := by decide +kernel

/-- Header words of the undefined types, block by block (R84). -/
theorem test_decode_undefined_types :
    decodeTableWord 16 0b0001001000000000 = some (.unknown9 0) ∧
    decodeTableWord 16 0b0001011100000001 = some (.unknown10To11 1 257) ∧
    decodeTableWord 16 0b0001110000000000 = some (.unknown12To15 2 0) ∧
    decodeTableWord 16 0b0011111000000000 = some (.unknown16To31 15 0) ∧
    decodeTableWord 16 0b0100001000000011 = some (.unknown32To63 1 3) ∧
    decodeTableWord 16 0b1011111111111111 = some (.unknown64To95 31 511) ∧
    decodeTableWord 16 0b1100000000000000 = some (.unknown96To111 0 0) ∧
    decodeTableWord 16 0b1110111000000000 = some (.unknown112To119 7 0) ∧
    decodeTableWord 16 0b1111011000000000 = some (.unknown120To123 3 0) ∧
    decodeTableWord 16 0b1111101000000101 = some (.unknown124To125 1 5) ∧
    decodeTableWord 16 0b1111110000000000 = some (.unknown126 0) := by decide +kernel

/-- The operation codes (R90, R92). -/
theorem test_decode_operations :
    decodeTableWord 8 0b0000 = some .hdrEnc ∧ decodeTableWord 8 0b0001 = some .hdrDec ∧ decodeTableWord 8 0b0010 = some .tlvEnc ∧
    decodeTableWord 8 0b0011 = some .tlvDec ∧ decodeTableWord 8 0b0100 = some .duNew ∧ decodeTableWord 8 0b0101 = some .duAppend ∧
    decodeTableWord 8 0b0110 = some .duSer ∧ decodeTableWord 8 0b0111 = some .duParse ∧ decodeTableWord 8 0b1000 = some .duComplete ∧
    decodeTableWord 8 0b1001 = some .duGet ∧ decodeTableWord 8 0b1010 = some .envClassify ∧
    decodeTableWord 8 0b1011 = some .envBuild ∧ decodeTableWord 8 0b1100 = some .rxFrame ∧
    decodeTableWord 8 0b1101 = some .reservedOp13 ∧ decodeTableWord 8 0b1110 = some .reservedOp14 ∧
    decodeTableWord 8 0b1111 = some .reservedOp15 := by decide

/-- Bytes that are too few are refused by name, an undefined type is told from its header alone (R56, R84). -/
theorem test_decode_refusals :
    decodeTlv [0x06] = .error .truncHeader ∧ decodeTlv [0x06, 0x02, 0x00] = .error (.truncPayload 3) ∧
    decodeTlv [0x12, 0xFF] = .ok (.unknown9 255, []) := by decide

/-- The encodings of R132 and R162's examples. -/
theorem test_encode :
    encode (.chassisId (4 :: mac1)) = .stream [0x02, 0x07, 0x04, 0x02, 0x04, 0xDF, 0x88, 0xA2, 0xB4] ∧
    encode (.unknown10To11 1 300) = .stream [0x17, 0x2C] ∧ encode .rxFrame = .port 12 := by decide

/-! ### One step of each instruction -/

/-- R132's example; R134: `02 01 04`, subtype 4 with no MAC bytes, faults `E_LEN_RANGE` on type 1 (cause 4, category 1). -/
theorem test_chassisId :
    after (exec (.chassisId (4 :: mac1)) (parsingState [] [])) (fun s => (s.duRx, s.off)) = some ([.chassisId 4 (.mac mac1)], 9) ∧
    stAfter (exec (.chassisId [4]) (parsingState [] [])) = some (0xC0000000 ||| (1 <<< 10) ||| (1 <<< 9) ||| (1 <<< 6) ||| (4 <<< 1)) := by
  decide

/-- R136: the payload `04 02 04 DF 88 A2 B4` is a network address with family 2 and 5 address bytes: `E_LEN_RANGE`. -/
theorem test_portId :
    after (exec (.portId [0x05, 0x65, 0x74, 0x68, 0x30]) (parsingState (triple.take 1) [])) (fun s => (s.duRx, s.off)) =
      some (triple.take 2, 16) ∧
    after (exec (.portId (4 :: mac1)) (parsingState (triple.take 1) [])) (fun s => (s.st.cause, s.st.off, s.duRx)) =
      some (.lenRange, 9, []) := by decide

/-- R140: `06 02 00 3C` is Ttl(60), the high byte first; at position 0 it is `E_ORD_POSITION` (R186). -/
theorem test_ttl :
    after (exec (.ttl [0x01, 0x02]) (parsingState (triple.take 2) [])) (fun s => (s.duRx[2]?, s.off)) = some (some (.ttl 258), 20) ∧
    after (exec (.ttl [0x00, 0x3C]) (parsingState [] [])) (fun s => s.st.cause) = some .ordPosition := by decide

/-- R144: "ü" is `C3 BC`; a sequence cut short faults `E_UTF8`. -/
theorem test_portDescription :
    after (exec (.portDescription [0xC3, 0xBC]) (parsingState triple [])) (fun s => s.duRx[3]?) =
      some (some (.portDescription [0xC3, 0xBC])) ∧
    after (exec (.portDescription [0xC3]) (parsingState triple [])) (fun s => s.st.cause) = some .utf8 := by decide

/-- R147's example; R186: an optional TLV before the triple faults `E_ORD_TRIPLE`. -/
theorem test_systemName :
    after (exec (.systemName [0x73, 0x77, 0x31]) (parsingState triple [])) (fun s => (s.duRx[3]?, s.off)) =
      some (some (.systemName [0x73, 0x77, 0x31]), 25) ∧
    after (exec (.systemName [0x73]) (parsingState (triple.take 2) [])) (fun s => s.st.cause) = some .ordTriple := by decide

/-- R150's example; R143: 256 bytes fault `E_LEN_RANGE`. -/
theorem test_systemDescription :
    after (exec (.systemDescription [0x5A, 0xC3, 0xBC, 0x72, 0x69, 0x63, 0x68]) (parsingState triple [])) (fun s => s.duRx[3]?) =
      some (some (.systemDescription [0x5A, 0xC3, 0xBC, 0x72, 0x69, 0x63, 0x68])) ∧
    after (exec (.systemDescription (List.replicate 256 0x41)) (parsingState triple [])) (fun s => s.st.cause) = some .lenRange := by
  decide +kernel

/-- R154: `0E 04 00 14 00 04` is supported 0x0014, enabled 0x0004; `00 01 00 02` faults `E_CAP_SUBSET`. -/
theorem test_systemCapabilities :
    after (exec (.systemCapabilities [0x00, 0x14, 0x00, 0x04]) (parsingState triple [])) (fun s => s.duRx[3]?) =
      some (some (.systemCapabilities 0x0014 0x0004)) ∧
    after (exec (.systemCapabilities [0x00, 0x01, 0x00, 0x02]) (parsingState triple [])) (fun s => (s.st.cause, s.st.cat)) =
      some (.capSubset, .semantic) := by decide

/-- R161's example, and its corner case `o = 1` with no OID byte: `E_TRUNC_PAYLOAD`. -/
theorem test_managementAddress :
    after (exec (.managementAddress [0x05, 0x01, 0xC0, 0x00, 0x02, 0x01, 0x02, 0x00, 0x00, 0x00, 0x07, 0x00]) (parsingState triple []))
      (fun s => s.duRx[3]?) = some (some (.managementAddress 1 [0xC0, 0x00, 0x02, 0x01] 2 7 [])) ∧
    after (exec (.managementAddress [0x05, 0x01, 0xC0, 0x00, 0x02, 0x01, 0x02, 0x00, 0x00, 0x00, 0x07, 0x01]) (parsingState triple []))
      (fun s => s.st.cause) = some .truncPayload := by decide

/-- R166's example, and a payload of 3 bytes. -/
theorem test_organizationallySpecific :
    after (exec (.organizationallySpecific [0x00, 0x80, 0xC2, 0x01, 0x00, 0x01]) (parsingState triple [])) (fun s => s.duRx[3]?) =
      some (some (.organizationallySpecific [0x00, 0x80, 0xC2] 1 [0x00, 0x01])) ∧
    after (exec (.organizationallySpecific [0x00, 0x80, 0xC2]) (parsingState triple [])) (fun s => s.st.cause) = some .lenRange := by
  decide

/-- R201's example: the fourth step ends the parse at `OFF` = 22, `ST.stop` = 1, `ST.complete` = 1. -/
theorem test_endOfLldpdu :
    stAfter (exec (.endOfLldpdu []) (parsingState triple [])) = some 0x60000001 ∧
    after (exec (.endOfLldpdu []) (parsingState triple [])) (fun s => (s.off, s.op, s.parsing)) = some (22, none, false) := by decide

/-- R84, R201: the fault on type code 9, from the header alone; the other blocks with their type codes. -/
theorem test_undefined_types :
    after (exec (.unknown9 511) (parsingState [] [])) (fun s => (s.st.cause, s.st.typ, s.st.off)) = some (.unknownType, 9, 0) ∧
    [Instr.unknown10To11 1 0, .unknown12To15 3 0, .unknown16To31 15 0, .unknown32To63 31 0, .unknown64To95 31 0, .unknown96To111 15 0,
      .unknown112To119 7 0, .unknown120To123 3 0, .unknown124To125 1 0, .unknown126 0].map
      (fun i => after (exec i (parsingState [] [])) fun s => s.st.typ.toNat) =
      [some 11, some 15, some 31, some 63, some 95, some 111, some 119, some 123, some 125, some 126] := by decide

/-- R104's example, and `HLEN = 512`: `E_HDR_RANGE`. -/
theorem test_hdrEnc :
    after (exec .hdrEnc { State.reset with htype := 1, hlen := 7 }) (fun s => s.tlvbuf.readN 0 s.tlvLen.toNat) = some [0x02, 0x07] ∧
    stAfter (exec .hdrEnc { State.reset with hlen := 512 }) = some ((1 <<< 6) ||| (8 <<< 1)) := by decide

/-- R105's corner cases `FF FF` and one valid byte. -/
theorem test_hdrDec :
    after (exec .hdrDec (tlvState [0xFF, 0xFF])) (fun s => (s.htype, s.hlen)) = some (127, 511) ∧
    after (exec .hdrDec (tlvState [0xFF])) (fun s => (s.st.cause, s.hlen)) = some (.truncHdr, 0) := by decide

/-- R162's example; R126: type code 9 in `REC` faults `E_UNKNOWN_TYPE`. -/
theorem test_tlvEnc :
    after (exec .tlvEnc { State.reset with tlvRec := recordOf (.managementAddress 1 [0xC0, 0x00, 0x02, 0x01] 2 7 [0x2B, 0x06, 0x01, 0x02, 0x01]) })
      (fun s => s.tlvbuf.readN 0 s.tlvLen.toNat) =
      some [0x10, 0x11, 0x05, 0x01, 0xC0, 0x00, 0x02, 0x01, 0x02, 0x00, 0x00, 0x00, 0x07, 0x05, 0x2B, 0x06, 0x01, 0x02, 0x01] ∧
    after (exec .tlvEnc { State.reset with tlvRec := { recordReset with typ := 9 } }) (fun s => (s.st.cause, s.st.typ, s.tlvLen)) =
      some (.unknownType, 9, 0) := by decide

/-- R127's example and its corner case: a ChassisId where a Ttl is expected faults `E_UNEXPECTED_TYPE` on type 1. -/
theorem test_tlvDec :
    after (exec .tlvDec { tlvState [0x06, 0x02, 0x00, 0x3C] with expect := 3 }) (fun s => (s.tlvRec.typ, s.tlvRec.len, s.tlvRec.ttl)) =
      some (3, 2, 60) ∧
    after (exec .tlvDec { tlvState [0x02, 0x07, 0x04] with expect := 3 }) (fun s => (s.st.cause, s.st.typ, s.tlvRec.typ)) =
      some (.unexpectedType, 1, 0) := by decide

/-- R180: only the selected container is emptied. -/
theorem test_duNew :
    after (exec .duNew { State.reset with sel := 1, duTx := triple, duRx := triple }) (fun s => (s.duTx, s.duRx)) = some ([], triple) := by
  decide

/-- R187's example: a PortId on an empty `DU_TX` faults `E_ORD_POSITION` with `REC.type`, and `DU_TX` stays empty. -/
theorem test_duAppend :
    after (exec .duAppend { State.reset with tlvRec := recordOf (.chassisId 4 (.mac mac1)) }) (fun s => s.duTx) = some (triple.take 1) ∧
    after (exec .duAppend { State.reset with tlvRec := recordOf (.portId 5 (.text [0x65])) })
      (fun s => (s.st.cause, s.st.tv, s.st.typ, s.duTx)) = some (.ordPosition, true, 2, []) := by decide

/-- R191's example. -/
theorem test_duSer :
    after (exec .duSer { State.reset with sel := 1, duTx := triple ++ [.endOfLldpdu] })
      (fun s => (s.txbuf.readN 0 s.txLen.toNat, s.txLen)) = some (tripleBytes ++ [0x00, 0x00], 22) := by decide

/-- R201: a slice beyond `RXLEN` faults `E_ILLEGAL_OP`; one inside begins the parse with an empty `DU_RX`. -/
theorem test_duParse :
    after (exec .duParse { State.reset with payLen := 1, duRx := triple }) (fun s => (s.st.cause, s.duRx, s.parsing)) =
      some (.illegalOp, triple, false) ∧
    after (exec .duParse { frameState [0x00, 0x00] with payLen := 2, duRx := triple, op := some 7 }) (fun s => (s.duRx, s.off, s.op, s.parsing)) =
      some ([], 0, some 7, true) := by decide

/-- R195: the triple alone is not complete; with EndOfLLDPDU it is. -/
theorem test_duComplete :
    stAfter (exec .duComplete { State.reset with duRx := triple }) = some 0x00000001 ∧
    stAfter (exec .duComplete { State.reset with duRx := triple ++ [.endOfLldpdu] }) = some 0x20000001 := by decide

/-- R198's example, and an index out of range. -/
theorem test_duGet :
    after (exec .duGet { State.reset with duRx := triple, idx := 2 }) (fun s => (s.tlvRec.typ, s.tlvRec.len, s.tlvRec.ttl)) = some (3, 2, 60) ∧
    after (exec .duGet { State.reset with duRx := triple, idx := 3 }) (fun s => (s.st.cause, s.st.tv, s.tlvRec.typ)) =
      some (.illegalOp, false, 0) := by decide

/-- R222's example; the same frame from the local address does not qualify. -/
theorem test_envClassify :
    after (exec .envClassify
      { frameState ([0x01, 0x80, 0xC2, 0x00, 0x00, 0x0E, 0x00, 0x11, 0x22, 0x33, 0x44, 0x55, 0x88, 0xCC] ++ tripleBytes) with
        localMac := Memory.writeN [] 0 mac1 }) (fun s => (s.st.qual, s.payBase, s.payLen)) = some (true, 14, 20) ∧
    after (exec .envClassify { frameState ([0x01, 0x80, 0xC2, 0x00, 0x00, 0x0E] ++ mac1 ++ [0x88, 0xCC] ++ tripleBytes) with
        localMac := Memory.writeN [] 0 mac1 }) (fun s => (s.st.ok, s.st.qual, s.payBase, s.payLen)) = some (true, false, 0, 0) := by decide

/-- R227's example, and the illegal destination select. -/
theorem test_envBuild :
    after (exec .envBuild { State.reset with localMac := Memory.writeN [] 0 mac1, duTx := triple ++ [.endOfLldpdu] })
      (fun s => (s.txbuf.readN 0 s.txLen.toNat, s.st.word)) =
      some ([0x01, 0x80, 0xC2, 0x00, 0x00, 0x0E] ++ mac1 ++ [0x88, 0xCC] ++ tripleBytes ++ [0x00, 0x00], 0x20000001) ∧
    after (exec .envBuild { State.reset with dstSel := 3 }) (fun s => (s.st.cause, s.txLen)) = some (.illegalOp, 0) := by decide

/-- R230: a qualifying frame begins its parse; one that does not qualify empties `DU_RX` without a fault. -/
theorem test_rxFrame :
    after (exec .rxFrame
      { frameState ([0x01, 0x80, 0xC2, 0x00, 0x00, 0x0E] ++ mac1 ++ [0x88, 0xCC] ++ tripleBytes) with op := some 12 })
      (fun s => (s.payBase, s.payLen, s.op, s.parsing)) = some (14, 20, some 12, true) ∧
    after (exec .rxFrame { frameState tripleBytes with duRx := triple, op := some 12 }) (fun s => (s.st.word, s.duRx, s.parsing)) =
      some (1, [], false) := by decide

/-- R92: `E_ILLEGAL_OP`, category 7. -/
theorem test_reserved_operations :
    stAfter (exec .reservedOp13 State.reset) = some ((7 <<< 6) ||| (17 <<< 1)) ∧
    stAfter (exec .reservedOp14 State.reset) = some ((7 <<< 6) ||| (17 <<< 1)) ∧
    stAfter (exec .reservedOp15 State.reset) = some ((7 <<< 6) ||| (17 <<< 1)) := by decide

/-- The first step after reset runs the word placed: `06 02` is a Ttl at position 0, so `E_ORD_POSITION`; `OP = 8` is DU.COMPLETE. -/
theorem test_withFetchWord :
    after (step (State.reset.withFetchWord 16 0x0602)) (fun s => (s.st.cause, s.st.typ, s.st.off)) = some (.ordPosition, 3, 0) ∧
    stAfter (step (State.reset.withFetchWord 8 8)) = some 1 := by decide +kernel

/-! ### Witnesses: a concrete state and operands that meet the hypotheses of each obligation, clause by clause -/

/-- A host with nothing to do. -/
theorem noReset_of_nil {s : State} (h : s.inputs = []) : NoReset s := fun rest hr => by rw [h] at hr; cases hr

/-- A parse that has taken a ChassisId and has a PortId before it. -/
def midParse : State := parsingState (triple.take 1) [0x04, 0x05, 0x05, 0x65, 0x74, 0x68, 0x30]

theorem midParse_inv : Inv midParse where
  duRx := by
    refine ⟨⟨?_, ?_, ?_, ?_, ?_, ?_, by decide, ?_⟩, by decide⟩ <;> rintro (_ | i) <;>
      simp [midParse, parsingState, triple, kindAt, Tlv.variant, Tlv.cls]
  duTx := by refine ⟨⟨?_, ?_, ?_, ?_, ?_, ?_, by decide, ?_⟩, by decide⟩ <;> simp [midParse, parsingState, State.reset, kindAt]
  status := ⟨by decide, by decide, by decide, by decide, by decide⟩
  rxbuf := ⟨by decide, by decide⟩
  txbuf := ⟨by decide, by decide⟩
  tlvbuf := ⟨by decide, by decide⟩
  localMac := ⟨by decide, by decide⟩
  recAddr := ⟨by decide, by decide⟩
  recOui := ⟨by decide, by decide⟩
  recVal := ⟨by decide, by decide⟩
  rxLen := by decide
  txLen := by decide
  tlvLen := by decide
  parse := fun _ => ⟨.inl rfl, by decide, by decide, by decide, by decide, rfl⟩
  idle := fun h => by cases h

/-- EveryStepKeepsMachineInvariant, NoReachableStateStops, EveryParseEnds. -/
theorem witness_midParse :
    Inv midParse ∧ InputsLegal midParse ∧ NoReset midParse ∧ midParse.parsing = true ∧ ∃ t, step midParse = .next t :=
  ⟨midParse_inv, (fun _ h => by cases h), noReset_of_nil rfl, rfl, _, rfl⟩

/-- StepRunsTheTlvAtTheCursor, the bytes ending at the end of the slice. -/
theorem witness_StepRunsTheTlvAtTheCursor :
    let b : Bytes := [0x04, 0x05, 0x05, 0x65, 0x74, 0x68, 0x30];
    NoReset midParse ∧ midParse.parsing = true ∧ (Instr.portId [0x05, 0x65, 0x74, 0x68, 0x30]).wf = true ∧
    encode (.portId [0x05, 0x65, 0x74, 0x68, 0x30]) = .stream b ∧ midParse.off.toNat + b.length ≤ midParse.payLen.toNat ∧
    midParse.payBase.toNat + midParse.payLen.toNat ≤ midParse.rxLen.toNat ∧ midParse.rxLen.toNat ≤ Config.rxCap ∧
    ∀ k (h : k < b.length), midParse.rxbuf.read (midParse.payBase.toNat + midParse.off.toNat + k) = b[k] :=
  ⟨noReset_of_nil rfl, rfl, rfl, rfl, by decide, by decide, by decide, by decide⟩

/-- StepRunsTheOperationStarted. -/
theorem witness_StepRunsTheOperationStarted :
    (let s : State := { State.reset with op := some 5 }; NoReset s ∧ s.parsing = false ∧ s.op = some 5) ∧
    State.reset.inputs = [] ∧ State.reset.parsing = false ∧ State.reset.op = none :=
  ⟨⟨noReset_of_nil rfl, rfl, rfl⟩, rfl, rfl, rfl⟩

/-- ParseEndsWithoutAnInstruction: no byte left, one byte left, one byte fewer than the header declares. -/
theorem witness_ParseEndsWithoutAnInstruction :
    (let s := parsingState triple []; NoReset s ∧ s.parsing = true ∧ s.payBase.toNat + s.payLen.toNat ≤ s.rxLen.toNat ∧
      s.rxLen.toNat ≤ Config.rxCap ∧ s.off.toNat = s.payLen.toNat) ∧
    (let s := parsingState triple [0x0A]; NoReset s ∧ s.parsing = true ∧ s.payBase.toNat + s.payLen.toNat ≤ s.rxLen.toNat ∧
      s.rxLen.toNat ≤ Config.rxCap ∧ s.off.toNat + 1 = s.payLen.toNat) ∧
    (let s := parsingState triple [0x0A, 0x02, 0x41]; NoReset s ∧ s.parsing = true ∧
      s.payBase.toNat + s.payLen.toNat ≤ s.rxLen.toNat ∧ s.rxLen.toNat ≤ Config.rxCap ∧ s.off.toNat + 2 ≤ s.payLen.toNat ∧
      s.rxbuf.read (s.payBase.toNat + s.off.toNat) = 0x0A ∧ s.rxbuf.read (s.payBase.toNat + s.off.toNat + 1) = 0x02 ∧
      (0x0A : Byte).toNat / 2 = Variant.code .systemName ∧
      s.payLen.toNat < s.off.toNat + 2 + ((0x0A : Byte).toNat % 2 * 256 + (0x02 : Byte).toNat)) :=
  ⟨⟨noReset_of_nil rfl, rfl, by decide, by decide, by decide⟩, ⟨noReset_of_nil rfl, rfl, by decide, by decide, by decide⟩,
    noReset_of_nil rfl, rfl, by decide, by decide, by decide, by decide, by decide, by decide, by decide⟩

/-- DecodeOfEncodeIsTheInstruction at the longest payload, EncodeOfDecodeIsTheCode with a byte behind the TLV. -/
theorem witness_DecodeAndEncode :
    (Instr.organizationallySpecific (List.replicate 511 0)).wf = true ∧
    encode (.ttl [0x00, 0x3C]) = .stream [0x06, 0x02, 0x00, 0x3C] ∧
    decodeTlv [0x06, 0x02, 0x00, 0x3C, 0xFF] = .ok (.ttl [0x00, 0x3C], [0xFF]) := by decide +kernel

/-- DecodeRefusesOnlyTruncation: one byte; one payload byte too few; just enough; the undefined types 9 and 126. -/
theorem witness_DecodeRefusesOnlyTruncation :
    ([0x06] : Bytes).length < 2 ∧ (0x06 : Byte).toNat / 2 = Variant.code .ttl ∧
    ([0x00] : Bytes).length < (0x06 : Byte).toNat % 2 * 256 + (0x02 : Byte).toNat ∧
    (0x06 : Byte).toNat % 2 * 256 + (0x02 : Byte).toNat ≤ ([0x00, 0x3C] : Bytes).length ∧
    9 ≤ (0x12 : Byte).toNat / 2 ∧ (0x12 : Byte).toNat / 2 ≤ 126 ∧ (0xFD : Byte).toNat / 2 = 126 := by decide

/-- HeaderFunctionsAreInverse: the greatest pair, the least length outside. -/
theorem witness_HeaderFunctionsAreInverse : hdrEnc 127 511 = some (0xFF, 0xFF) ∧ 511 < 512 ∧ hdrEnc 127 512 = none := by decide

/-- VariantCodecsRoundTrip and WellFormedValuesAreThoseEncoded: the longest ChassisId text, and bytes that decode. -/
theorem witness_VariantCodecs :
    (Tlv.chassisId 7 (.text (List.replicate 510 0x41))).wf = true ∧ decFrame .ttl [0x06, 0x02, 0x00, 0x3C] = .ok (.ttl 60) := by
  decide +kernel

/-- WireBytesOfEveryVariant: each clause at the ends of its ranges. -/
theorem witness_WireBytesOfEveryVariant :
    mac1.length = 6 ∧ ([0x0A, 0x00, 0x00, 0x01] : Bytes).length = 4 ∧ (List.replicate 16 (0 : Byte)).length = 16 ∧
    ((1 : Byte) ≤ 1 ∧ (7 : Byte) ≤ 7 ∧ (1 : Byte) ≠ 4 ∧ (7 : Byte) ≠ 5 ∧ (1 : Byte) ≠ 3) ∧
    (List.replicate 510 (0x41 : Byte)).length ≤ 510 ∧ utf8Ok (List.replicate 510 0x41) = true ∧
    (List.replicate 255 (0x41 : Byte)).length ≤ 255 ∧ utf8Ok (List.replicate 255 0x41) = true ∧
    ((0x00 : Byte) ++ (0x04 : Byte)) &&& ((0x00 : Byte) ++ (0x14 : Byte)) = (0x00 : Byte) ++ (0x04 : Byte) ∧
    ((1 : Byte) ≤ 3 ∧ (3 : Byte) ≤ 3) ∧ (List.replicate 128 (0 : Byte)).length ≤ 128 ∧ (List.replicate 507 (0 : Byte)).length ≤ 507 := by
  decide +kernel

/-- RecordHoldsTheValueWritten: a value and a record with bytes in its arrays. -/
theorem witness_RecordHoldsTheValueWritten :
    let r := { recordReset with addr := [(0, 9)], oui := [(2, 9)], val := [(0, 1), (510, 9)] };
    (Tlv.managementAddress 2 (List.replicate 16 1) 3 7 (List.replicate 128 2)).wf = true ∧ r.addr.wf = true ∧ r.oui.wf = true ∧
    r.val.wf = true ∧ Variant.managementAddress ∉ [Variant.chassisId, .portId, .organizationallySpecific] := by decide +kernel

/-- RecordHoldsTheValueWritten, the clauses on id kinds and on bytes beyond a length: a text and an IPv4 address, at the first byte
beyond each. -/
theorem witness_RecordHoldsTheValueWritten_idKinds :
    (let v : Tlv := .chassisId 7 (.text [0x41]); v.wf = true ∧ (recordWrite v recordReset).vlen.toNat ≤ 1) ∧
    (let v : Tlv := .portId 4 (.net 1 [10, 0, 0, 1]); v.wf = true ∧ (recordWrite v recordReset).af = 1 ∧ 4 ≤ 4) := by decide

/-- What `Accepts` asks, for the containers of the witnesses below. -/
theorem accepts_intro {du : List Tlv} {k : Variant} {n : Nat} (h : duHasEnd du = false) (hp : mayStandAt k du.length)
    (hs : duLen du + n ≤ 1500) : Accepts du k n := ⟨h, hp, hs⟩

/-- ChassisIdStep, clause by clause, at the ends of the ranges. -/
theorem witness_ChassisIdStep :
    (mac1.length = 6 ∧ Accepts [] .chassisId 9) ∧ (((2 : Byte) = 2 ∧ (List.replicate 16 (0 : Byte)).length = 16) ∧ Accepts [] .chassisId 20) ∧
    ((1 : Byte) ≤ 7 ∧ (7 : Byte) ≤ 7 ∧ (7 : Byte) ≠ 4 ∧ (7 : Byte) ≠ 5 ∧ (List.replicate 510 (0x41 : Byte)).length ≤ 510 ∧
      utf8Ok (List.replicate 510 0x41) = true ∧ Accepts [] .chassisId 513) ∧
    ((0 : Byte) < 1 ∧ (7 : Byte) < 8) ∧ ([] : Bytes).length ≠ 6 ∧ ((0 : Byte) ≠ 1 ∧ (3 : Byte) ≠ 2) ∧
    ((1 : Byte) = 1 ∧ ([0, 0, 0] : Bytes).length ≠ 4) ∧ utf8Ok [0xC3] = false := by
  refine ⟨⟨rfl, accepts_intro rfl rfl (by decide +kernel)⟩, ⟨by decide +kernel, accepts_intro rfl rfl (by decide +kernel)⟩,
    ⟨by decide +kernel, by decide +kernel, by decide +kernel, by decide +kernel, by decide +kernel, by decide +kernel, accepts_intro rfl rfl (by decide +kernel)⟩, ?_⟩
  decide

/-- PortIdStep, clause by clause. -/
theorem witness_PortIdStep :
    let du := triple.take 1;
    (mac1.length = 6 ∧ Accepts du .portId 9) ∧ (((1 : Byte) = 1 ∧ ([10, 0, 0, 1] : Bytes).length = 4) ∧ Accepts du .portId 8) ∧
    ((1 : Byte) ≤ 1 ∧ (1 : Byte) ≠ 3 ∧ (1 : Byte) ≠ 4 ∧ (List.replicate 510 (0x41 : Byte)).length ≤ 510 ∧
      utf8Ok (List.replicate 510 0x41) = true ∧ Accepts du .portId 513) ∧
    ((0 : Byte) < 1 ∧ (7 : Byte) < 8) ∧ mac1.tail.length ≠ 6 ∧ ((0 : Byte) ≠ 1 ∧ (3 : Byte) ≠ 2) ∧
    ((2 : Byte) = 2 ∧ ([0x04, 0xDF, 0x88, 0xA2, 0xB4] : Bytes).length ≠ 16) ∧ utf8Ok [0xFF] = false := by
  refine ⟨⟨rfl, accepts_intro rfl rfl (by decide +kernel)⟩, ⟨by decide +kernel, accepts_intro rfl rfl (by decide +kernel)⟩,
    ⟨by decide +kernel, by decide +kernel, by decide +kernel, by decide +kernel, by decide +kernel, accepts_intro rfl rfl (by decide +kernel)⟩, ?_⟩
  decide

/-- TtlStep. -/
theorem witness_TtlStep : Accepts (triple.take 2) .ttl 4 ∧ ([0x3C] : Bytes).length ≠ 2 ∧ ([0x00, 0x00, 0x3C] : Bytes).length ≠ 2 :=
  ⟨accepts_intro rfl rfl (by decide), by decide, by decide⟩

/-- TextTlvSteps: the empty and the longest text, one byte more, and text that is not UTF-8. -/
theorem witness_TextTlvSteps :
    (utf8Ok [] = true ∧ Accepts triple .portDescription 2) ∧
    ((List.replicate 255 (0x41 : Byte)).length ≤ 255 ∧ utf8Ok (List.replicate 255 0x41) = true ∧ Accepts triple .systemName 257 ∧
      Accepts triple .systemDescription 257) ∧
    255 < (List.replicate 256 (0x41 : Byte)).length ∧ ([0xC3] : Bytes).length ≤ 255 ∧ utf8Ok [0xC3] = false :=
  ⟨⟨rfl, accepts_intro rfl (Nat.le_refl 3) (by decide +kernel)⟩,
    ⟨by decide +kernel, by decide +kernel, accepts_intro rfl (Nat.le_refl 3) (by decide +kernel), accepts_intro rfl (Nat.le_refl 3) (by decide +kernel)⟩,
    by decide +kernel, by decide +kernel, by decide +kernel⟩

/-- SystemCapabilitiesStep. -/
theorem witness_SystemCapabilitiesStep :
    (((0x00 : Byte) ++ (0x04 : Byte)) &&& ((0x00 : Byte) ++ (0x14 : Byte)) = (0x00 : Byte) ++ (0x04 : Byte) ∧
      Accepts triple .systemCapabilities 6) ∧
    ((0x00 : Byte) ++ (0x02 : Byte)) &&& ((0x00 : Byte) ++ (0x01 : Byte)) ≠ (0x00 : Byte) ++ (0x02 : Byte) ∧
    ([0x00, 0x14, 0x00] : Bytes).length ≠ 4 :=
  ⟨⟨by decide, accepts_intro rfl (Nat.le_refl 3) (by decide)⟩, by decide, by decide⟩

/-- ManagementAddressStep: a payload for each clause, where the clauses meet. -/
theorem witness_ManagementAddressStep :
    ((2 : Byte) = 2 ∧ (List.replicate 16 (0 : Byte)).length = 16 ∧ (1 : Byte) ≤ 3 ∧ (3 : Byte) ≤ 3 ∧
      (List.replicate 128 (0 : Byte)).length ≤ 128 ∧ Accepts triple .managementAddress 154) ∧
    (let p : Bytes := [6, 1, 0, 0, 0, 0, 1, 0, 0, 0, 0, 0]; p.length < (p.getD 0 0).toNat + 7) ∧
    (let p : Bytes := [5, 1, 0, 0, 0, 0, 1, 0, 0, 0, 0, 1]; 5 + 7 ≤ p.length ∧ p.length < 5 + 7 + (p.getD 11 0).toNat) ∧
    (let p : Bytes := [5, 1, 0, 0, 0, 0, 1, 0, 0, 0, 0, 0, 9]; 5 + 7 + (p.getD 11 0).toNat < p.length) ∧
    (let p : Bytes := [0, 1, 0, 0, 0, 0, 0]; p.length = 0 + 7 + (p.getD 6 0).toNat) ∧
    (let p : Bytes := [5, 3, 0, 0, 0, 0, 1, 0, 0, 0, 0, 0]; p.length = 5 + 7 + (p.getD 11 0).toNat ∧ p.getD 1 0 ≠ 1 ∧ p.getD 1 0 ≠ 2) ∧
    (let p : Bytes := [4, 1, 0, 0, 0, 1, 0, 0, 0, 0, 0]; p.length = 4 + 7 + (p.getD 10 0).toNat ∧ p.getD 1 0 = 1 ∧ 4 ≠ 5) ∧
    (let p : Bytes := [5, 1, 0, 0, 0, 0, 1, 0, 0, 0, 0, 129] ++ List.replicate 129 0;
      p.length = 5 + 7 + (p.getD 11 0).toNat ∧ p.getD 1 0 = 1 ∧ 128 < (p.getD 11 0).toNat) ∧
    (let p : Bytes := [5, 1, 0, 0, 0, 0, 4, 0, 0, 0, 0, 0]; p.length = 5 + 7 + (p.getD 11 0).toNat ∧ p.getD 1 0 = 1 ∧ 3 < p.getD 6 0) := by
  refine ⟨⟨rfl, by decide, by decide, by decide, by decide, accepts_intro rfl (Nat.le_refl 3) (by decide)⟩, ?_⟩
  decide

/-- OrganizationallySpecificStep: the longest value, and a value that fills the LLDPDU to 1500 bytes exactly. -/
theorem witness_OrganizationallySpecificStep :
    ((List.replicate 507 (0 : Byte)).length ≤ 507 ∧ Accepts triple .organizationallySpecific 513) ∧
    Accepts longDu .organizationallySpecific (6 + 448) ∧ duLen longDu + (6 + 448) = 1500 ∧ ([0x00, 0x80, 0xC2] : Bytes).length < 4 :=
  ⟨⟨by decide +kernel, accepts_intro rfl (Nat.le_refl 3) (by decide +kernel)⟩,
    accepts_intro (by decide +kernel) (by show 3 ≤ longDu.length; decide) (by decide +kernel), by decide +kernel, by decide +kernel⟩

/-- EndOfLldpduStep. -/
theorem witness_EndOfLldpduStep : Accepts triple .endOfLldpdu 2 ∧ ([0x00] : Bytes) ≠ [] :=
  ⟨accepts_intro rfl (Nat.le_refl 3) (by decide), by decide⟩

/-- UndefinedTypesFault. -/
theorem witness_UndefinedTypesFault : (parsingState [] []).parsing = true := rfl

/-- TlvStepOrderingFaults: every clause. -/
theorem witness_TlvStepOrderingFaults :
    (pdec .endOfLldpdu [] = .ok .endOfLldpdu ∧ pdec .ttl [0, 60] = .ok (.ttl 60) ∧ pdec .systemName [] = .ok (.systemName []) ∧
      pdec .organizationallySpecific (List.replicate 453 0) = .ok (.organizationallySpecific [0, 0, 0] 0 (List.replicate 449 0))) ∧
    duHasEnd (triple ++ [.endOfLldpdu]) = true ∧ duHasEnd triple = false ∧ ¬ mayStandAt .ttl triple.length ∧
    ¬ mayStandAt .systemName (triple.take 2).length ∧ duHasEnd longDu = false ∧ mayStandAt .organizationallySpecific longDu.length ∧
    1500 < duLen longDu + (2 + (List.replicate 453 (0 : Byte)).length) :=
  ⟨by decide +kernel, by decide, by decide, by show ¬ triple.length = 2; decide, by show ¬ 3 ≤ (triple.take 2).length; decide,
    by decide, by show 3 ≤ longDu.length; decide, by decide +kernel⟩

/-- FaultEntryWrites: inside a parse and outside one. -/
theorem witness_FaultEntryWrites : midParse.parsing = true ∧ State.reset.parsing = false := ⟨rfl, rfl⟩

/-- HdrEncResult: the greatest operands, and the least ones outside. -/
theorem witness_HdrEncResult :
    (let s : State := { State.reset with htype := 127, hlen := 511 }; s.htype.toNat ≤ 127 ∧ s.hlen.toNat ≤ 511 ∧ s.tlvbuf.wf = true) ∧
    511 < ({ State.reset with hlen := 512 } : State).hlen.toNat ∧ 127 < ({ State.reset with htype := 128 } : State).htype.toNat := by decide

/-- HdrDecResult. -/
theorem witness_HdrDecResult : 2 ≤ (tlvState [0x06, 0x02]).tlvLen.toNat ∧ (tlvState [0x06]).tlvLen.toNat < 2 := by decide

/-- TlvEncResult. -/
theorem witness_TlvEncResult :
    let s : State := { State.reset with tlvRec := recordOf (.ttl 60) };
    recordValue s.tlvRec = some (.ttl 60) ∧ (Tlv.ttl 60).wf = true ∧ s.tlvbuf.wf = true := by decide

/-- RecordFaultsOfEncodeAndAppend: a record for each of its cases. -/
theorem witness_RecordFaultsOfEncodeAndAppend :
    RecordFault { recordReset with typ := 9 } .unknownType ∧ RecordFault { recordReset with typ := 126 } .unknownType ∧
    RecordFault { recordReset with typ := 1, sub := 8 } .subtype ∧ RecordFault { recordReset with typ := 2, sub := 3, vlen := 5 } .lenRange ∧
    RecordFault { recordReset with typ := 1, sub := 5, af := 3 } .af ∧
    RecordFault { recordReset with typ := 1, sub := 7, vlen := 511 } .lenRange ∧
    RecordFault { recordReset with typ := 2, sub := 5, vlen := 1, val := [(0, 0xC3)] } .utf8 ∧
    RecordFault { recordReset with typ := 4, vlen := 256 } .lenRange ∧
    RecordFault { recordReset with typ := 6, vlen := 1, val := [(0, 0xFF)] } .utf8 ∧
    RecordFault { recordReset with typ := 7, capEn := 2, capSup := 1 } .capSubset ∧
    RecordFault { recordReset with typ := 8 } .af ∧ RecordFault { recordReset with typ := 8, af := 1, ifsub := 4 } .subtype ∧
    RecordFault { recordReset with typ := 8, af := 2, ifsub := 3, vlen := 129 } .lenRange ∧
    RecordFault { recordReset with typ := 127, vlen := 508 } .lenRange :=
  ⟨.unknownType (by decide), .unknownType (by decide), .idSubtype (by decide) (by decide), .idMac (by decide) (by decide),
    .idFamily (by decide) (by decide), .idTextLong (by decide) (by decide) (by decide),
    .idTextUtf8 (by decide) (by decide) (by decide) (by decide), .textLong (by decide) (by decide),
    .textUtf8 (by decide) (by decide) (by decide), .capabilities (by decide) (by decide), .mgmtFamily (by decide) (by decide),
    .mgmtSubtype (by decide) (by decide) (by decide), .mgmtOid (by decide) (by decide) (by decide) (by decide), .orgLong (by decide) (by decide)⟩

/-- TlvDecResult. -/
theorem witness_TlvDecResult :
    let s : State := { tlvState [0x06, 0x02, 0x00, 0x3C] with expect := 3 };
    (Tlv.ttl 60).wf = true ∧ s.expect.toNat = (Tlv.ttl 60).variant.code ∧ s.tlvLen.toNat ≤ Config.tlvCap ∧
    enc (.ttl 60) = .ok (s.tlvbuf.readN 0 s.tlvLen.toNat) := by decide

/-- TlvDecFaults: each clause, one byte off the exact length on both sides. -/
theorem witness_TlvDecFaults :
    (let s : State := { State.reset with expect := 126 }; s.tlvLen.toNat ≤ Config.tlvCap ∧ 9 ≤ s.expect.toNat ∧ s.expect.toNat ≤ 126) ∧
    (let s : State := { tlvState [0x06] with expect := 3 }; s.expect.toNat = Variant.code .ttl ∧ s.tlvLen.toNat < 2) ∧
    (let s : State := { tlvState [0x02, 0x07] with expect := 3 };
      s.expect.toNat = Variant.code .ttl ∧ 2 ≤ s.tlvLen.toNat ∧ (s.tlvbuf.read 0).toNat / 2 ≠ Variant.code .ttl) ∧
    (let s : State := { tlvState [0x06, 0x02, 0x00] with expect := 3 };
      s.expect.toNat = Variant.code .ttl ∧ 2 ≤ s.tlvLen.toNat ∧ (s.tlvbuf.read 0).toNat / 2 = Variant.code .ttl ∧
      s.tlvLen.toNat < 2 + ((s.tlvbuf.read 0).toNat % 2 * 256 + (s.tlvbuf.read 1).toNat)) ∧
    (let s : State := { tlvState [0x06, 0x02, 0x00, 0x3C, 0x00] with expect := 3 };
      s.expect.toNat = Variant.code .ttl ∧ (s.tlvbuf.read 0).toNat / 2 = Variant.code .ttl ∧
      2 + ((s.tlvbuf.read 0).toNat % 2 * 256 + (s.tlvbuf.read 1).toNat) < s.tlvLen.toNat) ∧
    (let s : State := { tlvState [0x06, 0x01, 0x3C] with expect := 3 };
      s.expect.toNat = Variant.code .ttl ∧ (s.tlvbuf.read 0).toNat / 2 = Variant.code .ttl ∧
      (s.tlvbuf.read 0).toNat % 2 * 256 + (s.tlvbuf.read 1).toNat = 1 ∧
      s.tlvLen.toNat = 2 + 1 ∧ pdec .ttl (s.tlvbuf.readN 2 1) = .error .lenRange) := by decide

/-- DuNewResult. -/
theorem witness_DuNewResult : State.reset.sel = 0 ∧ ({ State.reset with sel := 1 } : State).sel = 1 := ⟨rfl, rfl⟩

/-- DuAppendResult: every clause. -/
theorem witness_DuAppendResult :
    (recordValue (recordOf (.ttl 60)) = some (.ttl 60) ∧ (Tlv.ttl 60).wf = true ∧
      Accepts (triple.take 2) (Tlv.ttl 60).variant (2 + tlvLength (.ttl 60))) ∧
    (recordValue (recordOf .endOfLldpdu) = some .endOfLldpdu ∧ Tlv.endOfLldpdu.wf = true ∧
      duHasEnd (triple ++ [.endOfLldpdu]) = true ∧ Tlv.ttl 60 ≠ .endOfLldpdu) ∧
    (duHasEnd triple = false ∧ ¬ mayStandAt (Tlv.ttl 60).variant triple.length ∧ (Tlv.ttl 60).variant ∈ [Variant.chassisId, .portId, .ttl]) ∧
    (duHasEnd (triple.take 2) = false ∧ ¬ mayStandAt Tlv.endOfLldpdu.variant (triple.take 2).length ∧
      Tlv.endOfLldpdu.variant ∉ [Variant.chassisId, .portId, .ttl]) ∧
    (let v : Tlv := .organizationallySpecific [0, 0, 0] 0 (List.replicate 449 0);
      recordValue (recordOf v) = some v ∧ v.wf = true ∧ duHasEnd longDu = false ∧ mayStandAt v.variant longDu.length ∧
      1500 < duLen longDu + (2 + tlvLength v)) :=
  ⟨⟨by decide, rfl, accepts_intro rfl rfl (by decide)⟩, by decide, ⟨by decide, by show ¬ triple.length = 2; decide, by decide⟩,
    ⟨by decide, by show ¬ 3 ≤ (triple.take 2).length; decide, by decide⟩,
    by decide +kernel, by decide +kernel, by decide, by show 3 ≤ longDu.length; decide, by decide +kernel⟩

/-- DuSerResult. -/
theorem witness_DuSerResult :
    let s : State := { State.reset with sel := 1, duTx := longDu };
    duLen (if s.sel = 0 then s.duRx else s.duTx) ≤ 1500 ∧ s.txbuf.wf = true := by decide +kernel

/-- DuParseBegins: the slice ends at the last valid byte, and one byte beyond it. -/
theorem witness_DuParseBegins :
    (let s : State := { frameState [0x00, 0x00] with payBase := 1, payLen := 1 };
      s.parsing = false ∧ s.payBase.toNat + s.payLen.toNat ≤ s.rxLen.toNat) ∧
    (let s : State := { frameState [0x00, 0x00] with payBase := 1, payLen := 2 };
      s.parsing = false ∧ s.rxLen.toNat < s.payBase.toNat + s.payLen.toNat) := by decide

/-- DuGetResult: the last element, and the index behind it. -/
theorem witness_DuGetResult :
    (let s : State := { State.reset with duRx := triple, idx := 2 }; (if s.sel = 0 then s.duRx else s.duTx)[s.idx.toNat]? = some (.ttl 60)) ∧
    (let s : State := { State.reset with duRx := triple, idx := 3 }; (if s.sel = 0 then s.duRx else s.duTx).length ≤ s.idx.toNat) := by decide

/-- The three statements on reachable containers: the triple is one. -/
theorem witness_triple_reachable : DuReachable triple := by
  have h1 : DuReachable (triple.take 1) := .append .empty (t := .chassisId 4 (.mac mac1)) (by decide) (by decide)
  have h2 : DuReachable (triple.take 2) := .append h1 (t := .portId 5 (.text [0x65, 0x74, 0x68, 0x30])) (by decide) (by decide)
  exact .append h2 (t := .ttl 60) (by decide) (by decide)

/-- ParseOfSerializeIsTheContainer: a parse that begins on the triple's bytes. -/
theorem witness_ParseOfSerializeIsTheContainer :
    let s := parsingState [] tripleBytes;
    DuReachable triple ∧ s.parsing = true ∧ s.op = some 7 ∧ NoReset s ∧ s.duRx = [] ∧ s.off = 0 ∧
    s.payBase.toNat + s.payLen.toNat ≤ s.rxLen.toNat ∧ s.rxLen.toNat ≤ Config.rxCap ∧
    s.rxbuf.readN s.payBase.toNat s.payLen.toNat = serialize triple :=
  ⟨witness_triple_reachable, rfl, rfl, noReset_of_nil rfl, rfl, rfl, by decide, by decide, by decide⟩

/-- SerializeOfParseIsTheBytesConsumed: an empty slice ends in one step without a fault, one byte with a fault. -/
theorem witness_SerializeOfParseIsTheBytesConsumed :
    (let s := parsingState [] []; s.parsing = true ∧ s.duRx = [] ∧ s.off = 0 ∧ s.inputs = [] ∧
      ∃ t, Host.Core.run Sys2Proof.core 1 s = .next t ∧ t.parsing = false ∧ t.st.ok = true) ∧
    (let s := parsingState [] [0x02]; s.parsing = true ∧ s.duRx = [] ∧ s.off = 0 ∧ s.inputs = [] ∧
      ∃ t, Host.Core.run Sys2Proof.core 1 s = .next t ∧ t.parsing = false ∧ t.st.ok = false) :=
  ⟨⟨rfl, rfl, rfl, rfl, _, rfl, rfl, rfl⟩, rfl, rfl, rfl, rfl, _, rfl, rfl, rfl⟩

/-- EnvClassifyResult and RxFrameResult: a frame that qualifies and one a byte too short. -/
theorem witness_EnvClassify_RxFrame :
    (let s := frameState ([0x01, 0x80, 0xC2, 0x00, 0x00, 0x03] ++ mac1 ++ [0x88, 0xCC]);
      s.rxLen.toNat ≤ Config.rxCap ∧ s.parsing = false ∧ qualifies (s.rxbuf.readN 0 s.rxLen.toNat) (s.localMac.readN 0 6) = true) ∧
    (let s := frameState ([0x01, 0x80, 0xC2, 0x00, 0x00, 0x03] ++ mac1 ++ [0x88]);
      s.rxLen.toNat ≤ Config.rxCap ∧ s.parsing = false ∧ qualifies (s.rxbuf.readN 0 s.rxLen.toNat) (s.localMac.readN 0 6) = false) := by
  decide

/-- RX.FRAME started on a frame that qualifies and whose payload is one byte, a fault, with a descriptor of the host's in place. -/
def badFrame : State :=
  { frameState ([0x01, 0x80, 0xC2, 0x00, 0x00, 0x0E] ++ mac1 ++ [0x88, 0xCC, 0x02]) with op := some 12, payBase := 3, payLen := 5 }

theorem badFrame_inv : Inv badFrame where
  duRx := by refine ⟨⟨?_, ?_, ?_, ?_, ?_, ?_, by decide, ?_⟩, by decide⟩ <;> simp [badFrame, frameState, State.reset, kindAt]
  duTx := by refine ⟨⟨?_, ?_, ?_, ?_, ?_, ?_, by decide, ?_⟩, by decide⟩ <;> simp [badFrame, frameState, State.reset, kindAt]
  status := ⟨by decide, by decide, by decide, by decide, by decide⟩
  rxbuf := ⟨by decide, by decide⟩
  txbuf := ⟨by decide, by decide⟩
  tlvbuf := ⟨by decide, by decide⟩
  localMac := ⟨by decide, by decide⟩
  recAddr := ⟨by decide, by decide⟩
  recOui := ⟨by decide, by decide⟩
  recVal := ⟨by decide, by decide⟩
  rxLen := by decide
  txLen := by decide
  tlvLen := by decide
  parse := fun h => by cases h
  idle := fun _ => rfl

/-- RxFrameRunsToItsEnd: that frame, whose parse ends by a fault in the second step; the descriptor is the host's (R245) or RX.FRAME's
(R292). -/
theorem witness_RxFrameRunsToItsEnd :
    Inv badFrame ∧ NoReset badFrame ∧ badFrame.parsing = false ∧ badFrame.op = some 12 ∧
    qualifies (badFrame.rxbuf.readN 0 badFrame.rxLen.toNat) (badFrame.localMac.readN 0 6) = true ∧
    ∃ t, Host.Core.run Sys2Proof.core 2 badFrame = .next t ∧ t.st.ok = false ∧ t.st.off = 0 ∧ (t.payBase, t.payLen) = if Config.rxFaultRestoresPay = true then (3, 5) else (14, 1) :=
  ⟨badFrame_inv, noReset_of_nil rfl, rfl, rfl, by decide, _, rfl, rfl, rfl, rfl⟩

/-- EnvBuildResult. -/
theorem witness_EnvBuildResult :
    (let s : State := { State.reset with duTx := longDu }; duLen s.duTx ≤ 1500 ∧ s.dstSel ≠ 3 ∧ s.txbuf.wf = true) ∧
    ({ State.reset with dstSel := 3 } : State).dstSel = 3 := by decide +kernel

/-- ReservedOperationsFault. -/
theorem witness_ReservedOperationsFault : State.reset.parsing = false := rfl

/-- FaultCausesAreThoseListed: an operation, and a TLV inside a parse, that end their operation with a fault. -/
theorem witness_FaultCausesAreThoseListed :
    (let s : State := { State.reset with op := some 13 };
      s.op ≠ none ∧ isTlv .reservedOp13 = false ∧ ∃ t, exec .reservedOp13 s = .next t ∧ t.op = none) ∧
    (midParse.op ≠ none ∧ isTlv (.ttl []) = true ∧ duHasEnd midParse.duRx = false ∧
      ∃ t, exec (.ttl []) midParse = .next t ∧ t.op = none) :=
  ⟨⟨by decide, rfl, _, rfl, rfl⟩, by decide, rfl, rfl, _, rfl, rfl⟩

/-- InstructionsWriteOnlyTheirResults: an instruction outside every list it names, and one inside a parse. -/
theorem witness_InstructionsWriteOnlyTheirResults :
    (∃ t, exec .duComplete State.reset = .next t) ∧ isTlv .duComplete = false ∧ State.reset.parsing = false ∧
    Instr.duComplete ∉ [Instr.hdrDec, .tlvDec, .duGet, .hdrEnc, .tlvEnc, .duSer, .envBuild, .envClassify, .rxFrame, .duNew, .duAppend, .duParse] ∧
    ∃ t, exec (.ttl []) midParse = .next t :=
  ⟨⟨_, rfl⟩, rfl, rfl, by decide, _, rfl⟩

/-- ResetAbandonsTheOperation: a reset inside a parse. -/
theorem witness_ResetAbandonsTheOperation :
    ({ midParse with inputs := [.reset, .start 8] } : State).inputs = .reset :: [.start 8] := rfl

/-- HostWaitsForTheOperation: an input waits while a parse runs, and while an operation is started. -/
theorem witness_HostWaitsForTheOperation :
    (let s : State := { midParse with inputs := [.writeSel 1] }; NoReset s ∧ s.parsing = true ∧ ∃ t, step s = .next t) ∧
    (let s : State := { State.reset with op := some 8, inputs := [.writeSel 1] }; NoReset s ∧ s.op ≠ none ∧ ∃ t, step s = .next t) :=
  ⟨⟨(fun _ h => by cases h), rfl, _, rfl⟩, (fun _ h => by cases h), by decide, _, rfl⟩

/-- HostInputsWriteTheirRegister: the last address and the greatest length of each space, and one above. -/
theorem witness_HostInputsWriteTheirRegister :
    (let s : State := { State.reset with inputs := [.writeRxByte 1513 7] };
      s.inputs = .writeRxByte 1513 7 :: [] ∧ s.parsing = false ∧ s.op = none ∧ 1513 < Config.rxCap) ∧
    State.reset.rxbuf.wf = true ∧ State.reset.tlvbuf.wf = true ∧ State.reset.localMac.wf = true ∧ Config.rxCap ≤ 1514 ∧
    (1514 : BitVec 16).toNat ≤ Config.rxCap ∧ Config.rxCap < (1515 : BitVec 16).toNat ∧ 512 < 513 ∧ 513 ≤ 513 ∧
    (513 : BitVec 10).toNat ≤ 513 ∧ 513 < (514 : BitVec 10).toNat := by decide

/-- HostWritesOneFieldOfTheRecord: a write of the last byte of `REC.val`, over one that is there. -/
theorem witness_HostWritesOneFieldOfTheRecord :
    let s : State := { State.reset with tlvRec := { recordReset with val := [(510, 9)] }, inputs := [.writeRecord (.val 510 0)] };
    s.inputs = .writeRecord (.val 510 0) :: [] ∧ s.parsing = false ∧ s.op = none ∧ s.tlvRec.val.wf = true ∧
    s.tlvRec.addr.wf = true ∧ s.tlvRec.oui.wf = true := by decide

end Sys2Proof.Tests
end

section
/-! Which act the step makes outside a parse (00_scope R8, 60_exceptions R263). -/

namespace Sys2Proof.Proofs.Scope

open Sys2Proof Sys2Proof.Machine

/-- R8, R90: the operation a started engine runs is the one its port code decodes to. -/
theorem step_of_op_started {s : State} {op : BitVec 4} (hreset : NoReset s) (hparse : s.parsing = false)
    (hop : s.op = some op) : step s = exec (decodeOp op) s :=
  step_instr (fetch_op hreset hparse hop)

/-- R263: an engine with nothing started and no host input stays as it is. -/
theorem step_of_idle {s : State} (hin : s.inputs = []) (hparse : s.parsing = false) (hop : s.op = none) :
    step s = .next s :=
  step_settled (fetch_idle hin hparse hop)

/-- Settles O7: the fetch picks the started operation, or nothing when the engine is idle, and one step carries that out. -/
theorem stepRunsTheOperationStarted : Obligations.StepRunsTheOperationStarted := by
  unfold Obligations.StepRunsTheOperationStarted
  constructor
  · intro s op hreset hparse hop
    exact step_of_op_started hreset hparse hop
  · intro s hin hparse hop
    exact step_of_idle hin hparse hop

end Sys2Proof.Proofs.Scope
end

section
/-! The state after reset (10_state R37). -/

namespace Sys2Proof.Proofs.Reset

open Sys2Proof Sys2Proof.Machine

/-- R188: the empty container meets every invariant, having no element that could break one. -/
theorem duInv_nil : DuInv [] := by
  refine ⟨⟨?_, ?_, ?_, ?_, ?_, ?_, ?_, ?_⟩, ?_⟩ <;> simp [kindAt]

/-- R30: what an operation that ends well writes into `ST` is a STATUS some rule writes. -/
theorem statusInv_statusOk : StatusInv statusOk :=
  ⟨rfl, rfl, fun _ => rfl, fun _ => ⟨rfl, rfl, Stop.noConfusion⟩, Bool.noConfusion⟩

/-- R33: bytes nothing has written are canonical and within every capacity. -/
theorem memInv_nil (cap : Nat) : MemInv cap [] := ⟨rfl, rfl⟩

/-- Settles O1: each value R37 gives is the one `State.reset` is built with; `ST` reads 1 through its 32-bit view. -/
theorem resetValuesOfTheSpec : Obligations.ResetValuesOfTheSpec := by
  unfold Obligations.ResetValuesOfTheSpec
  have status_reads_one : State.reset.st.word = 1 := by decide
  exact ⟨rfl, rfl, rfl, status_reads_one, rfl, rfl, rfl, rfl, rfl, rfl, rfl, rfl, rfl, rfl, rfl, rfl⟩

/-- Settles O2: empty containers, a plain `ST`, empty byte arrays, lengths 0, and no parse running. -/
theorem resetMeetsMachineInvariant : Obligations.ResetMeetsMachineInvariant where
  duRx := duInv_nil
  duTx := duInv_nil
  status := statusInv_statusOk
  rxbuf := memInv_nil _
  txbuf := memInv_nil _
  tlvbuf := memInv_nil _
  localMac := memInv_nil _
  recAddr := memInv_nil _
  recOui := memInv_nil _
  recVal := memInv_nil _
  rxLen := Nat.zero_le _
  txLen := Nat.zero_le _
  tlvLen := Nat.zero_le _
  parse := Bool.noConfusion
  idle _ := rfl

end Sys2Proof.Proofs.Reset
end

section
/-! Where the fields of STATUS stand in its 32-bit view (10_state R30). -/

namespace Sys2Proof.Proofs.StatusWord

open Sys2Proof Sys2Proof.Machine

/-- Settles O55: the fields below the one sought are passed one by one, `start` going down by the width of each, and then the field
sought stands lowest; `ST.stop`, the highest, stands alone. -/
theorem statusWordLayout : Obligations.StatusWordLayout := by
  unfold Obligations.StatusWordLayout
  intro st
  unfold Status.word
  refine ⟨?ok, ?cause, ?cat, ?tv, ?typ, ?off, ?qual, ?complete, ?stop⟩
  all_goals repeat rw [BitVec.extractLsb'_append_eq_of_le (by omega)]
  case stop => exact BitVec.extractLsb'_eq_self
  all_goals exact BitVec.extractLsb'_append_eq_right

end Sys2Proof.Proofs.StatusWord
end

section
/-! What an idle block does with the host's next input (00_scope R8, R9; 10_state R20, R31, R33). -/

namespace Sys2Proof.Proofs.HostPort

open Sys2Proof Sys2Proof.Machine

/-- R9: one step of an idle block takes the input at the head, whichever it is. -/
theorem step_of_input {s : State} {a : HostInput} {rest : List HostInput} (hin : s.inputs = a :: rest)
    (hparse : s.parsing = false) (hop : s.op = none) : step s = acceptInput a { s with inputs := rest } :=
  step_settled (fetch_input hin hparse hop)

section
variable (s : State)

/-! ### The inputs that have a bound (R33, 93 U6) -/

theorem acceptInput_writeRxByte_inside {x : Nat} (v : Byte) (h : x < Config.rxCap) :
    acceptInput (.writeRxByte x v) s = .next { s with rxbuf := s.rxbuf.write x v } := if_pos h

theorem acceptInput_writeRxByte_outside {x : Nat} (v : Byte) (h : Config.rxCap ≤ x) :
    acceptInput (.writeRxByte x v) s = .fault (.noSuchAddress .rxbuf) := if_neg (Nat.not_lt.mpr h)

theorem acceptInput_writeRxLen_inside {v : BitVec 16} (h : v.toNat ≤ Config.rxCap) :
    acceptInput (.writeRxLen v) s = .next { s with rxLen := v } := if_pos h

theorem acceptInput_writeRxLen_above {v : BitVec 16} (h : Config.rxCap < v.toNat) :
    acceptInput (.writeRxLen v) s = .refused (.lengthAboveCapacity .rxbuf) := if_neg (Nat.not_le.mpr h)

theorem acceptInput_writeTlvByte_inside {x : Nat} (v : Byte) (h : x < Config.tlvCap) :
    acceptInput (.writeTlvByte x v) s = .next { s with tlvbuf := s.tlvbuf.write x v } := if_pos h

theorem acceptInput_writeTlvByte_outside {x : Nat} (v : Byte) (h : Config.tlvCap ≤ x) :
    acceptInput (.writeTlvByte x v) s = .fault (.noSuchAddress .tlvbuf) := if_neg (Nat.not_lt.mpr h)

theorem acceptInput_writeTlvLen_inside {v : BitVec 10} (h : v.toNat ≤ Config.tlvCap) :
    acceptInput (.writeTlvLen v) s = .next { s with tlvLen := v } := if_pos h

theorem acceptInput_writeTlvLen_above {v : BitVec 10} (h : Config.tlvCap < v.toNat) :
    acceptInput (.writeTlvLen v) s = .refused (.lengthAboveCapacity .tlvbuf) := if_neg (Nat.not_le.mpr h)

end

/-- Settles O59: the step is `acceptInput` of the input at the head; the inputs without a bound have one outcome, the four with a bound
one on each side of it, and a byte written is `ByteWritten` by the law of `Memory.write`. -/
theorem hostInputsWriteTheirRegister : Obligations.HostInputsWriteTheirRegister := by
  unfold Obligations.HostInputsWriteTheirRegister
  intro s a rest hin hparse hop
  rw [step_of_input hin hparse hop]
  refine ⟨?start, ?record, ?htype, ?hlen, ?localMac, ?dstSel, ?expect, ?sel, ?idx, ?payBase, ?payLen, ?rxByte, ?rxLen, ?tlvByte,
    ?tlvLen⟩
  case localMac =>
    rintro i v rfl
    exact ⟨rfl, fun hwf => byteWritten_write hwf i.val v⟩
  case rxByte =>
    rintro x v rfl
    exact ⟨fun h => ⟨acceptInput_writeRxByte_inside _ v h, fun hwf => byteWritten_write hwf x v⟩,
      acceptInput_writeRxByte_outside _ v⟩
  case rxLen =>
    rintro v rfl
    exact ⟨acceptInput_writeRxLen_inside _, acceptInput_writeRxLen_above _⟩
  case tlvByte =>
    rintro x v rfl
    exact ⟨fun h => ⟨acceptInput_writeTlvByte_inside _ v h, fun hwf => byteWritten_write hwf x v⟩,
      acceptInput_writeTlvByte_outside _ v⟩
  case tlvLen =>
    rintro v rfl
    exact ⟨acceptInput_writeTlvLen_inside _, acceptInput_writeTlvLen_above _⟩
  all_goals
    rintro v rfl
    rfl

/-- What a host write of one byte of an array of `REC` does to the array (R22): still canonical, and only that byte changed. -/
theorem arrayByte_written {m : Memory} (i : Nat) (v : Byte) (hwf : m.wf = true) :
    (m.write i v).wf = true ∧ ByteWritten i v m (m.write i v) :=
  ⟨wf_write i v hwf, byteWritten_write hwf i v⟩

/-- Settles O60: the bank after the step is `writeRecord` of it, which updates the one field or array the write names. -/
theorem hostWritesOneFieldOfTheRecord : Obligations.HostWritesOneFieldOfTheRecord := by
  unfold Obligations.HostWritesOneFieldOfTheRecord
  intro s w rest hin hparse hop
  refine ⟨writeRecord w s.tlvRec, step_of_input hin hparse hop, ?typ, ?len, ?sub, ?af, ?addr, ?ttl, ?capSup, ?capEn, ?ifsub, ?ifnum,
    ?oui, ?vlen, ?val⟩
  case addr | oui | val =>
    rintro i v rfl
    exact ⟨rfl, arrayByte_written i.val v⟩
  all_goals
    rintro v rfl
    rfl

end Sys2Proof.Proofs.HostPort
end

section
/-! The TLV record register bank (10_state R22, R23): what `REC <- v` leaves in each register, and what `value(REC)` reads back. -/

namespace Sys2Proof.Proofs.Record

open Sys2Proof Sys2Proof.Machine

/-! ### The columns `val` and `addr` of R23's table -/

/-- The bytes an id value puts into `REC.val` (R23): a MAC address or a text. -/
def idVal : IdValue → Option Bytes
  | .mac b | .text b => some b
  | .net _ _ => none

/-- The family and address an id value puts into `REC.af` and `REC.addr` (R23). -/
def idAddr : IdValue → Option (Byte × Bytes)
  | .net af addr => some (af, addr)
  | .mac _ | .text _ => none

/-- The bytes a value puts into `REC.val`, with their number in `REC.vlen` (R23). -/
def recVal : Tlv → Option Bytes
  | .chassisId _ idv | .portId _ idv => idVal idv
  | .portDescription b | .systemName b | .systemDescription b | .managementAddress _ _ _ _ b | .organizationallySpecific _ _ b => some b
  | .endOfLldpdu | .ttl _ | .systemCapabilities _ _ => none

/-- The family and address a value puts into `REC.af` and `REC.addr` (R23). -/
def recAddr : Tlv → Option (Byte × Bytes)
  | .chassisId _ idv | .portId _ idv => idAddr idv
  | .managementAddress af addr _ _ _ => some (af, addr)
  | _ => none

theorem recVal_eq_none {v : Tlv} (h : v.variant ∈ [.endOfLldpdu, .ttl, .systemCapabilities]) : recVal v = none := by
  cases v with
  | endOfLldpdu | ttl | systemCapabilities => rfl
  | _ => simp [Tlv.variant] at h

theorem recAddr_eq_none {v : Tlv} (h : v.variant ∉ [.chassisId, .portId, .managementAddress]) : recAddr v = none := by
  cases v with
  | chassisId | portId | managementAddress => simp [Tlv.variant] at h
  | _ => rfl

section
variable (v : Tlv) (r : TlvRecord)

/-- The registers of the column `val`: the value's bytes and their number, or what they held. -/
theorem recordWrite_val : (recordWrite v r).vlen = (recVal v).elim r.vlen (fun b => BitVec.ofNat 9 b.length) ∧
    (recordWrite v r).val = (recVal v).elim r.val (r.val.writeN 0) := by
  cases v with
  | chassisId _ idv | portId _ idv => cases idv <;> exact ⟨rfl, rfl⟩
  | _ => exact ⟨rfl, rfl⟩

/-- The registers of the column `addr`: the value's family and address, or what they held. -/
theorem recordWrite_addr : (recordWrite v r).af = (recAddr v).elim r.af Prod.fst ∧
    (recordWrite v r).addr = (recAddr v).elim r.addr (fun p => r.addr.writeN 0 p.2) := by
  cases v with
  | chassisId _ idv | portId _ idv => cases idv <;> exact ⟨rfl, rfl⟩
  | _ => exact ⟨rfl, rfl⟩

end

section
variable {v : Tlv} (r : TlvRecord)

theorem recordWrite_val_of_none (h : recVal v = none) : (recordWrite v r).vlen = r.vlen ∧ (recordWrite v r).val = r.val := by
  simpa only [h, Option.elim_none, Option.elim_some] using recordWrite_val v r

theorem recordWrite_val_of_some {b : Bytes} (h : recVal v = some b) :
    (recordWrite v r).vlen = BitVec.ofNat 9 b.length ∧ (recordWrite v r).val = r.val.writeN 0 b := by
  simpa only [h, Option.elim_none, Option.elim_some] using recordWrite_val v r

theorem recordWrite_addr_of_none (h : recAddr v = none) : (recordWrite v r).af = r.af ∧ (recordWrite v r).addr = r.addr := by
  simpa only [h, Option.elim_none, Option.elim_some] using recordWrite_addr v r

theorem recordWrite_addr_of_some {af : Byte} {addr : Bytes} (h : recAddr v = some (af, addr)) :
    (recordWrite v r).af = af ∧ (recordWrite v r).addr = r.addr.writeN 0 addr := by
  simpa only [h, Option.elim_none, Option.elim_some] using recordWrite_addr v r

/-! ### The other columns: what a variant that is not listed leaves unwritten -/

theorem recordWrite_ttl (h : v.variant ≠ .ttl) : (recordWrite v r).ttl = r.ttl := by
  cases v with
  | ttl => exact absurd rfl h
  | chassisId _ idv | portId _ idv => cases idv <;> rfl
  | _ => rfl

theorem recordWrite_capabilities (h : v.variant ≠ .systemCapabilities) :
    (recordWrite v r).capSup = r.capSup ∧ (recordWrite v r).capEn = r.capEn := by
  cases v with
  | systemCapabilities => exact absurd rfl h
  | chassisId _ idv | portId _ idv => cases idv <;> exact ⟨rfl, rfl⟩
  | _ => exact ⟨rfl, rfl⟩

theorem recordWrite_interface (h : v.variant ≠ .managementAddress) :
    (recordWrite v r).ifsub = r.ifsub ∧ (recordWrite v r).ifnum = r.ifnum := by
  cases v with
  | managementAddress => exact absurd rfl h
  | chassisId _ idv | portId _ idv => cases idv <;> exact ⟨rfl, rfl⟩
  | _ => exact ⟨rfl, rfl⟩

theorem recordWrite_oui (h : v.variant ≠ .organizationallySpecific) : (recordWrite v r).oui = r.oui := by
  cases v with
  | organizationallySpecific => exact absurd rfl h
  | chassisId _ idv | portId _ idv => cases idv <;> rfl
  | _ => rfl

theorem recordWrite_sub (h : v.variant ∉ [.chassisId, .portId, .organizationallySpecific]) :
    (recordWrite v r).sub = r.sub := by
  cases v with
  | chassisId | portId | organizationallySpecific => simp [Tlv.variant] at h
  | _ => rfl

/-- R23, R131: an id's subtype goes to `REC.sub`, its value to the columns of its kind. -/
theorem recordWrite_of_id {sub : Byte} {idv : IdValue} (h : v = .chassisId sub idv ∨ v = .portId sub idv) :
    (recordWrite v r).sub = sub ∧ recVal v = idVal idv ∧ recAddr v = idAddr idv := by
  rcases h with rfl | rfl <;> cases idv <;> exact ⟨rfl, rfl, rfl⟩

end

/-! ### The lengths of a well-formed value (R122) -/

/-- An address of a family the block knows: 4 bytes of family 1 or 16 of family 2. -/
theorem family_cases {af : Byte} {addr : Bytes} (hf : isFamily af = true) (hl : addr.length = addrLen af) :
    (af = 1 ∧ addr.length = 4) ∨ (af = 2 ∧ addr.length = 16) := by
  simp only [isFamily, Bool.or_eq_true, beq_iff_eq] at hf
  rcases hf with rfl | rfl
  · exact .inl ⟨rfl, hl⟩
  · exact .inr ⟨rfl, hl⟩

/-- The kind an id value is of (R131). -/
def idKindOf : IdValue → IdKind
  | .mac _ => .mac
  | .net _ _ => .net
  | .text _ => .text

theorem hasKind_iff {idv : IdValue} {k : IdKind} : idv.hasKind k = true ↔ k = idKindOf idv := by
  cases idv <;> cases k <;> simp [IdValue.hasKind, idKindOf]

/-- What `WF` asks of an id value (R122), kind by kind. -/
theorem idWf_cases {kind : Byte → IdKind} {sub : Byte} {idv : IdValue} (h : idWf kind sub idv = true) :
    (∃ m, idv = .mac m ∧ kind sub = .mac ∧ m.length = 6) ∨
    (∃ af addr, idv = .net af addr ∧ kind sub = .net ∧ isFamily af = true ∧ addr.length = addrLen af) ∨
    (∃ t, idv = .text t ∧ kind sub = .text ∧ t.length ≤ 510) := by
  simp only [idWf, Bool.and_eq_true, hasKind_iff] at h
  obtain ⟨⟨-, hkind⟩, hvalue⟩ := h
  cases idv with
  | mac m => exact .inl ⟨m, rfl, hkind, by simpa using hvalue⟩
  | net af addr => exact .inr (.inl ⟨af, addr, rfl, hkind, by simpa using hvalue⟩)
  | text t =>
    simp only [Bool.and_eq_true, decide_eq_true_eq] at hvalue
    exact .inr (.inr ⟨t, rfl, hkind, hvalue.1⟩)

theorem idBytes_length_le {kind : Byte → IdKind} {sub : Byte} {idv : IdValue} (h : idWf kind sub idv = true) :
    idv.bytes.length ≤ 510 := by
  rcases idWf_cases h with ⟨m, rfl, -, hl⟩ | ⟨af, addr, rfl, -, hf, hl⟩ | ⟨t, rfl, -, hl⟩
  · simp only [IdValue.bytes]
    omega
  · have := family_cases hf hl
    simp only [IdValue.bytes, List.length_cons]
    omega
  · exact hl

/-- The address of a well-formed value is as long as its family says. -/
theorem recAddr_family {v : Tlv} {af : Byte} {addr : Bytes} (hwf : v.wf = true) (h : recAddr v = some (af, addr)) :
    isFamily af = true ∧ addr.length = addrLen af := by
  cases v with
  | chassisId sub idv | portId sub idv =>
    rcases idWf_cases hwf with ⟨m, rfl, -, -⟩ | ⟨af', addr', rfl, -, hf, hl⟩ | ⟨t, rfl, -, -⟩ <;> cases h
    exact ⟨hf, hl⟩
  | managementAddress =>
    cases h
    simp only [Tlv.wf, Bool.and_eq_true, beq_iff_eq] at hwf
    exact hwf.1.1.1
  | _ => cases h

/-- R122: a well-formed value has at most 511 payload bytes, what the 9-bit length field can say. -/
theorem tlvLength_le_of_wf {v : Tlv} (hwf : v.wf = true) : tlvLength v ≤ 511 := by
  cases v with
  | endOfLldpdu | ttl | systemCapabilities => simp [tlvLength, penc, toBe16]
  | chassisId sub idv | portId sub idv =>
    have := idBytes_length_le hwf
    simp only [tlvLength, penc, List.length_cons]
    omega
  | portDescription t | systemName t | systemDescription t =>
    simp only [Tlv.wf, Bool.and_eq_true, decide_eq_true_eq] at hwf
    simp only [tlvLength, penc]
    omega
  | managementAddress af addr ifsub ifnum oid =>
    obtain ⟨hf, hl⟩ := recAddr_family hwf rfl
    have := family_cases hf hl
    simp only [Tlv.wf, Bool.and_eq_true, decide_eq_true_eq] at hwf
    simp only [tlvLength, penc, toBe32, List.length_append, List.length_cons, List.length_nil]
    omega
  | organizationallySpecific oui sub value =>
    simp only [Tlv.wf, Bool.and_eq_true, beq_iff_eq, decide_eq_true_eq] at hwf
    simp only [tlvLength, penc, List.length_append, List.length_cons, List.length_nil]
    omega

/-- The bytes for `REC.val` are part of the payload, so they too fit in 511. -/
theorem recVal_length_le {v : Tlv} {b : Bytes} (hwf : v.wf = true) (h : recVal v = some b) : b.length ≤ 511 := by
  have hlen := tlvLength_le_of_wf hwf
  suffices b.length ≤ tlvLength v by omega
  cases v with
  | chassisId _ idv | portId _ idv => cases idv <;> cases h <;> simp [tlvLength, penc, IdValue.bytes]
  | _ =>
    cases h
    all_goals
      simp only [tlvLength, penc, List.length_append, List.length_cons]
      omega

/-! ### What is read back -/

section
variable {v : Tlv} {r : TlvRecord}

theorem recordWrite_vlen_toNat {b : Bytes} (hwf : v.wf = true) (h : recVal v = some b) :
    (recordWrite v r).vlen.toNat = b.length := by
  have := recVal_length_le hwf h
  rw [(recordWrite_val_of_some r h).1, BitVec.toNat_ofNat, Nat.mod_eq_of_lt (by omega)]

theorem readN_recordWrite_val {b : Bytes} (hwf : v.wf = true) (hval : r.val.wf = true) (h : recVal v = some b) :
    (recordWrite v r).val.readN 0 (recordWrite v r).vlen.toNat = b := by
  rw [recordWrite_vlen_toNat hwf h, (recordWrite_val_of_some r h).2, readN_writeN hval]

theorem readN_recordWrite_addr {af : Byte} {addr : Bytes} (hwf : v.wf = true) (haddr : r.addr.wf = true)
    (h : recAddr v = some (af, addr)) : (recordWrite v r).addr.readN 0 (addrLen (recordWrite v r).af) = addr := by
  obtain ⟨haf, hmem⟩ := recordWrite_addr_of_some r h
  rw [haf, hmem, ← (recAddr_family hwf h).2, readN_writeN haddr]

theorem oui_length_of_wf {oui value : Bytes} {sub : Byte} (hwf : (Tlv.organizationallySpecific oui sub value).wf = true) :
    oui.length = Config.ouiBytes := by
  simp only [Tlv.wf, Bool.and_eq_true, beq_iff_eq] at hwf
  exact hwf.1

theorem readN_recordWrite_oui {oui value : Bytes} {sub : Byte} (hwf : (Tlv.organizationallySpecific oui sub value).wf = true)
    (houi : r.oui.wf = true) :
    (recordWrite (.organizationallySpecific oui sub value) r).oui.readN 0 Config.ouiBytes = oui := by
  rw [← oui_length_of_wf hwf]
  exact readN_writeN houi 0 oui

/-- R131, R135: the subtype tells the kind, and the columns of that kind give the id value back. -/
theorem recordId_recordWrite {kind : Byte → IdKind} {sub : Byte} {idv : IdValue} (hwf : v.wf = true)
    (haddr : r.addr.wf = true) (hval : r.val.wf = true) (hid : v = .chassisId sub idv ∨ v = .portId sub idv)
    (hkind : idWf kind sub idv = true) : recordId kind (recordWrite v r) = idv := by
  obtain ⟨hsub, hv, ha⟩ := recordWrite_of_id r hid
  simp only [recordId, hsub]
  rcases idWf_cases hkind with ⟨m, rfl, hk, -⟩ | ⟨af, addr, rfl, hk, -⟩ | ⟨t, rfl, hk, -⟩
  · simp only [hk, readN_recordWrite_val hwf hval hv]
  · have hread := readN_recordWrite_addr hwf haddr ha
    rw [(recordWrite_addr_of_some r ha).1] at hread
    simp only [hk, (recordWrite_addr_of_some r ha).1, hread]
  · simp only [hk, readN_recordWrite_val hwf hval hv]

theorem recordWrite_typ_toNat (v : Tlv) (r : TlvRecord) : (recordWrite v r).typ.toNat = v.variant.code :=
  Nat.mod_eq_of_lt (variant_code_lt v.variant)

theorem recordWrite_len_toNat (r : TlvRecord) (hwf : v.wf = true) : (recordWrite v r).len.toNat = tlvLength v :=
  Nat.mod_eq_of_lt (Nat.lt_succ_of_le (tlvLength_le_of_wf hwf))

/-- R23: `value(REC)` after `REC <- v` is `v`. -/
theorem recordValue_recordWrite (hwf : v.wf = true) (haddr : r.addr.wf = true) (houi : r.oui.wf = true) (hval : r.val.wf = true) :
    recordValue (recordWrite v r) = some v := by
  have hcode : Variant.ofCode (recordWrite v r).typ.toNat = some v.variant := by
    rw [recordWrite_typ_toNat, variant_ofCode_code]
  unfold recordValue
  rw [hcode]
  cases v with
  | endOfLldpdu | ttl | systemCapabilities => rfl
  | chassisId sub idv =>
    have hid := recordId_recordWrite hwf haddr hval (.inl rfl) hwf
    simp only [Tlv.variant, hid, (recordWrite_of_id r (.inl rfl)).1]
  | portId sub idv =>
    have hid := recordId_recordWrite hwf haddr hval (.inr rfl) hwf
    simp only [Tlv.variant, hid, (recordWrite_of_id r (.inr rfl)).1]
  | portDescription t | systemName t | systemDescription t =>
    simp only [Tlv.variant, readN_recordWrite_val hwf hval rfl]
  | managementAddress af addr ifsub ifnum oid =>
    simp only [Tlv.variant, readN_recordWrite_val hwf hval rfl, readN_recordWrite_addr hwf haddr rfl]
    rfl
  | organizationallySpecific oui sub value =>
    simp only [Tlv.variant, readN_recordWrite_val hwf hval rfl, readN_recordWrite_oui hwf houi]
    rfl

/-! ### The bytes beyond what is written -/

theorem recordWrite_val_beyond {a : Nat} (hwf : v.wf = true) (hval : r.val.wf = true) (ha : (recordWrite v r).vlen.toNat ≤ a) :
    (recordWrite v r).val.read a = r.val.read a := by
  cases h : recVal v with
  | none => rw [(recordWrite_val_of_none r h).2]
  | some b =>
    rw [recordWrite_vlen_toNat hwf h] at ha
    rw [(recordWrite_val_of_some r h).2, read_writeN_outside hval _ _ _ (by omega)]

theorem recordWrite_addr_beyond {a : Nat} (hwf : v.wf = true) (haddr : r.addr.wf = true)
    (ha : 16 ≤ a ∨ ((recordWrite v r).af = 1 ∧ 4 ≤ a)) : (recordWrite v r).addr.read a = r.addr.read a := by
  cases h : recAddr v with
  | none => rw [(recordWrite_addr_of_none r h).2]
  | some p =>
    obtain ⟨af, addr⟩ := p
    obtain ⟨haf, hmem⟩ := recordWrite_addr_of_some r h
    have hbeyond : addr.length ≤ a := by
      obtain ⟨hf, hl⟩ := recAddr_family hwf h
      rcases family_cases hf hl with ⟨-, hl4⟩ | ⟨rfl, hl16⟩
      · omega
      · rcases ha with ha | ⟨ha1, -⟩
        · omega
        · exact absurd (haf.symm.trans ha1) (by decide)
    rw [hmem, read_writeN_outside haddr _ _ _ (by omega)]

theorem recordWrite_oui_beyond {a : Nat} (hwf : v.wf = true) (houi : r.oui.wf = true) (ha : 3 ≤ a) :
    (recordWrite v r).oui.read a = r.oui.read a := by
  by_cases h : v.variant = .organizationallySpecific
  · cases v with
    | organizationallySpecific oui sub value =>
      have hl : oui.length = 3 := oui_length_of_wf hwf
      exact read_writeN_outside houi 0 a oui (by omega)
    | _ => cases h
  · rw [recordWrite_oui r h]

end

/-- Settles O18: the value is read back column by column, and each frame clause is the rule of its column. -/
theorem recordHoldsTheValueWritten : Obligations.RecordHoldsTheValueWritten := by
  unfold Obligations.RecordHoldsTheValueWritten
  intro v r hwf haddr houi hval
  refine ⟨recordValue_recordWrite hwf haddr houi hval, recordWrite_typ_toNat v r, recordWrite_len_toNat r hwf, recordWrite_ttl r,
    recordWrite_capabilities r, recordWrite_interface r, recordWrite_oui r, recordWrite_sub r,
    fun h => recordWrite_addr_of_none r (recAddr_eq_none h), fun h => recordWrite_val_of_none r (recVal_eq_none h), ?idKinds,
    fun _ => recordWrite_val_beyond hwf hval, fun _ => recordWrite_addr_beyond hwf haddr, fun _ => recordWrite_oui_beyond hwf houi⟩
  case idKinds =>
    intro sub idv hid
    obtain ⟨-, hv, ha⟩ := recordWrite_of_id r hid
    constructor
    · rintro b (rfl | rfl) <;> exact recordWrite_addr_of_none r ha
    · rintro af a rfl
      exact recordWrite_val_of_none r hv

end Sys2Proof.Proofs.Record
end

section
/-! When bytes of the stream are an instruction (20_memory R56, 30_encoding R84, 42_container R200). -/

namespace Sys2Proof.Proofs.Truncation

/-- R56, R200: bytes too few for a header. -/
theorem decodeTlv_of_length_lt_two {b : Bytes} (h : b.length < 2) : decodeTlv b = .error .truncHeader := by
  match b, h with
  | [], _ => rfl
  | [_], _ => rfl
  | _ :: _ :: _, h => exact absurd h (Nat.not_lt.mpr (Nat.le_add_left 2 _))

section
variable {b0 : Byte} (b1 : Byte) {k : Variant}

/-- R72, R74: the first byte alone tells the variant of a header. -/
theorem ofCode_hdrDec (hk : b0.toNat / 2 = k.code) : Variant.ofCode (hdrDec b0 b1).1 = some k := by
  rw [hdrDec_eq, hk, variant_ofCode_code]

/-- R56, R200: a defined type with fewer payload bytes than its header declares. -/
theorem decodeTlv_of_payload_short {p : Bytes} (hk : b0.toNat / 2 = k.code) (hp : p.length < (hdrDec b0 b1).2) :
    decodeTlv (b0 :: b1 :: p) = .error (.truncPayload k.code) := by
  have hcode := ofCode_hdrDec b1 hk
  simp only [decodeTlv, hcode, if_pos hp, variant_code_of_ofCode hcode]

/-- R70, R71: a defined type with enough bytes behind its header takes the declared number of them as its payload. -/
theorem decodeTlv_of_payload_there {p : Bytes} (hk : b0.toNat / 2 = k.code) (hp : (hdrDec b0 b1).2 ≤ p.length) :
    decodeTlv (b0 :: b1 :: p) = .ok (k.instr (p.take (hdrDec b0 b1).2), p.drop (hdrDec b0 b1).2) := by
  simp only [decodeTlv, ofCode_hdrDec b1 hk, if_neg (Nat.not_lt.mpr hp)]

/-- R84: an undefined type is told from its header; every byte behind the header is left in the stream. -/
theorem decodeTlv_of_undefined (p : Bytes) (h9 : 9 ≤ b0.toNat / 2) (h126 : b0.toNat / 2 ≤ 126) :
    decodeTlv (b0 :: b1 :: p) = .ok (unknownOf (hdrDec b0 b1).1 (hdrDec b0 b1).2, p) := by
  have hnone : Variant.ofCode (hdrDec b0 b1).1 = none := by
    refine (variant_ofCode_none (hdrDec_lt b0 b1).1).mpr ?_
    rw [hdrDec_eq]
    exact ⟨h9, h126⟩
  simp only [decodeTlv, hnone]

end

/-- Settles O11: the header is missing, or it is there and its type is defined, with too few bytes behind it or with enough, or
undefined; the instruction of an undefined type is made from the two header bytes. -/
theorem decodeRefusesOnlyTruncation : Obligations.DecodeRefusesOnlyTruncation := by
  unfold Obligations.DecodeRefusesOnlyTruncation
  refine ⟨fun _ => decodeTlv_of_length_lt_two, ?short, ?enough, ?undefined⟩
  case short =>
    intro b0 b1 p k hk hp
    exact decodeTlv_of_payload_short b1 hk (by rwa [hdrDec_eq])
  case enough =>
    intro b0 b1 p k hk hp
    exact ⟨_, decodeTlv_of_payload_there b1 hk (by rwa [hdrDec_eq])⟩
  case undefined =>
    intro b0 b1 p h9 h126
    exact ⟨_, decodeTlv_of_undefined b1 p h9 h126, fun q => decodeTlv_of_undefined b1 q h9 h126⟩

end Sys2Proof.Proofs.Truncation
end

section
/-! The encoder and the decoder (30_encoding R70, R74, R84, R90, R92): each undoes the other. -/

namespace Sys2Proof.Proofs.Encoding

open Sys2Proof

/-! ### The header (R72) -/

/-- R102: a header reads back as the type code and the length it was made of. -/
theorem hdrDec_hdrJoin {t l : Nat} (ht : t < 128) (hl : l < 512) : hdrDec (hdrJoin t l).1 (hdrJoin t l).2 = (t, l) := by
  simp only [hdrJoin_eq hl, hdrDec_eq, BitVec.toNat_ofNat, Prod.mk.injEq]
  omega

/-- R102: two bytes are the header of what they read as. -/
theorem hdrJoin_hdrDec (b0 b1 : Byte) : hdrJoin (hdrDec b0 b1).1 (hdrDec b0 b1).2 = (b0, b1) := by
  have h0 : b0.toNat < 256 := b0.isLt
  have h1 : b1.toNat < 256 := b1.isLt
  rw [hdrJoin_eq (hdrDec_lt b0 b1).2, hdrDec_eq]
  refine Prod.ext (BitVec.eq_of_toNat_eq ?_) (BitVec.eq_of_toNat_eq ?_) <;>
    · simp only [BitVec.toNat_ofNat]
      omega

/-! ### The three kinds of instruction -/

/-- The type code and the length in the header of a TLV of an undefined type, a row of the table's eleven blocks (R84). -/
def undefinedHeader : Instr → Option (Nat × BitVec 9)
  | .unknown9 len => some (9, len)
  | .unknown10To11 x len => some (10 + x.toNat, len)
  | .unknown12To15 x len => some (12 + x.toNat, len)
  | .unknown16To31 x len => some (16 + x.toNat, len)
  | .unknown32To63 x len => some (32 + x.toNat, len)
  | .unknown64To95 x len => some (64 + x.toNat, len)
  | .unknown96To111 x len => some (96 + x.toNat, len)
  | .unknown112To119 x len => some (112 + x.toNat, len)
  | .unknown120To123 x len => some (120 + x.toNat, len)
  | .unknown124To125 x len => some (124 + x.toNat, len)
  | .unknown126 len => some (126, len)
  | _ => none

/-- R10, R90: an instruction is a TLV of a defined type, a TLV of an undefined type, or an operation of the port. -/
theorem instr_cases (i : Instr) :
    (∃ k p, i = Variant.instr k p) ∨ (∃ t len, undefinedHeader i = some (t, len)) ∨ (∃ op, encode i = .port op) := by
  cases i with
  | endOfLldpdu p => exact .inl ⟨.endOfLldpdu, p, rfl⟩
  | chassisId p => exact .inl ⟨.chassisId, p, rfl⟩
  | portId p => exact .inl ⟨.portId, p, rfl⟩
  | ttl p => exact .inl ⟨.ttl, p, rfl⟩
  | portDescription p => exact .inl ⟨.portDescription, p, rfl⟩
  | systemName p => exact .inl ⟨.systemName, p, rfl⟩
  | systemDescription p => exact .inl ⟨.systemDescription, p, rfl⟩
  | systemCapabilities p => exact .inl ⟨.systemCapabilities, p, rfl⟩
  | managementAddress p => exact .inl ⟨.managementAddress, p, rfl⟩
  | organizationallySpecific p => exact .inl ⟨.organizationallySpecific, p, rfl⟩
  | unknown9 | unknown10To11 | unknown12To15 | unknown16To31 | unknown32To63 | unknown64To95 | unknown96To111
  | unknown112To119 | unknown120To123 | unknown124To125 | unknown126 => exact .inr (.inl ⟨_, _, rfl⟩)
  | _ => exact .inr (.inr ⟨_, rfl⟩)

/-! ### TLVs of a defined type (R70, R74) -/

theorem encode_variant (k : Variant) (p : Bytes) : encode (k.instr p) = .stream (tlvBytes k.code p) := by cases k <;> rfl

theorem wf_variant_iff {k : Variant} {p : Bytes} : (k.instr p).wf = true ↔ p.length ≤ 511 := by
  rw [Instr.wf, instr_payload, decide_eq_true_iff]

/-- R70, R71: from the header on, a TLV is read whole, and the bytes behind its payload are left. -/
theorem decodeTlv_tlvBytes {k : Variant} {p : Bytes} (hp : p.length ≤ 511) (rest : Bytes) :
    decodeTlv (tlvBytes k.code p ++ rest) = .ok (k.instr p, rest) := by
  have hdr := hdrDec_hdrJoin (variant_code_lt k) (Nat.lt_succ_of_le hp)
  simp [tlvBytes, decodeTlv, hdr, variant_ofCode_code]

/-! ### TLVs of an undefined type (R84) -/

section
variable {i : Instr} {t : Nat} {len : BitVec 9}

/-- R84: an undefined type code lies in 9..126, is all its encoding holds beside the length, and names its block of the table. -/
theorem undefinedHeader_eq_some (h : undefinedHeader i = some (t, len)) :
    9 ≤ t ∧ t ≤ 126 ∧ encode i = headerCode t len ∧ unknownOf t len.toNat = i := by
  cases i with
  | unknown9 | unknown126 =>
    cases h
    exact ⟨by decide, by decide, rfl, by simp [unknownOf]⟩
  | unknown10To11 x | unknown12To15 x | unknown16To31 x | unknown32To63 x | unknown64To95 x | unknown96To111 x
  | unknown112To119 x | unknown120To123 x | unknown124To125 x =>
    cases h
    have hx := x.isLt
    refine ⟨by omega, by omega, rfl, ?_⟩
    simp (disch := omega) only [unknownOf, if_pos, if_neg, Nat.add_sub_cancel_left, BitVec.ofNat_toNat, BitVec.setWidth_eq]
  | _ => cases h

/-- R84: the table's blocks cover the undefined type codes, and an instruction of a block keeps the code and the length. -/
theorem undefinedHeader_unknownOf (h9 : 9 ≤ t) (h126 : t ≤ 126) (l : Nat) :
    undefinedHeader (unknownOf t l) = some (t, BitVec.ofNat 9 l) := by
  unfold unknownOf
  dsimp only
  split_ifs <;>
    · simp only [undefinedHeader, BitVec.toNat_ofNat, Option.some.injEq, Prod.mk.injEq, and_true]
      omega

theorem wf_of_undefinedHeader (h : undefinedHeader i = some (t, len)) : i.wf = true := by
  cases i with
  | unknown9 | unknown10To11 | unknown12To15 | unknown16To31 | unknown32To63 | unknown64To95 | unknown96To111
  | unknown112To119 | unknown120To123 | unknown124To125 | unknown126 => rfl
  | _ => cases h

/-- R84: a header of an undefined type is read alone, and every byte behind it is left. -/
theorem decodeTlv_undefined (h : undefinedHeader i = some (t, len)) (rest : Bytes) :
    decodeTlv ((hdrJoin t len.toNat).1 :: (hdrJoin t len.toNat).2 :: rest) = .ok (i, rest) := by
  obtain ⟨h9, h126, -, hi⟩ := undefinedHeader_eq_some h
  have hdr := hdrDec_hdrJoin (Nat.lt_succ_of_le (Nat.le_succ_of_le h126)) len.isLt
  have hnone : Variant.ofCode t = none := (variant_ofCode_none (by omega)).mpr ⟨h9, h126⟩
  simp [decodeTlv, hdr, hnone, hi]

end

/-! ### Operations (R90, R92) -/

theorem decodeOp_of_encode {i : Instr} {op : BitVec 4} (h : encode i = .port op) : decodeOp op = i := by
  cases i with
  | hdrEnc | hdrDec | tlvEnc | tlvDec | duNew | duAppend | duSer | duParse | duComplete | duGet | envClassify | envBuild | rxFrame
  | reservedOp13 | reservedOp14 | reservedOp15 =>
    cases h
    rfl
  | _ => cases h

/-- R90, R92: each of the sixteen codes of the port is the encoding of its operation. -/
theorem encode_decodeOp (op : BitVec 4) : encode (decodeOp op) = .port op := by
  revert op
  decide

theorem wf_decodeOp (op : BitVec 4) : (decodeOp op).wf = true := by
  revert op
  decide

/-! ### Decoding an encoding -/

/-- Settles O9, for each kind of instruction by what its encoding decodes to. -/
theorem decodeOfEncodeIsTheInstruction : Obligations.DecodeOfEncodeIsTheInstruction := by
  unfold Obligations.DecodeOfEncodeIsTheInstruction
  intro i hwf
  rcases instr_cases i with ⟨k, p, rfl⟩ | ⟨t, len, hi⟩ | ⟨op, hop⟩
  case inl =>
    have hdec := decodeTlv_tlvBytes (k := k) (wf_variant_iff.mp hwf)
    rw [encode_variant]
    refine ⟨by simpa [decode] using hdec [], ?_⟩
    rintro b rest ⟨⟩
    exact hdec rest
  case inr.inl =>
    obtain ⟨-, -, henc, -⟩ := undefinedHeader_eq_some hi
    rw [henc]
    refine ⟨decodeTlv_undefined hi [], ?_⟩
    rintro b rest ⟨⟩
    exact decodeTlv_undefined hi rest
  case inr.inr =>
    rw [hop]
    refine ⟨by rw [decode, decodeOp_of_encode hop], ?_⟩
    rintro b rest ⟨⟩

/-! ### Encoding what was decoded -/

/-- Everything the decoder can answer (R70, R84): a defined type's instruction with the declared number of bytes as its payload, or an
undefined type's with every byte behind the header left. -/
theorem decodeTlv_eq_ok {b : Bytes} {i : Instr} {rest : Bytes} (h : decodeTlv b = .ok (i, rest)) :
    ∃ b0 b1 p, b = b0 :: b1 :: p ∧
      ((∃ k : Variant, (hdrDec b0 b1).1 = k.code ∧ (hdrDec b0 b1).2 ≤ p.length ∧ i = k.instr (p.take (hdrDec b0 b1).2) ∧
          rest = p.drop (hdrDec b0 b1).2) ∨
       (undefinedHeader i = some ((hdrDec b0 b1).1, BitVec.ofNat 9 (hdrDec b0 b1).2) ∧ rest = p)) := by
  match b, h with
  | b0 :: b1 :: p, h =>
    refine ⟨b0, b1, p, rfl, ?_⟩
    cases hcode : Variant.ofCode (hdrDec b0 b1).1 with
    | some k =>
      by_cases hlen : p.length < (hdrDec b0 b1).2
      · simp [decodeTlv, hcode, hlen] at h
      · simp only [decodeTlv, hcode, if_neg hlen] at h
        cases h
        exact .inl ⟨k, (variant_code_of_ofCode hcode).symm, Nat.le_of_not_lt hlen, rfl, rfl⟩
    | none =>
      obtain ⟨h9, h126⟩ := (variant_ofCode_none (hdrDec_lt b0 b1).1).mp hcode
      simp only [decodeTlv, hcode] at h
      cases h
      exact .inr ⟨undefinedHeader_unknownOf h9 h126 _, rfl⟩

/-- Settles O10: the header bytes are those of the type code and length read from them, and the payload is the bytes taken. -/
theorem encodeOfDecodeIsTheCode : Obligations.EncodeOfDecodeIsTheCode := by
  unfold Obligations.EncodeOfDecodeIsTheCode
  refine ⟨?stream, fun op => ⟨wf_decodeOp op, encode_decodeOp op⟩⟩
  intro b i rest h
  obtain ⟨b0, b1, p, rfl, ⟨k, hcode, hlen, rfl, rfl⟩ | ⟨hi, rfl⟩⟩ := decodeTlv_eq_ok h
  · have htake : (p.take (hdrDec b0 b1).2).length = (hdrDec b0 b1).2 := List.length_take_of_le hlen
    have hlt := (hdrDec_lt b0 b1).2
    refine ⟨wf_variant_iff.mpr (by omega), _, encode_variant _ _, ?_⟩
    simp [tlvBytes, htake, ← hcode, hdrJoin_hdrDec]
  · obtain ⟨-, -, henc, -⟩ := undefinedHeader_eq_some hi
    refine ⟨wf_of_undefinedHeader hi, _, henc, ?_⟩
    simp [BitVec.toNat_ofNat, Nat.mod_eq_of_lt (hdrDec_lt b0 b1).2, hdrJoin_hdrDec]

/-- Settles O12: the decoder, evaluated on each word. -/
theorem sampleWordsDecode : Obligations.SampleWordsDecode := by
  unfold Obligations.SampleWordsDecode
  decide

end Sys2Proof.Proofs.Encoding
end

section
/-! What a fault leaves (60_exceptions R245, 42_container R202), and the instructions that are nothing but a fault: the undefined
types (30_encoding R84) and the reserved operation codes (R92). -/

namespace Sys2Proof.Proofs.Fault

open Sys2Proof Sys2Proof.Machine Sys2Proof.Proofs.Encoding

section
variable {s : State} (c : Cause) (t : Option (BitVec 7))

/-- R202, R245: a fault of a TLV step. -/
theorem takeFault_of_parsing (h : s.parsing = true) : takeFault c t s = { s with
    duRx := []
    st := { ok := false, cause := c, cat := c.category, tv := t.isSome, typ := t.getD 0, off := s.off, qual := s.op == some 12,
            complete := false, stop := .fault }
    payBase := (faultPay s).1, payLen := (faultPay s).2
    op := none, parsing := false, savedPay := none } := by
  simp only [takeFault, finish, viaFrame, h, if_true, Bool.true_and]

/-- R245: a fault of an operation outside a parse. -/
theorem takeFault_of_idle (h : s.parsing = false) : takeFault c t s = { s with
    st := { ok := false, cause := c, cat := c.category, tv := t.isSome, typ := t.getD 0, off := 0, qual := false,
            complete := false, stop := .notParsed }
    op := none, parsing := false } := by
  simp only [takeFault, finish, h, Bool.false_eq_true, if_false, Bool.false_and]

end

/-- R84: a TLV of an undefined type is a fault that names the type; its length is not looked at. -/
theorem exec_undefined {i : Instr} {t : Nat} {len : BitVec 9} (h : undefinedHeader i = some (t, len)) (s : State) :
    exec i s = .next (takeFault .unknownType (some (BitVec.ofNat 7 t)) s) := by
  cases i with
  | unknown9 | unknown10To11 | unknown12To15 | unknown16To31 | unknown32To63 | unknown64To95 | unknown96To111
  | unknown112To119 | unknown120To123 | unknown124To125 | unknown126 =>
    cases h
    rfl
  | _ => cases h

/-- Settles O27: the eleven blocks fault alike, each with its own type code. -/
theorem undefinedTypesFault : Obligations.UndefinedTypesFault := by
  unfold Obligations.UndefinedTypesFault
  intro s len hp fault
  have hfault {i : Instr} {t : Nat} (h : undefinedHeader i = some (t, len)) : exec i s = .next (fault t) := by
    rw [exec_undefined h, takeFault_of_parsing _ _ hp]
    rfl
  exact ⟨hfault rfl, fun _ => hfault rfl, fun _ => hfault rfl, fun _ => hfault rfl, fun _ => hfault rfl, fun _ => hfault rfl,
    fun _ => hfault rfl, fun _ => hfault rfl, fun _ => hfault rfl, fun _ => hfault rfl, hfault rfl⟩

/-- Settles O52: the three codes have one meaning, a fault outside a parse. -/
theorem reservedOperationsFault : Obligations.ReservedOperationsFault := by
  unfold Obligations.ReservedOperationsFault
  intro s hp t
  have hfault : illegalOp s = t := by
    simp only [illegalOp, takeFault_of_idle _ _ hp, t, hp]
    rfl
  exact ⟨congrArg _ hfault, congrArg _ hfault, congrArg _ hfault⟩

end Sys2Proof.Proofs.Fault
end

section
/-! The bytes of a TLV value on the wire (30_encoding R70, R74; 41_tlv_variants R125): the header of its variant and derived length,
then its payload. -/

namespace Sys2Proof.Proofs.Wire

open Sys2Proof Sys2Proof.Machine

/-! ### Well-formed values pass the checks of `enc` (R122, R125) -/

theorem textCheck_of_wf {t : Bytes} (hl : t.length ≤ 255) (hu : utf8Ok t = true) : textCheck t = .ok () := by
  simp [textCheck, hu, Nat.not_lt.mpr hl]

theorem not_outside {b lo hi : Byte} (hlo : lo ≤ b) (hhi : b ≤ hi) : ¬ (b < lo ∨ b > hi) :=
  not_or.mpr ⟨BitVec.not_lt.mpr hlo, BitVec.not_lt.mpr hhi⟩

theorem idCheck_of_wf {kind : Byte → IdKind} {sub : Byte} {idv : IdValue} (h : idWf kind sub idv = true) :
    idCheck kind sub idv = .ok () := by
  simp only [idWf, Bool.and_eq_true, decide_eq_true_eq] at h
  obtain ⟨⟨⟨hlo, hhi⟩, hkind⟩, hvalue⟩ := h
  unfold idCheck
  rw [if_neg (not_outside hlo hhi), hkind, Bool.not_true, if_neg Bool.false_ne_true]
  cases idv with
  | mac m => simpa using hvalue
  | net af addr =>
    obtain ⟨hf, hl⟩ : isFamily af = true ∧ addr.length = addrLen af := by simpa using hvalue
    simp [hf, hl]
  | text t =>
    obtain ⟨hl, hu⟩ : t.length ≤ Config.idTextMax ∧ utf8Ok t = true := by simpa using hvalue
    simp [hu, Nat.not_lt.mpr hl]

/-- R122, R125: no check of `enc` turns a well-formed value away. -/
theorem wfCheck_of_wf {v : Tlv} (h : v.wf = true) : wfCheck v = .ok () := by
  cases v with
  | endOfLldpdu | ttl => rfl
  | chassisId | portId => exact idCheck_of_wf h
  | portDescription | systemName | systemDescription =>
    simp only [Tlv.wf, Bool.and_eq_true, decide_eq_true_eq] at h
    exact textCheck_of_wf h.1 h.2
  | systemCapabilities => simpa [Tlv.wf, wfCheck] using h
  | managementAddress =>
    simp only [Tlv.wf, Bool.and_eq_true, decide_eq_true_eq, beq_iff_eq] at h
    obtain ⟨⟨⟨⟨hf, hl⟩, hlo⟩, hhi⟩, ho⟩ := h
    rw [wfCheck, hf, if_neg (not_outside hlo hhi)]
    simp [hl, Nat.not_lt.mpr ho]
  | organizationallySpecific =>
    simp only [Tlv.wf, Bool.and_eq_true, decide_eq_true_eq, beq_iff_eq] at h
    simp [wfCheck, h.1, Nat.not_lt.mpr h.2]

/-- R70, R125: the header bytes as numbers, then the payload. -/
theorem enc_of_wf {v : Tlv} (h : v.wf = true) :
    enc v = .ok (BitVec.ofNat 8 (v.variant.code * 2 + tlvLength v / 256) :: BitVec.ofNat 8 (tlvLength v % 256) :: penc v) := by
  have hlen : tlvLength v < 512 := Nat.lt_succ_of_le (Record.tlvLength_le_of_wf h)
  rw [enc_eq_ok, encBytes, tlvBytes, ← tlvLength, hdrJoin_eq hlen]
  exact ⟨wfCheck_of_wf h, rfl⟩
/-- R51, R70: a payload of at most 255 bytes has its whole length in the second header byte. -/
theorem enc_of_wf_short {v : Tlv} (h : v.wf = true) (hlen : tlvLength v < 256) :
    enc v = .ok (BitVec.ofNat 8 (v.variant.code * 2) :: BitVec.ofNat 8 (tlvLength v) :: penc v) := by
  rw [enc_of_wf h, Nat.div_eq_of_lt hlen, Nat.mod_eq_of_lt hlen, Nat.add_zero]

/-! ### Numbers (20_memory R51, 00_scope R13) -/

theorem toBe16_append (hi lo : Byte) : toBe16 (hi ++ lo) = [hi, lo] := by
  have hhi : (hi ++ lo).extractLsb' 8 8 = hi := BitVec.extractLsb'_append_eq_left
  have hlo : (hi ++ lo).extractLsb' 0 8 = lo := BitVec.extractLsb'_append_eq_right
  exact congrArg₂ (fun a b => [a, b]) hhi hlo

/-- The bytes of a number but its least significant one are those of the number without it. -/
theorem extractLsb'_append_byte {w k : Nat} (x : BitVec w) (b : Byte) :
    (x ++ b).extractLsb' (k + 8) 8 = x.extractLsb' k 8 :=
  BitVec.extractLsb'_append_eq_of_le (Nat.le_add_left 8 k)

theorem toBe32_append (n3 n2 n1 n0 : Byte) : toBe32 (n3 ++ n2 ++ n1 ++ n0) = [n3, n2, n1, n0] := by
  simp only [toBe32, List.cons.injEq, and_true]
  refine ⟨?byte3, ?byte2, ?byte1, ?byte0⟩
  case byte3 =>
    exact (extractLsb'_append_byte _ n0).trans ((extractLsb'_append_byte _ n1).trans BitVec.extractLsb'_append_eq_left)
  case byte2 =>
    exact (extractLsb'_append_byte _ n0).trans ((extractLsb'_append_byte _ n1).trans BitVec.extractLsb'_append_eq_right)
  case byte1 => exact (extractLsb'_append_byte _ n0).trans BitVec.extractLsb'_append_eq_right
  case byte0 => exact BitVec.extractLsb'_append_eq_right

/-! ### Ids (R131, R133, R137) -/

section
variable {kind : Byte → IdKind} {sub : Byte}

theorem idWf_mac {m : Bytes} (hkind : kind sub = .mac) (h1 : 1 ≤ sub) (h7 : sub ≤ 7) (hl : m.length = 6) :
    idWf kind sub (.mac m) = true := by
  simp only [idWf, IdValue.hasKind, hkind, h1, h7, hl, decide_true, Bool.and_self, beq_self_eq_true]

theorem idWf_net {af : Byte} {addr : Bytes} (hkind : kind sub = .net) (h1 : 1 ≤ sub) (h7 : sub ≤ 7) (hf : isFamily af = true)
    (hl : addr.length = addrLen af) : idWf kind sub (.net af addr) = true := by
  simp only [idWf, IdValue.hasKind, hkind, h1, h7, hf, hl, decide_true, Bool.and_self, beq_self_eq_true]

theorem idWf_text {t : Bytes} (hkind : kind sub = .text) (h1 : 1 ≤ sub) (h7 : sub ≤ 7) (hl : t.length ≤ 510)
    (hu : utf8Ok t = true) : idWf kind sub (.text t) = true := by
  simp only [idWf, IdValue.hasKind, hkind, h1, h7, hl, hu, decide_true, Bool.and_self]

variable {idv : IdValue}

theorem enc_chassisId (h : idWf chassisKind sub idv = true) :
    enc (.chassisId sub idv) = .ok (BitVec.ofNat 8 (2 + (1 + idv.bytes.length) / 256) ::
      BitVec.ofNat 8 ((1 + idv.bytes.length) % 256) :: sub :: idv.bytes) := by
  rw [enc_of_wf (v := .chassisId sub idv) h, tlvLength, penc, List.length_cons, Nat.add_comm idv.bytes.length]
  rfl

theorem enc_portId (h : idWf portKind sub idv = true) :
    enc (.portId sub idv) = .ok (BitVec.ofNat 8 (4 + (1 + idv.bytes.length) / 256) ::
      BitVec.ofNat 8 ((1 + idv.bytes.length) % 256) :: sub :: idv.bytes) := by
  rw [enc_of_wf (v := .portId sub idv) h, tlvLength, penc, List.length_cons, Nat.add_comm idv.bytes.length]
  rfl

end

/-! ### ManagementAddress (R162) -/

/-- Both length bytes of the payload are the address's and the OID's own lengths, the first with the family byte counted in. -/
theorem enc_managementAddress {af : Byte} {addr oid : Bytes} {ifsub : Byte} (ifnum : BitVec 32) (hf : isFamily af = true)
    (hl : addr.length = addrLen af) (h1 : 1 ≤ ifsub) (h3 : ifsub ≤ 3) (ho : oid.length ≤ 128) :
    enc (.managementAddress af addr ifsub ifnum oid) =
      .ok ([0x10, BitVec.ofNat 8 (8 + addr.length + oid.length), BitVec.ofNat 8 (1 + addr.length), af] ++ addr ++ [ifsub] ++
        toBe32 ifnum ++ [BitVec.ofNat 8 oid.length] ++ oid) := by
  have hwf : (Tlv.managementAddress af addr ifsub ifnum oid).wf = true := by
    simp only [Tlv.wf, hf, hl, h1, h3, ho, decide_true, Bool.and_self, beq_self_eq_true]
  have hlen : tlvLength (.managementAddress af addr ifsub ifnum oid) = 8 + addr.length + oid.length := by
    simp +arith only [tlvLength, penc, toBe32, List.length_append, List.length_cons, List.length_nil]
  have haddr := Record.family_cases hf hl
  rw [enc_of_wf_short hwf (by omega), hlen]
  rfl

/-! ### The statement -/

/-- Settles O17: each value is well-formed, so `enc` gives its header and payload; what is left is to count the payload. -/
theorem wireBytesOfEveryVariant : Obligations.WireBytesOfEveryVariant := by
  unfold Obligations.WireBytesOfEveryVariant
  refine ⟨?endOfLldpdu, ?mac, ?net4, ?net16, ?idText, ?ttl, ?text, ?capabilities, ?management, ?organizational⟩
  case endOfLldpdu => exact enc_of_wf rfl
  case mac =>
    intro m hm
    exact ⟨by simpa [IdValue.bytes, hm] using enc_chassisId (idWf_mac (sub := 4) rfl (by decide) (by decide) hm),
      by simpa [IdValue.bytes, hm] using enc_portId (idWf_mac (sub := 3) rfl (by decide) (by decide) hm)⟩
  case net4 =>
    intro a ha
    exact ⟨by simpa [IdValue.bytes, ha] using enc_chassisId (idWf_net (sub := 5) (af := 1) rfl (by decide) (by decide) rfl ha),
      by simpa [IdValue.bytes, ha] using enc_portId (idWf_net (sub := 4) (af := 1) rfl (by decide) (by decide) rfl ha)⟩
  case net16 =>
    intro a ha
    exact ⟨by simpa [IdValue.bytes, ha] using enc_chassisId (idWf_net (sub := 5) (af := 2) rfl (by decide) (by decide) rfl ha),
      by simpa [IdValue.bytes, ha] using enc_portId (idWf_net (sub := 4) (af := 2) rfl (by decide) (by decide) rfl ha)⟩
  case idText =>
    intro sub t h1 h7 hl hu
    constructor
    · intro h4 h5
      exact enc_chassisId (idWf_text (by rw [chassisKind, if_neg h4, if_neg h5]) h1 h7 hl hu)
    · intro h3 h4
      exact enc_portId (idWf_text (by rw [portKind, if_neg h3, if_neg h4]) h1 h7 hl hu)
  case ttl =>
    intro hi lo
    rw [enc_of_wf_short rfl (by simp [tlvLength, penc, toBe16]), tlvLength, penc, toBe16_append]
    rfl
  case text =>
    intro t hl hu
    have hwf : (decide (t.length ≤ 255) && utf8Ok t) = true := by simp [hl, hu]
    have hlt : t.length < 256 := Nat.lt_succ_of_le hl
    exact ⟨enc_of_wf_short (v := .portDescription t) hwf hlt, enc_of_wf_short (v := .systemName t) hwf hlt,
      enc_of_wf_short (v := .systemDescription t) hwf hlt⟩
  case capabilities =>
    intro a b c d hsub
    have hwf : (Tlv.systemCapabilities (a ++ b) (c ++ d)).wf = true := by simpa [Tlv.wf] using hsub
    rw [enc_of_wf_short hwf (by simp [tlvLength, penc, toBe16]), tlvLength, penc, toBe16_append, toBe16_append]
    rfl
  case management =>
    intro a oid ifsub n3 n2 n1 n0 h1 h3 ho
    constructor
    · intro ha
      rw [enc_managementAddress _ rfl ha h1 h3 ho, toBe32_append, ha]
      simp
    · intro ha
      rw [enc_managementAddress _ rfl ha h1 h3 ho, toBe32_append, ha]
      simp
  case organizational =>
    intro o0 o1 o2 sub v hv
    have hwf : (Tlv.organizationallySpecific [o0, o1, o2] sub v).wf = true := by simpa [Tlv.wf] using hv
    have hlen : tlvLength (.organizationallySpecific [o0, o1, o2] sub v) = 4 + v.length := by
      simp +arith only [tlvLength, penc, List.length_append, List.length_cons, List.length_nil]
    rw [enc_of_wf hwf, hlen]
    rfl

end Sys2Proof.Proofs.Wire
end

section
/-! What an instruction may write (30_encoding R91; 10_state R27, R31; 60_exceptions R245, R246). -/

namespace Sys2Proof.Proofs.Frame

open Sys2Proof Sys2Proof.Machine Sys2Proof.Proofs.Encoding

/-- State `t` differs from `s` only where instruction `i` puts its results (R91, R31). A field is filled in by itself where `t` copies it
from `s`, so that a lemma about an operation names only what the operation does write. -/
structure WritesOnlyResults (i : Instr) (s t : State) : Prop where
  localMac : t.localMac = s.localMac := by rfl
  dstSel : t.dstSel = s.dstSel := by rfl
  expect : t.expect = s.expect := by rfl
  sel : t.sel = s.sel := by rfl
  idx : t.idx = s.idx := by rfl
  rxbuf : t.rxbuf = s.rxbuf := by rfl
  rxLen : t.rxLen = s.rxLen := by rfl
  inputs : t.inputs = s.inputs := by rfl
  header : i ≠ .hdrDec → t.htype = s.htype ∧ t.hlen = s.hlen := by exact fun _ => ⟨rfl, rfl⟩
  tlvRec : i ∉ [.tlvDec, .duGet] → t.tlvRec = s.tlvRec := by exact fun _ => rfl
  tlvbuf : i ∉ [.hdrEnc, .tlvEnc] → t.tlvbuf = s.tlvbuf ∧ t.tlvLen = s.tlvLen := by exact fun _ => ⟨rfl, rfl⟩
  txbuf : i ∉ [.duSer, .envBuild] → t.txbuf = s.txbuf ∧ t.txLen = s.txLen := by exact fun _ => ⟨rfl, rfl⟩
  pay : i ∉ [.envClassify, .rxFrame] → t.payBase = s.payBase ∧ t.payLen = s.payLen ∨
    s.parsing = true ∧ t.st.ok = false ∧ s.savedPay = some (t.payBase, t.payLen) := by exact fun _ => .inl ⟨rfl, rfl⟩
  savedPay : isTlv i = false → s.parsing = false → i ≠ .rxFrame → t.savedPay = s.savedPay := by exact fun _ _ _ => rfl
  duTx : i ∉ [.duNew, .duAppend] → t.duTx = s.duTx := by exact fun _ => rfl
  off : isTlv i = false → i ∉ [.duParse, .rxFrame] → t.off = s.off := by exact fun _ _ => rfl
  duRx : isTlv i = false → s.parsing = false → i ∉ [.duNew, .duParse, .rxFrame] → t.duRx = s.duRx := by exact fun _ _ _ => rfl

/-! ### The shared operations -/

section
variable {i : Instr} {s t : State}

/-- R245, R202: any instruction may fault; inside a parse that empties `DU_RX` and may put the descriptor kept back. -/
theorem takeFault_writes (c : Cause) (ty : Option (BitVec 7)) : WritesOnlyResults i s (takeFault c ty s) where
  pay := by
    intro _
    cases hp : s.parsing with
    | false => exact .inl (by simp [hp])
    | true =>
      rcases faultPay_cases s with h | h
      · exact .inl (by simp [hp, h])
      · exact .inr (by simp [hp, h])
  savedPay := by
    intro _ hp _
    simp [hp]
  duRx := by
    intro _ hp _
    simp [hp]

/-- R30: the end of an operation writes `ST`, which every instruction may. -/
theorem finish_writes (st : Status) : WritesOnlyResults i s (finish st s) where

theorem storeTlv_writes {b : Bytes} (hi : i ∈ [.hdrEnc, .tlvEnc]) (h : storeTlv b s = .next t) : WritesOnlyResults i s t := by
  obtain ⟨-, rfl⟩ := storeTlv_next h
  exact { tlvbuf := fun hn => absurd hi hn }

theorem storeTx_writes {b : Bytes} {st : Status} (hi : i ∈ [.duSer, .envBuild]) (h : storeTx b st s = .next t) :
    WritesOnlyResults i s t := by
  obtain ⟨-, rfl⟩ := storeTx_next h
  exact { txbuf := fun hn => absurd hi hn }

theorem storeRecord_writes (v : Tlv) (hi : i ∈ [.tlvDec, .duGet]) : WritesOnlyResults i s (storeRecord v s) where
  tlvRec := fun hn => absurd hi hn

/-- R201: a parse begins with `DU_RX` empty and the cursor at 0. -/
theorem openParse_writes (hi : i ∈ [.duParse, .rxFrame]) : WritesOnlyResults i s (openParse s) where
  off := fun _ hn => absurd hi hn
  duRx := fun _ _ hn => absurd (List.mem_cons_of_mem _ hi) hn

/-- R200: a TLV step appends to `DU_RX`, moves `OFF`, and may end the parse. -/
theorem tlvStep_writes (hi : isTlv i = true) (ty : BitVec 7) (L : Nat) (r : Except Cause Tlv) :
    WritesOnlyResults i s (tlvStep ty L r s) := by
  have hne : ¬ isTlv i = false := by simp [hi]
  rcases tlvStep_cases ty L r s with ⟨c, -, h⟩ | ⟨v, c, -, -, h⟩ | ⟨v, -, -, -, h⟩ | ⟨v, -, -, -, h⟩ <;> rw [h]
  · exact takeFault_writes c _
  · exact takeFault_writes c _
  all_goals exact { savedPay := fun hn => absurd hn hne, off := fun hn => absurd hn hne, duRx := fun hn => absurd hn hne }

end

/-! ### The operations -/

section
variable {s t : State}

theorem execHdrEnc_writes (h : execHdrEnc s = .next t) : WritesOnlyResults .hdrEnc s t := by
  unfold execHdrEnc at h
  split at h
  · cases h
    exact takeFault_writes _ _
  · exact storeTlv_writes (by decide) h

theorem execHdrDec_writes (h : execHdrDec s = .next t) : WritesOnlyResults .hdrDec s t := by
  unfold execHdrDec at h
  split_ifs at h
  · cases h
    exact takeFault_writes _ _
  · split at h
    · cases h
    · cases h
      exact { header := fun hn => absurd rfl hn }

theorem execTlvEnc_writes (h : execTlvEnc s = .next t) : WritesOnlyResults .tlvEnc s t := by
  unfold execTlvEnc at h
  split at h
  · cases h
    exact takeFault_writes _ _
  · split at h
    · cases h
      exact takeFault_writes _ _
    · exact storeTlv_writes (by decide) h

theorem execTlvDec_writes (h : execTlvDec s = .next t) : WritesOnlyResults .tlvDec s t := by
  unfold execTlvDec at h
  split at h
  · cases h
    exact takeFault_writes _ _
  · split at h
    · cases h
    · split at h <;> cases h
      · exact takeFault_writes _ _
      · exact storeRecord_writes _ (by decide)

theorem execDuNew_writes (h : execDuNew s = .next t) : WritesOnlyResults .duNew s t := by
  cases h
  split
  · exact { duRx := fun _ _ hn => absurd (by decide) hn }
  · exact { duTx := fun hn => absurd (by decide) hn }

theorem execDuAppend_writes (h : execDuAppend s = .next t) : WritesOnlyResults .duAppend s t := by
  unfold execDuAppend at h
  split at h
  · cases h
    exact takeFault_writes _ _
  · split at h
    · cases h
      exact takeFault_writes _ _
    · split at h <;> cases h
      · exact takeFault_writes _ _
      · exact { duTx := fun hn => absurd (by decide) hn }

theorem execDuParse_writes (h : execDuParse s = .next t) : WritesOnlyResults .duParse s t := by
  unfold execDuParse at h
  split_ifs at h <;> cases h
  · exact takeFault_writes _ _
  · exact openParse_writes (by decide)

theorem execDuGet_writes (h : execDuGet s = .next t) : WritesOnlyResults .duGet s t := by
  unfold execDuGet at h
  split at h <;> cases h
  · exact takeFault_writes _ _
  · exact storeRecord_writes _ (by decide)

theorem execEnvClassify_writes (h : execEnvClassify s = .next t) : WritesOnlyResults .envClassify s t := by
  unfold execEnvClassify at h
  split at h
  · cases h
  · split_ifs at h <;> cases h <;> exact { pay := fun hn => absurd (by decide) hn }

theorem execEnvBuild_writes (h : execEnvBuild s = .next t) : WritesOnlyResults .envBuild s t := by
  unfold execEnvBuild at h
  split at h
  · cases h
    exact takeFault_writes _ _
  · exact storeTx_writes (by decide) h

theorem execRxFrame_writes (h : execRxFrame s = .next t) : WritesOnlyResults .rxFrame s t := by
  unfold execRxFrame at h
  split at h
  · cases h
  · split_ifs at h <;> cases h <;> exact
      { pay := fun hn => absurd (by decide) hn
        savedPay := fun _ _ hn => absurd rfl hn
        off := fun _ hn => absurd (by decide) hn
        duRx := fun _ _ hn => absurd (by decide) hn }

end

/-- R91: every instruction writes its results and nothing else. -/
theorem exec_writes {i : Instr} {s t : State} (h : exec i s = .next t) : WritesOnlyResults i s t := by
  rcases instr_cases i with ⟨k, p, rfl⟩ | ⟨ty, len, hi⟩ | ⟨op, hop⟩
  · rw [exec_variant] at h
    cases h
    exact tlvStep_writes (by rw [isTlv, encode_variant]) _ _ _
  · rw [Fault.exec_undefined hi] at h
    cases h
    exact takeFault_writes _ _
  · cases i with
    | hdrEnc => exact execHdrEnc_writes h
    | hdrDec => exact execHdrDec_writes h
    | tlvEnc => exact execTlvEnc_writes h
    | tlvDec => exact execTlvDec_writes h
    | duNew => exact execDuNew_writes h
    | duAppend => exact execDuAppend_writes h
    | duSer => exact storeTx_writes (by decide) h
    | duParse => exact execDuParse_writes h
    | duGet => exact execDuGet_writes h
    | envClassify => exact execEnvClassify_writes h
    | envBuild => exact execEnvBuild_writes h
    | rxFrame => exact execRxFrame_writes h
    | duComplete =>
      cases h
      exact finish_writes _
    | reservedOp13 | reservedOp14 | reservedOp15 =>
      cases h
      exact takeFault_writes _ _
    | _ => cases hop

/-- Settles O54, instruction by instruction. -/
theorem instructionsWriteOnlyTheirResults : Obligations.InstructionsWriteOnlyTheirResults := by
  unfold Obligations.InstructionsWriteOnlyTheirResults
  intro i s t h
  have w := exec_writes h
  exact ⟨w.localMac, w.dstSel, w.expect, w.sel, w.idx, w.rxbuf, w.rxLen, w.inputs, w.header, w.tlvRec, w.tlvbuf, w.txbuf, w.pay,
    w.savedPay, w.duTx, w.off, w.duRx⟩

end Sys2Proof.Proofs.Frame
end

section
/-! The header functions (40_header_codec R100, R101, R102) and the two operations that run them, HDR.ENC (R104) and HDR.DEC (R105). -/

namespace Sys2Proof.Proofs.HeaderCodec

open Sys2Proof Sys2Proof.Machine Sys2Proof.Proofs.Encoding

/-! ### The header functions -/

/-- R101: inside the domain the encoder answers the header bytes. -/
theorem hdrEnc_of_le {t l : Nat} (ht : t ≤ 127) (hl : l ≤ 511) : hdrEnc t l = some (hdrJoin t l) :=
  hdrEnc_eq_some.mpr ⟨hl, ht, rfl⟩

/-- Settles O13: the encoder's answer is `hdrJoin`, which `hdrDec` undoes and which undoes `hdrDec`. -/
theorem headerFunctionsAreInverse : Obligations.HeaderFunctionsAreInverse := by
  unfold Obligations.HeaderFunctionsAreInverse
  refine ⟨fun t l ht hl => ?_, fun t l hl => hdrEnc_eq_none.mpr (.inl hl), fun b0 b1 => ?_⟩
  · exact ⟨_, _, hdrEnc_of_le ht hl, hdrDec_hdrJoin (Nat.lt_succ_of_le ht) (Nat.lt_succ_of_le hl)⟩
  · obtain ⟨ht, hl⟩ := hdrDec_lt b0 b1
    rw [hdrEnc_of_le (Nat.le_of_lt_succ ht) (Nat.le_of_lt_succ hl), hdrJoin_hdrDec]

/-! ### HDR.ENC -/

section
variable {s : State}

/-- R104: with both operands in their domain HDR.ENC stores the two header bytes (R51) at the start of `TLVBUF`. -/
theorem execHdrEnc_of_le (ht : s.htype.toNat ≤ 127) (hl : s.hlen.toNat ≤ 511) :
    execHdrEnc s = .next (finish statusOk { s with
      tlvbuf := (s.tlvbuf.write 0 (BitVec.ofNat 8 (s.htype.toNat * 2 + s.hlen.toNat / 256))).write 1
        (BitVec.ofNat 8 (s.hlen.toNat % 256))
      tlvLen := 2 }) := by
  have hstore (b0 b1 : Byte) := storeTlv_eq (b := [b0, b1]) s (show 2 ≤ Config.tlvCap by decide)
  rw [execHdrEnc, hdrEnc_of_le ht hl, hdrJoin_eq (Nat.lt_succ_of_le hl)]
  exact hstore _ _

/-- R104, R101: an operand outside its domain is a fault, and nothing is truncated. -/
theorem execHdrEnc_of_outside (h : 511 < s.hlen.toNat ∨ 127 < s.htype.toNat) :
    execHdrEnc s = .next (takeFault .hdrRange none s) := by
  rw [execHdrEnc, hdrEnc_eq_none.mpr h]

end

/-- Settles O30: the state HDR.ENC leaves, and its bytes read back by the laws of a read after a write. -/
theorem hdrEncResult : Obligations.HdrEncResult := by
  unfold Obligations.HdrEncResult
  refine ⟨rfl, rfl, fun s => ⟨execHdrEnc_of_le, fun ht hl hwf => ⟨_, execHdrEnc_of_le ht hl, ?_⟩, execHdrEnc_of_outside⟩⟩
  have hwf0 (b : Byte) : (s.tlvbuf.write 0 b).wf = true := wf_write 0 b hwf
  simp only [finish_tlvbuf]
  refine ⟨?_, ?_, fun a ha => ?_⟩
  · rw [read_write_ne (hwf0 _) _ Nat.zero_ne_one, read_write_same hwf, BitVec.toNat_ofNat]
    omega
  · rw [read_write_same (hwf0 _), BitVec.toNat_ofNat]
    omega
  · rw [read_write_ne (hwf0 _) _ (by omega), read_write_ne hwf _ (by omega)]

/-! ### HDR.DEC -/

section
variable {s : State}

/-- R105: with two valid bytes HDR.DEC splits them, and looks at no other. -/
theorem execHdrDec_of_valid (h : 2 ≤ s.tlvLen.toNat) :
    execHdrDec s = .next (finish statusOk { s with
      htype := BitVec.ofNat 8 ((s.tlvbuf.read 0).toNat / 2)
      hlen := BitVec.ofNat 16 ((s.tlvbuf.read 0).toNat % 2 * 256 + (s.tlvbuf.read 1).toNat) }) := by
  have hread : memRead .tlvbuf 0 2 s = .ok [s.tlvbuf.read 0, s.tlvbuf.read 1] := memRead_eq h (by decide)
  have hlen : ¬ validLen .tlvbuf s < 2 := Nat.not_lt.mpr h
  rw [execHdrDec, if_neg hlen, hread]
  simp only [hdrDec_eq]
  rfl

/-- R105: fewer than two valid bytes are a truncated header. -/
theorem execHdrDec_of_short (h : s.tlvLen.toNat < 2) : execHdrDec s = .next (takeFault .truncHdr none s) :=
  if_pos h

end

/-- Settles O31, by the number of valid bytes. -/
theorem hdrDecResult : Obligations.HdrDecResult := by
  unfold Obligations.HdrDecResult
  exact ⟨rfl, rfl, fun s => ⟨execHdrDec_of_valid, execHdrDec_of_short⟩⟩

end Sys2Proof.Proofs.HeaderCodec
end

section
/-! Well-formed UTF-8 (41_tlv_variants R123): the recognizer takes the rows of the table one by one from the front. -/

namespace Sys2Proof.Proofs.Utf8

open Sys2Proof Sys2Proof.Machine

/-! ### The entries of the table, by the numbers of the bytes -/

theorem inRange_iff {lo hi b : Byte} : inRange lo hi b = true ↔ lo.toNat ≤ b.toNat ∧ b.toNat ≤ hi.toNat := by
  simp [inRange, BitVec.le_def]

theorem ascii_iff {a : Byte} : inRange 0x00 0x7F a = true ↔ a.toNat ≤ 0x7F :=
  inRange_iff.trans (and_iff_right (Nat.zero_le _))

theorem utf8Tail_iff {b : Byte} : utf8Tail b = true ↔ 0x80 ≤ b.toNat ∧ b.toNat ≤ 0xBF := inRange_iff

theorem utf8Two_iff {a b : Byte} :
    utf8Two a b = true ↔ (0xC2 ≤ a.toNat ∧ a.toNat ≤ 0xDF) ∧ (0x80 ≤ b.toNat ∧ b.toNat ≤ 0xBF) := by
  rw [utf8Two, Bool.and_eq_true, inRange_iff, utf8Tail_iff]
  rfl

theorem utf8Three_iff {a b : Byte} :
    utf8Three a b = true ↔
      (a.toNat = 0xE0 ∧ 0xA0 ≤ b.toNat ∧ b.toNat ≤ 0xBF) ∨
      ((0xE1 ≤ a.toNat ∧ a.toNat ≤ 0xEC) ∧ 0x80 ≤ b.toNat ∧ b.toNat ≤ 0xBF) ∨
      (a.toNat = 0xED ∧ 0x80 ≤ b.toNat ∧ b.toNat ≤ 0x9F) ∨
      ((0xEE ≤ a.toNat ∧ a.toNat ≤ 0xEF) ∧ 0x80 ≤ b.toNat ∧ b.toNat ≤ 0xBF) := by
  simp only [utf8Three, Bool.or_eq_true, Bool.and_eq_true, inRange_iff, utf8Tail_iff, BitVec.reduceToNat]
  omega

theorem utf8Four_iff {a b : Byte} :
    utf8Four a b = true ↔
      (a.toNat = 0xF0 ∧ 0x90 ≤ b.toNat ∧ b.toNat ≤ 0xBF) ∨
      ((0xF1 ≤ a.toNat ∧ a.toNat ≤ 0xF3) ∧ 0x80 ≤ b.toNat ∧ b.toNat ≤ 0xBF) ∨
      (a.toNat = 0xF4 ∧ 0x80 ≤ b.toNat ∧ b.toNat ≤ 0x8F) := by
  simp only [utf8Four, Bool.or_eq_true, Bool.and_eq_true, inRange_iff, utf8Tail_iff, BitVec.reduceToNat]
  omega

/-! ### What the recognizer takes is a row -/

section
variable {a b c d : Byte}

theorem row_of_three (h : utf8Three a b = true) (hc : utf8Tail c = true) : Utf8Row [a, b, c] := by
  rw [utf8Tail_iff] at hc
  rcases utf8Three_iff.mp h with ⟨ha, hb⟩ | ⟨ha, hb⟩ | ⟨ha, hb⟩ | ⟨ha, hb⟩
  · exact .threeE0 ha hb hc
  · exact .threeE1 ha hb hc
  · exact .threeED ha hb hc
  · exact .threeEE ha hb hc

theorem row_of_four (h : utf8Four a b = true) (hc : utf8Tail c = true) (hd : utf8Tail d = true) : Utf8Row [a, b, c, d] := by
  rw [utf8Tail_iff] at hc hd
  rcases utf8Four_iff.mp h with ⟨ha, hb⟩ | ⟨ha, hb⟩ | ⟨ha, hb⟩
  · exact .fourF0 ha hb hc hd
  · exact .fourF1 ha hb hc hd
  · exact .fourF4 ha hb hc hd

/-- Accepted bytes are none, or begin with a row that accepted bytes follow. -/
theorem row_of_utf8Ok {t : Bytes} (h : utf8Ok t = true) (hne : t ≠ []) :
    ∃ r rest, Utf8Row r ∧ t = r ++ rest ∧ utf8Ok rest = true := by
  match t with
  | a :: t1 =>
    rw [utf8Ok.eq_def] at h
    dsimp only at h
    split_ifs at h with h1
    · exact ⟨[a], t1, .one (ascii_iff.mp h1), rfl, h⟩
    match t1 with
    | b :: t2 =>
      dsimp only at h
      split_ifs at h with h2
      · obtain ⟨ha, hb⟩ := utf8Two_iff.mp h2
        exact ⟨[a, b], t2, .two ha hb, rfl, h⟩
      match t2 with
      | c :: t3 =>
        dsimp only at h
        split_ifs at h with h3
        · obtain ⟨hab, hc⟩ := (Bool.and_eq_true _ _).mp h3
          exact ⟨[a, b, c], t3, row_of_three hab hc, rfl, h⟩
        match t3 with
        | d :: t4 =>
          simp only [Bool.and_eq_true] at h
          obtain ⟨⟨⟨hab, hc⟩, hd⟩, hrest⟩ := h
          exact ⟨[a, b, c, d], t4, row_of_four hab hc hd, rfl, hrest⟩

/-! ### A row is taken whole -/

variable (t : Bytes)

theorem utf8Ok_one (h : a.toNat ≤ 0x7F) : utf8Ok (a :: t) = utf8Ok t := by
  rw [utf8Ok.eq_def (a :: t)]
  exact if_pos (ascii_iff.mpr h)

theorem utf8Ok_two (h : utf8Two a b = true) : utf8Ok (a :: b :: t) = utf8Ok t := by
  have h1 : ¬ inRange 0x00 0x7F a = true := by
    rw [ascii_iff]
    have := utf8Two_iff.mp h
    omega
  rw [utf8Ok.eq_def (a :: b :: t)]
  exact (if_neg h1).trans (if_pos h)

theorem utf8Ok_three (h : utf8Three a b = true) (hc : utf8Tail c = true) : utf8Ok (a :: b :: c :: t) = utf8Ok t := by
  have hab := utf8Three_iff.mp h
  have h1 : ¬ inRange 0x00 0x7F a = true := by
    rw [ascii_iff]
    omega
  have h2 : ¬ utf8Two a b = true := by
    rw [utf8Two_iff]
    omega
  rw [utf8Ok.eq_def (a :: b :: c :: t)]
  exact (if_neg h1).trans ((if_neg h2).trans (if_pos (by rw [h, hc, Bool.and_self])))

theorem utf8Ok_four (h : utf8Four a b = true) (hc : utf8Tail c = true) (hd : utf8Tail d = true) :
    utf8Ok (a :: b :: c :: d :: t) = utf8Ok t := by
  have hab := utf8Four_iff.mp h
  have h1 : ¬ inRange 0x00 0x7F a = true := by
    rw [ascii_iff]
    omega
  have h2 : ¬ utf8Two a b = true := by
    rw [utf8Two_iff]
    omega
  have h3 : ¬ utf8Three a b = true := by
    rw [utf8Three_iff]
    omega
  rw [utf8Ok.eq_def (a :: b :: c :: d :: t)]
  refine (if_neg h1).trans ((if_neg h2).trans ((if_neg ?_).trans ?_))
  · rw [hc, Bool.and_true]
    exact h3
  · simp only [h, hc, hd, Bool.true_and]

end

/-- A row in front does not change whether the bytes are accepted. -/
theorem utf8Ok_row_append {r : Bytes} (h : Utf8Row r) (t : Bytes) : utf8Ok (r ++ t) = utf8Ok t := by
  cases h with
  | one ha => exact utf8Ok_one t ha
  | two ha hb => exact utf8Ok_two t (utf8Two_iff.mpr ⟨ha, hb⟩)
  | threeE0 ha hb hc => exact utf8Ok_three t (utf8Three_iff.mpr (.inl ⟨ha, hb⟩)) (utf8Tail_iff.mpr hc)
  | threeE1 ha hb hc => exact utf8Ok_three t (utf8Three_iff.mpr (.inr (.inl ⟨ha, hb⟩))) (utf8Tail_iff.mpr hc)
  | threeED ha hb hc => exact utf8Ok_three t (utf8Three_iff.mpr (.inr (.inr (.inl ⟨ha, hb⟩)))) (utf8Tail_iff.mpr hc)
  | threeEE ha hb hc => exact utf8Ok_three t (utf8Three_iff.mpr (.inr (.inr (.inr ⟨ha, hb⟩)))) (utf8Tail_iff.mpr hc)
  | fourF0 ha hb hc hd =>
    exact utf8Ok_four t (utf8Four_iff.mpr (.inl ⟨ha, hb⟩)) (utf8Tail_iff.mpr hc) (utf8Tail_iff.mpr hd)
  | fourF1 ha hb hc hd =>
    exact utf8Ok_four t (utf8Four_iff.mpr (.inr (.inl ⟨ha, hb⟩))) (utf8Tail_iff.mpr hc) (utf8Tail_iff.mpr hd)
  | fourF4 ha hb hc hd =>
    exact utf8Ok_four t (utf8Four_iff.mpr (.inr (.inr ⟨ha, hb⟩))) (utf8Tail_iff.mpr hc) (utf8Tail_iff.mpr hd)

theorem row_ne_nil {r : Bytes} (h : Utf8Row r) : r ≠ [] := by cases h <;> exact List.cons_ne_nil _ _

/-! ### Concatenations of rows -/

theorem utf8Ok_flatten {rows : List Bytes} (h : ∀ r ∈ rows, Utf8Row r) : utf8Ok rows.flatten = true := by
  induction rows with
  | nil => rfl
  | cons r rows ih =>
    rw [List.flatten_cons, utf8Ok_row_append (h r List.mem_cons_self)]
    exact ih fun r' hr' => h r' (List.mem_cons_of_mem r hr')

theorem exists_rows_of_utf8Ok {b : Bytes} (h : utf8Ok b = true) :
    ∃ rows : List Bytes, (∀ r ∈ rows, Utf8Row r) ∧ rows.flatten = b := by
  induction hn : b.length using Nat.strong_induction_on generalizing b with
  | _ n ih =>
    by_cases hb : b = []
    · exact ⟨[], List.forall_mem_nil _, hb.symm⟩
    · obtain ⟨r, rest, hr, rfl, hrest⟩ := row_of_utf8Ok h hb
      have hpos : 0 < r.length := List.length_pos_of_ne_nil (row_ne_nil hr)
      rw [List.length_append] at hn
      obtain ⟨rows, hrows, rfl⟩ := ih rest.length (by omega) hrest rfl
      exact ⟨r :: rows, List.forall_mem_cons.mpr ⟨hr, hrows⟩, List.flatten_cons⟩

/-- Settles O16: a row is split off the front of what is accepted, and put back in front of it, until nothing is left. -/
theorem utf8IsRowsOfTheTable : Obligations.Utf8IsRowsOfTheTable := by
  unfold Obligations.Utf8IsRowsOfTheTable
  intro b
  constructor
  · exact exists_rows_of_utf8Ok
  · rintro ⟨rows, hrows, rfl⟩
    exact utf8Ok_flatten hrows

end Sys2Proof.Proofs.Utf8
end

section
/-! The payload decoders and the checks of `enc` (41_tlv_variants R121, R122, R125): a payload decodes to exactly the well-formed
value whose bytes it is. -/

namespace Sys2Proof.Proofs.VariantCodec

open Sys2Proof Sys2Proof.Machine

/-! ### Numbers (20_memory R51, 00_scope R13) -/

/-- Two bytes side by side are the number they stand for. -/
theorem exists_bytes_of_word16 (x : BitVec 16) : ∃ hi lo : Byte, x = hi ++ lo :=
  ⟨x.extractLsb' 8 8, x.extractLsb' 0 8, by
    rw [BitVec.extractLsb'_append_extractLsb'_eq_extractLsb' (by rfl), BitVec.extractLsb'_eq_self]⟩

theorem exists_bytes_of_word32 (x : BitVec 32) : ∃ n3 n2 n1 n0 : Byte, x = n3 ++ n2 ++ n1 ++ n0 := by
  refine ⟨x.extractLsb' 24 8, x.extractLsb' 16 8, x.extractLsb' 8 8, x.extractLsb' 0 8, ?_⟩
  rw [BitVec.extractLsb'_append_extractLsb'_eq_extractLsb' (by rfl), BitVec.extractLsb'_append_extractLsb'_eq_extractLsb' (by rfl),
    BitVec.extractLsb'_append_extractLsb'_eq_extractLsb' (by rfl), BitVec.extractLsb'_eq_self]

/-! ### The first bytes of a sequence that is long enough -/

theorem four_bytes_of_length {p : Bytes} (h : 4 ≤ p.length) : ∃ a b c d r, p = a :: b :: c :: d :: r := by
  match p, h with
  | a :: b :: c :: d :: r, _ => exact ⟨a, b, c, d, r, rfl⟩

theorem six_bytes_of_length {p : Bytes} (h : 6 ≤ p.length) : ∃ a b c d e f r, p = a :: b :: c :: d :: e :: f :: r := by
  match p, h with
  | a :: b :: c :: d :: e :: f :: r, _ => exact ⟨a, b, c, d, e, f, r, rfl⟩

/-! ### The checks of `enc` ask for `WF` (R122, R125) -/

theorem textCheck_eq_ok {t : Bytes} : textCheck t = .ok () ↔ t.length ≤ 255 ∧ utf8Ok t = true := by
  refine ⟨fun h => ?_, fun h => Wire.textCheck_of_wf h.1 h.2⟩
  unfold textCheck at h
  split_ifs at h with hl hu
  exact ⟨Nat.le_of_not_lt hl, by simpa using hu⟩

theorem inside_of_not {b lo hi : Byte} (h : ¬ (b < lo ∨ b > hi)) : lo ≤ b ∧ b ≤ hi :=
  ⟨BitVec.not_lt.mp (not_or.mp h).1, BitVec.not_lt.mp (not_or.mp h).2⟩

theorem idCheck_eq_ok {kind : Byte → IdKind} {sub : Byte} {idv : IdValue} :
    idCheck kind sub idv = .ok () ↔ idWf kind sub idv = true := by
  refine ⟨fun h => ?_, Wire.idCheck_of_wf⟩
  unfold idCheck at h
  split_ifs at h with hsub hkind
  obtain ⟨h1, h7⟩ := inside_of_not hsub
  simp only [Bool.not_eq_true, Bool.not_eq_false', Record.hasKind_iff] at hkind
  cases idv with
  | mac m =>
    dsimp only at h
    split_ifs at h with hl
    exact Wire.idWf_mac hkind h1 h7 (not_not.mp hl)
  | net af addr =>
    dsimp only at h
    split_ifs at h with hf hl
    exact Wire.idWf_net hkind h1 h7 (by simpa using hf) (not_not.mp hl)
  | text t =>
    dsimp only at h
    split_ifs at h with hl hu
    exact Wire.idWf_text hkind h1 h7 (Nat.le_of_not_lt hl) (by simpa using hu)

/-- R125: the checks `enc` makes are the table of R122. -/
theorem wfCheck_eq_ok {v : Tlv} : wfCheck v = .ok () ↔ v.wf = true := by
  refine ⟨fun h => ?_, Wire.wfCheck_of_wf⟩
  cases v with
  | endOfLldpdu | ttl => rfl
  | chassisId | portId => exact idCheck_eq_ok.mp h
  | portDescription | systemName | systemDescription =>
    simpa [Tlv.wf] using textCheck_eq_ok.mp h
  | systemCapabilities => simpa [Tlv.wf, wfCheck] using h
  | managementAddress =>
    simp only [wfCheck] at h
    split_ifs at h with hf hl hs ho
    have hsub := inside_of_not hs
    simp only [Tlv.wf, Bool.and_eq_true, decide_eq_true_eq, beq_iff_eq]
    exact ⟨⟨⟨⟨by simpa using hf, not_not.mp hl⟩, hsub.1⟩, hsub.2⟩, Nat.le_of_not_lt ho⟩
  | organizationallySpecific =>
    simp only [wfCheck] at h
    split_ifs at h with hl hv
    simp only [Tlv.wf, Bool.and_eq_true, decide_eq_true_eq, beq_iff_eq]
    exact ⟨not_not.mp hl, Nat.le_of_not_lt hv⟩

theorem enc_eq_ok_iff {v : Tlv} {b : Bytes} : enc v = .ok b ↔ v.wf = true ∧ b = encBytes v := by
  rw [enc_eq_ok, wfCheck_eq_ok]

/-! ### Ids (R131, R134), an equation for each kind -/

section
variable {kind : Byte → IdKind} {sub : Byte}

theorem idDec_of_subtype (r : Bytes) (h : sub < 1 ∨ 7 < sub) : idDec kind (sub :: r) = .error .subtype := if_pos h

variable (h1 : 1 ≤ sub) (h7 : sub ≤ 7)
include h1 h7

theorem idDec_mac (hkind : kind sub = .mac) (m : Bytes) :
    idDec kind (sub :: m) = if m.length ≠ 6 then .error .lenRange else .ok (sub, .mac m) := by
  simp only [idDec, if_neg (Wire.not_outside h1 h7), hkind]

theorem idDec_net_empty (hkind : kind sub = .net) : idDec kind [sub] = .error .lenRange := by
  simp only [idDec, if_neg (Wire.not_outside h1 h7), hkind]

theorem idDec_net (hkind : kind sub = .net) (af : Byte) (addr : Bytes) :
    idDec kind (sub :: af :: addr) =
      if !isFamily af then .error .af else if addr.length ≠ addrLen af then .error .lenRange else .ok (sub, .net af addr) := by
  simp only [idDec, if_neg (Wire.not_outside h1 h7), hkind]

theorem idDec_text (hkind : kind sub = .text) (t : Bytes) :
    idDec kind (sub :: t) =
      if t.length > 510 then .error .lenRange else if !utf8Ok t then .error .utf8 else .ok (sub, .text t) := by
  simp only [idDec, if_neg (Wire.not_outside h1 h7), hkind]

end

/-- R134: an id payload decodes to exactly the well-formed subtype and id value whose bytes it is. -/
theorem idDec_eq_ok_iff {kind : Byte → IdKind} {p : Bytes} {sub : Byte} {idv : IdValue} :
    idDec kind p = .ok (sub, idv) ↔ idWf kind sub idv = true ∧ p = sub :: idv.bytes := by
  constructor
  · intro h
    obtain ⟨rest, rfl, hs, ⟨hk, hl, rfl⟩ | ⟨af, addr, hk, rfl, hf, hl, rfl⟩ | ⟨hk, hl, hu, rfl⟩⟩ := idDec_eq_ok h
    all_goals obtain ⟨h1, h7⟩ := inside_of_not hs
    · exact ⟨Wire.idWf_mac hk h1 h7 hl, rfl⟩
    · exact ⟨Wire.idWf_net hk h1 h7 hf hl, rfl⟩
    · exact ⟨Wire.idWf_text hk h1 h7 hl hu, rfl⟩
  · rintro ⟨h, rfl⟩
    simp only [idWf, Bool.and_eq_true, decide_eq_true_eq, Record.hasKind_iff] at h
    obtain ⟨⟨⟨h1, h7⟩, hkind⟩, hvalue⟩ := h
    cases idv with
    | mac m => simpa [IdValue.bytes, idDec_mac h1 h7 hkind] using hvalue
    | net af addr =>
      obtain ⟨hf, hl⟩ : isFamily af = true ∧ addr.length = addrLen af := by simpa using hvalue
      simp [IdValue.bytes, idDec_net h1 h7 hkind, hf, hl]
    | text t =>
      obtain ⟨hl, hu⟩ : t.length ≤ 510 ∧ utf8Ok t = true := by simpa using hvalue
      simp [IdValue.bytes, idDec_text h1 h7 hkind, hu, Nat.not_lt.mpr hl]

/-! ### ManagementAddress (R160, R161) -/

/-- The layout of R160: string length, family and address, interface subtype and number, OID length and OID. -/
def mgmtPayload (sl af : Byte) (addr : Bytes) (ifsub n3 n2 n1 n0 ol : Byte) (oid : Bytes) : Bytes :=
  sl :: af :: (addr ++ ifsub :: n3 :: n2 :: n1 :: n0 :: ol :: oid)

/-- R161: the checks of the fields of a payload whose length bytes are `sl` and `ol`, and the value it stands for. -/
def mgmtFields (p : Bytes) (sl ol : Nat) : Except Cause Tlv :=
  if !isFamily (p.getD 1 0) then .error .af
  else if sl - 1 ≠ addrLen (p.getD 1 0) then .error .lenRange
  else if ol > 128 then .error .lenRange
  else if p.getD (sl + 1) 0 < 1 ∨ p.getD (sl + 1) 0 > 3 then .error .subtype
  else .ok (.managementAddress (p.getD 1 0) (slice p 2 (sl + 1)) (p.getD (sl + 1) 0) (be32 (slice p (sl + 2) (sl + 6)))
    (slice p (sl + 7) (sl + 7 + ol)))

section
variable {p : Bytes} {sl ol : Nat} (hsl : sl = (p.getD 0 0).toNat) (hol : ol = (p.getD (sl + 6) 0).toNat)
include hsl hol

/-- R161, with its two length bytes named. -/
theorem pdecManagementAddress_of_nonempty (hpos : 1 ≤ p.length) :
    pdecManagementAddress p =
      if p.length < sl + 7 then .error .truncPayload
      else if p.length < sl + 7 + ol then .error .truncPayload
      else if p.length > sl + 7 + ol then .error .trailing
      else if sl < 1 then .error .lenRange
      else mgmtFields p sl ol := by
  subst hsl hol
  exact if_neg (Nat.not_lt.mpr hpos)

/-- R161: once the lengths fit and the string has its family byte, the fields are left. -/
theorem pdecManagementAddress_of_length (hlen : p.length = sl + 7 + ol) (hpos : 1 ≤ sl) :
    pdecManagementAddress p = mgmtFields p sl ol := by
  rw [pdecManagementAddress_of_nonempty hsl hol (by omega), if_neg (by omega), if_neg (by omega), if_neg (by omega),
    if_neg (by omega)]

/-- R161: what decodes has passed the checks of the lengths. -/
theorem length_of_pdecManagementAddress_eq_ok {v : Tlv} (h : pdecManagementAddress p = .ok v) :
    p.length = sl + 7 + ol ∧ 1 ≤ sl := by
  cases p with
  | nil => cases h
  | cons b r =>
    rw [pdecManagementAddress_of_nonempty hsl hol (Nat.le_add_left 1 _)] at h
    split_ifs at h
    omega

end

/-- A payload whose length bytes fit it, and whose string has its family byte, is so laid out. -/
theorem exists_mgmtPayload {p : Bytes} {sl ol : Nat} (hsl : sl = (p.getD 0 0).toNat) (hol : ol = (p.getD (sl + 6) 0).toNat)
    (hlen : p.length = sl + 7 + ol) (hpos : 1 ≤ sl) :
    ∃ b0 af addr ifsub n3 n2 n1 n0 b6 oid, p = mgmtPayload b0 af addr ifsub n3 n2 n1 n0 b6 oid ∧
      b0.toNat = addr.length + 1 ∧ b6.toNat = oid.length := by
  obtain ⟨n, rfl⟩ := Nat.exists_eq_add_of_le' hpos
  match p, hlen with
  | [_], hlen =>
    rw [List.length_singleton] at hlen
    omega
  | b0 :: af :: r, hlen =>
    simp only [List.length_cons] at hlen
    obtain ⟨addr, rest, rfl, rfl⟩ : ∃ addr rest, r = addr ++ rest ∧ addr.length = n :=
      ⟨r.take n, r.drop n, (List.take_append_drop n r).symm, List.length_take_of_le (by omega)⟩
    rw [List.length_append] at hlen
    obtain ⟨ifsub, n3, n2, n1, n0, b6, oid, rfl⟩ := six_bytes_of_length (p := rest) (by omega)
    refine ⟨b0, af, addr, ifsub, n3, n2, n1, n0, b6, oid, rfl, hsl.symm, ?_⟩
    have hb6 : ol = b6.toNat := by simpa using hol
    simp only [List.length_cons] at hlen
    omega

theorem pdecManagementAddress_mgmtPayload {sl ol : Byte} {addr oid : Bytes} (af ifsub n3 n2 n1 n0 : Byte)
    (hsl : sl.toNat = addr.length + 1) (hol : ol.toNat = oid.length) :
    pdecManagementAddress (mgmtPayload sl af addr ifsub n3 n2 n1 n0 ol oid) =
      if !isFamily af then .error .af
      else if addr.length ≠ addrLen af then .error .lenRange
      else if oid.length > 128 then .error .lenRange
      else if ifsub < 1 ∨ ifsub > 3 then .error .subtype
      else .ok (.managementAddress af addr ifsub (n3 ++ n2 ++ n1 ++ n0) oid) := by
  rw [pdecManagementAddress_of_length (sl := addr.length + 1) (ol := oid.length)]
  · simp [mgmtFields, mgmtPayload, slice, be32, byteAt]
  · exact hsl.symm
  · simp [mgmtPayload, hol]
  · simp +arith [mgmtPayload]
  · omega

theorem penc_managementAddress (af : Byte) (addr : Bytes) (ifsub n3 n2 n1 n0 : Byte) (oid : Bytes) :
    penc (.managementAddress af addr ifsub (n3 ++ n2 ++ n1 ++ n0) oid) =
      mgmtPayload (BitVec.ofNat 8 (1 + addr.length)) af addr ifsub n3 n2 n1 n0 (BitVec.ofNat 8 oid.length) oid := by
  simp [mgmtPayload, penc, Wire.toBe32_append]

/-! ### Each decoder answers the well-formed values of its variant, and from their bytes only -/

theorem pdecManagementAddress_eq_ok {p : Bytes} {v : Tlv} (h : pdecManagementAddress p = .ok v) :
    v.variant = .managementAddress ∧ v.wf = true ∧ p = penc v := by
  obtain ⟨hlen, hpos⟩ := length_of_pdecManagementAddress_eq_ok rfl rfl h
  obtain ⟨b0, af, addr, ifsub, n3, n2, n1, n0, b6, oid, rfl, hb0, hb6⟩ := exists_mgmtPayload rfl rfl hlen hpos
  rw [pdecManagementAddress_mgmtPayload _ _ _ _ _ _ hb0 hb6] at h
  split_ifs at h with hf hl ho hs
  cases h
  obtain ⟨h1, h3⟩ := inside_of_not hs
  refine ⟨rfl, ?_, ?_⟩
  · simp only [Tlv.wf, Bool.and_eq_true, decide_eq_true_eq, beq_iff_eq]
    exact ⟨⟨⟨⟨by simpa using hf, not_not.mp hl⟩, h1⟩, h3⟩, Nat.le_of_not_lt ho⟩
  · simp [penc_managementAddress, Nat.add_comm 1, ← hb0, ← hb6]

theorem pdecManagementAddress_penc {af ifsub : Byte} {addr oid : Bytes} {ifnum : BitVec 32}
    (h : (Tlv.managementAddress af addr ifsub ifnum oid).wf = true) :
    pdecManagementAddress (penc (.managementAddress af addr ifsub ifnum oid)) =
      .ok (.managementAddress af addr ifsub ifnum oid) := by
  obtain ⟨n3, n2, n1, n0, rfl⟩ := exists_bytes_of_word32 ifnum
  simp only [Tlv.wf, Bool.and_eq_true, decide_eq_true_eq, beq_iff_eq] at h
  obtain ⟨⟨⟨⟨hf, hl⟩, h1⟩, h3⟩, ho⟩ := h
  have haddr := Record.family_cases hf hl
  rw [penc_managementAddress, pdecManagementAddress_mgmtPayload]
  · rw [hf, if_neg (by decide), if_neg (not_not.mpr hl), if_neg (Nat.not_lt.mpr ho), if_neg (Wire.not_outside h1 h3)]
  · rw [BitVec.toNat_ofNat]
    omega
  · rw [BitVec.toNat_ofNat]
    omega

/-- R121 to R171: a payload that decodes is the payload of a value of its variant, well-formed when its length fits the header. The
bound matters to OrganizationallySpecific alone, whose decode rule leaves it to the length field (R166). -/
theorem pdec_eq_ok {k : Variant} {p : Bytes} {v : Tlv} (h : pdec k p = .ok v) :
    v.variant = k ∧ p = penc v ∧ (p.length ≤ 511 → v.wf = true) := by
  cases k with
  | endOfLldpdu =>
    simp only [pdec, pdecEndOfLldpdu] at h
    split_ifs at h with hl
    cases h
    exact ⟨rfl, List.length_eq_zero_iff.mp (not_not.mp hl), fun _ => rfl⟩
  | chassisId | portId =>
    simp only [pdec, pdecChassisId, pdecPortId] at h
    split at h <;> cases h
    obtain ⟨hwf, hp⟩ := idDec_eq_ok_iff.mp ‹_›
    exact ⟨rfl, hp, fun _ => hwf⟩
  | ttl =>
    simp only [pdec, pdecTtl] at h
    split_ifs at h with hl
    cases h
    obtain ⟨hi, lo, rfl⟩ := List.length_eq_two.mp (not_not.mp hl)
    exact ⟨rfl, (Wire.toBe16_append hi lo).symm, fun _ => rfl⟩
  | portDescription | systemName | systemDescription =>
    simp only [pdec, pdecPortDescription, pdecSystemName, pdecSystemDescription] at h
    split at h <;> cases h
    obtain ⟨hl, hu, rfl⟩ := textDec_eq_ok.mp ‹_›
    exact ⟨rfl, rfl, fun _ => by simp [Tlv.wf, hl, hu]⟩
  | systemCapabilities =>
    simp only [pdec, pdecSystemCapabilities] at h
    split_ifs at h with hl hs
    cases h
    obtain ⟨a, b, c, d, rfl⟩ := List.length_eq_four.mp (not_not.mp hl)
    have hp : toBe16 (a ++ b) ++ toBe16 (c ++ d) = [a, b, c, d] :=
      congrArg₂ (· ++ ·) (Wire.toBe16_append a b) (Wire.toBe16_append c d)
    exact ⟨rfl, hp.symm, fun _ => beq_iff_eq.mpr (not_not.mp hs)⟩
  | managementAddress =>
    obtain ⟨hk, hwf, hp⟩ := pdecManagementAddress_eq_ok h
    exact ⟨hk, hp, fun _ => hwf⟩
  | organizationallySpecific =>
    simp only [pdec, pdecOrganizationallySpecific] at h
    split_ifs at h with hl
    cases h
    obtain ⟨o0, o1, o2, sub, value, rfl⟩ := four_bytes_of_length (Nat.le_of_not_lt hl)
    refine ⟨rfl, by simp [penc, slice, byteAt], fun hlen => ?_⟩
    have hvalue : value.length ≤ 507 := by
      simp only [List.length_cons] at hlen
      omega
    simpa [Tlv.wf, slice] using hvalue

/-- R121 to R171: the payload of a well-formed value decodes to it. -/
theorem pdec_penc {v : Tlv} (h : v.wf = true) : pdec v.variant (penc v) = .ok v := by
  cases v with
  | endOfLldpdu => rfl
  | chassisId | portId => simp only [pdec, Tlv.variant, pdecChassisId, pdecPortId, penc, idDec_eq_ok_iff.mpr ⟨h, rfl⟩]
  | ttl secs =>
    obtain ⟨hi, lo, rfl⟩ := exists_bytes_of_word16 secs
    rw [penc, Wire.toBe16_append]
    rfl
  | portDescription | systemName | systemDescription =>
    simp only [Tlv.wf, Bool.and_eq_true, decide_eq_true_eq] at h
    simp only [pdec, Tlv.variant, pdecPortDescription, pdecSystemName, pdecSystemDescription, penc,
      textDec_eq_ok.mpr ⟨h.1, h.2, rfl⟩]
  | systemCapabilities sup en =>
    obtain ⟨a, b, rfl⟩ := exists_bytes_of_word16 sup
    obtain ⟨c, d, rfl⟩ := exists_bytes_of_word16 en
    rw [penc, Wire.toBe16_append, Wire.toBe16_append]
    exact if_neg (not_not.mpr (beq_iff_eq.mp h))
  | managementAddress => exact pdecManagementAddress_penc h
  | organizationallySpecific oui sub value =>
    obtain ⟨o0, o1, o2, rfl⟩ := List.length_eq_three.mp (Record.oui_length_of_wf h)
    simp [pdec, Tlv.variant, pdecOrganizationallySpecific, penc, slice, byteAt]

/-! ### The frame around them (R121) -/

/-- R124: the bytes of a well-formed value decode to it. -/
theorem decFrame_encBytes {v : Tlv} (h : v.wf = true) : decFrame v.variant (encBytes v) = .ok v := by
  have hdr := Encoding.hdrDec_hdrJoin (variant_code_lt v.variant) (Nat.lt_succ_of_le (Record.tlvLength_le_of_wf h))
  rw [tlvLength] at hdr
  simp only [encBytes, tlvBytes, decFrame, hdr, pdec_penc h, ne_eq, not_true_eq_false, lt_irrefl, if_false]

/-- R124: bytes that decode are those of a well-formed value of the variant asked for. -/
theorem decFrame_eq_ok_iff {k : Variant} {b : Bytes} {v : Tlv} :
    decFrame k b = .ok v ↔ v.variant = k ∧ v.wf = true ∧ b = encBytes v := by
  constructor
  · intro h
    obtain ⟨b0, b1, p, rfl, hcode, hlen, hp⟩ := decFrame_eq_ok h
    obtain ⟨rfl, rfl, hwf⟩ := pdec_eq_ok hp
    refine ⟨rfl, hwf (hlen.trans_le (Nat.le_of_lt_succ (hdrDec_lt b0 b1).2)), ?_⟩
    rw [encBytes, tlvBytes, hlen, ← hcode, Encoding.hdrJoin_hdrDec]
  · rintro ⟨rfl, hwf, rfl⟩
    exact decFrame_encBytes hwf

/-- Settles O14: both laws are the one fact that the bytes which decode to a value are the bytes `enc` gives for it. -/
theorem variantCodecsRoundTrip : Obligations.VariantCodecsRoundTrip := by
  unfold Obligations.VariantCodecsRoundTrip
  constructor
  · intro v hwf
    exact ⟨encBytes v, enc_eq_ok_iff.mpr ⟨hwf, rfl⟩, decFrame_encBytes hwf⟩
  · intro k b v h
    exact enc_eq_ok_iff.mpr (decFrame_eq_ok_iff.mp h).2

/-- Settles O15: what decodes is well-formed, the checks of `enc` are `WF`, and the longest payload of each variant fits. -/
theorem wellFormedValuesAreThoseEncoded : Obligations.WellFormedValuesAreThoseEncoded := by
  unfold Obligations.WellFormedValuesAreThoseEncoded
  refine ⟨fun k b v h => (decFrame_eq_ok_iff.mp h).2.1, fun v => ?_, fun v => Record.tlvLength_le_of_wf⟩
  simp [enc_eq_ok_iff]

end Sys2Proof.Proofs.VariantCodec
end

section
/-! The TLV step of each defined type (42_container R200): the value its payload stands for is appended where `append` takes it
(R186), and a payload its decode rule turns away is a fault on its type (41_tlv_variants R128). -/

namespace Sys2Proof.Proofs.TlvStep

open Sys2Proof Sys2Proof.Machine Sys2Proof.Proofs.VariantCodec

/-! ### What `append` takes (R186) -/

/-- R185, R186: the position test of a value's class is the position rule of its variant. -/
theorem positionFault_eq_none {v : Tlv} {n : Nat} : positionFault v.cls n = none ↔ mayStandAt v.variant n := by
  cases v <;> simp [Tlv.cls, Tlv.variant, positionFault, mayStandAt]

/-- R186: a value is appended exactly where its variant is accepted. -/
theorem duAppend_eq_ok_iff {du du' : List Tlv} {v : Tlv} :
    duAppend du v = .ok du' ↔ Accepts du v.variant (tlvSize v) ∧ du' = du ++ [v] := by
  rw [duAppend_eq_ok, positionFault_eq_none, Accepts, and_assoc, and_assoc]

/-! ### The step of a payload that decodes, and of one that does not -/

/-- R200: the state once a value whose TLV has `n` bytes is appended. -/
def appended (v : Tlv) (n : Nat) (s : State) : State := { s with duRx := s.duRx ++ [v], off := s.off + BitVec.ofNat 11 n }

section
variable {k : Variant} {p : Bytes} {v : Tlv} {n : Nat} {s : State}

theorem exec_eq_of_accepts (h : pdec k p = .ok v) (hn : 2 + p.length = n) (ha : Accepts s.duRx k n) :
    exec (k.instr p) s = .next (if k = .endOfLldpdu then stopParse .endTlv (appended v n s) else appended v n s) := by
  obtain ⟨rfl, rfl, -⟩ := pdec_eq_ok h
  subst hn
  have happ : duAppend s.duRx v = .ok (s.duRx ++ [v]) := duAppend_eq_ok_iff.mpr ⟨ha, rfl⟩
  rw [exec_variant, h]
  simp only [tlvStep, happ]
  rfl

/-- R200: a TLV that does not end the LLDPDU moves the cursor behind it, and the parse goes on. -/
theorem exec_of_accepts (h : pdec k p = .ok v) (hk : k ≠ .endOfLldpdu) (hn : 2 + p.length = n) (ha : Accepts s.duRx k n) :
    exec (k.instr p) s = .next (appended v n s) := by
  rw [exec_eq_of_accepts h hn ha, if_neg hk]

/-- R128, R245: a payload its decoder turns away faults with that cause, on the type of the TLV. -/
theorem exec_of_pdec_error {c : Cause} (h : pdec k p = .error c) :
    exec (k.instr p) s = .next (takeFault c (some (variantTyp k)) s) := by
  rw [exec_variant, h]
  rfl

end

/-! ### Families (R122) -/

section
variable {af : Byte} {n : Nat}

theorem isFamily_of_eq (h : af = 1 ∨ af = 2) : isFamily af = true := by
  rcases h with rfl | rfl <;> rfl

theorem isFamily_eq_false (h1 : af ≠ 1) (h2 : af ≠ 2) : isFamily af = false := by
  rw [isFamily, beq_false_of_ne h1, beq_false_of_ne h2, Bool.or_self]

theorem family_of_length (h : (af = 1 ∧ n = 4) ∨ (af = 2 ∧ n = 16)) : isFamily af = true ∧ n = addrLen af := by
  rcases h with ⟨rfl, rfl⟩ | ⟨rfl, rfl⟩ <;> exact ⟨rfl, rfl⟩

theorem family_of_wrong_length (h : (af = 1 ∧ n ≠ 4) ∨ (af = 2 ∧ n ≠ 16)) : isFamily af = true ∧ n ≠ addrLen af := by
  rcases h with ⟨rfl, hn⟩ | ⟨rfl, hn⟩ <;> exact ⟨rfl, hn⟩

end

/-! ### Ids (R131, R134): what a payload of each kind is turned away for -/

section
variable {kind : Byte → IdKind} {sub : Byte} (h1 : 1 ≤ sub) (h7 : sub ≤ 7)
include h1 h7

theorem idDec_mac_of_length_ne {m : Bytes} (hkind : kind sub = .mac) (hm : m.length ≠ 6) :
    idDec kind (sub :: m) = .error .lenRange := (idDec_mac h1 h7 hkind m).trans (if_pos hm)

theorem idDec_net_of_not_family {af : Byte} (a : Bytes) (hkind : kind sub = .net) (hf1 : af ≠ 1) (hf2 : af ≠ 2) :
    idDec kind (sub :: af :: a) = .error .af := by
  rw [idDec_net h1 h7 hkind, isFamily_eq_false hf1 hf2]
  rfl

theorem idDec_net_of_length_ne {af : Byte} {a : Bytes} (hkind : kind sub = .net)
    (h : (af = 1 ∧ a.length ≠ 4) ∨ (af = 2 ∧ a.length ≠ 16)) : idDec kind (sub :: af :: a) = .error .lenRange := by
  obtain ⟨hf, hl⟩ := family_of_wrong_length h
  rw [idDec_net h1 h7 hkind, hf, if_pos hl]
  rfl

theorem idDec_text_of_not_utf8 {t : Bytes} (hkind : kind sub = .text) (hl : t.length ≤ 510) (hu : utf8Ok t = false) :
    idDec kind (sub :: t) = .error .utf8 := by
  rw [idDec_text h1 h7 hkind, if_neg (Nat.not_lt.mpr hl), hu]
  rfl

end

section
variable {s : State}

theorem exec_chassisId {sub : Byte} {idv : IdValue} {n : Nat} (h : idWf chassisKind sub idv = true)
    (hn : 3 + idv.bytes.length = n) (ha : Accepts s.duRx .chassisId n) :
    exec (.chassisId (sub :: idv.bytes)) s = .next (appended (.chassisId sub idv) n s) :=
  exec_of_accepts (pdec_penc (v := .chassisId sub idv) h) nofun (by rw [penc, List.length_cons]; omega) ha

theorem exec_portId {sub : Byte} {idv : IdValue} {n : Nat} (h : idWf portKind sub idv = true)
    (hn : 3 + idv.bytes.length = n) (ha : Accepts s.duRx .portId n) :
    exec (.portId (sub :: idv.bytes)) s = .next (appended (.portId sub idv) n s) :=
  exec_of_accepts (pdec_penc (v := .portId sub idv) h) nofun (by rw [penc, List.length_cons]; omega) ha

theorem exec_chassisId_of_error {p : Bytes} {c : Cause} (h : idDec chassisKind p = .error c) :
    exec (.chassisId p) s = .next (takeFault c (some 1) s) :=
  exec_of_pdec_error (k := .chassisId) (by simp only [pdec, pdecChassisId, h])

theorem exec_portId_of_error {p : Bytes} {c : Cause} (h : idDec portKind p = .error c) :
    exec (.portId p) s = .next (takeFault c (some 2) s) :=
  exec_of_pdec_error (k := .portId) (by simp only [pdec, pdecPortId, h])

end

theorem chassisKind_text {sub : Byte} (h4 : sub ≠ 4) (h5 : sub ≠ 5) : chassisKind sub = .text := by
  rw [chassisKind, if_neg h4, if_neg h5]

theorem portKind_text {sub : Byte} (h3 : sub ≠ 3) (h4 : sub ≠ 4) : portKind sub = .text := by
  rw [portKind, if_neg h3, if_neg h4]

/-- Settles O19: the id payload of each kind is that of a well-formed value, or its decoder names the fault. -/
theorem chassisIdStep : Obligations.ChassisIdStep := by
  unfold Obligations.ChassisIdStep
  intro s
  have h41 : (1 : Byte) ≤ 4 := by decide
  have h47 : (4 : Byte) ≤ 7 := by decide
  have h51 : (1 : Byte) ≤ 5 := by decide
  have h57 : (5 : Byte) ≤ 7 := by decide
  refine ⟨?mac, ?net, ?text, exec_chassisId_of_error rfl, ?subtype, ?macLength,
    exec_chassisId_of_error (idDec_net_empty h51 h57 rfl), ?family, ?netLength, ?utf8⟩
  case mac =>
    intro m hm ha
    exact exec_chassisId (Wire.idWf_mac rfl h41 h47 hm) (by rw [IdValue.bytes, hm]) ha
  case net =>
    intro af a h ha
    obtain ⟨hf, hl⟩ := family_of_length h
    exact exec_chassisId (Wire.idWf_net rfl h51 h57 hf hl) (by rw [IdValue.bytes, List.length_cons]; omega) ha
  case text =>
    intro sub t h1 h7 h4 h5 hl hu ha
    exact exec_chassisId (Wire.idWf_text (chassisKind_text h4 h5) h1 h7 hl hu) rfl ha
  case subtype => exact fun sub r h => exec_chassisId_of_error (idDec_of_subtype r h)
  case macLength => exact fun m hm => exec_chassisId_of_error (idDec_mac_of_length_ne h41 h47 rfl hm)
  case family => exact fun af a h1 h2 => exec_chassisId_of_error (idDec_net_of_not_family h51 h57 a rfl h1 h2)
  case netLength => exact fun af a h => exec_chassisId_of_error (idDec_net_of_length_ne h51 h57 rfl h)
  case utf8 =>
    intro sub t h1 h7 h4 h5 hl hu
    exact exec_chassisId_of_error (idDec_text_of_not_utf8 h1 h7 (chassisKind_text h4 h5) hl hu)

/-- Settles O20, as O19 with the PortId column of R131. -/
theorem portIdStep : Obligations.PortIdStep := by
  unfold Obligations.PortIdStep
  intro s
  have h31 : (1 : Byte) ≤ 3 := by decide
  have h37 : (3 : Byte) ≤ 7 := by decide
  have h41 : (1 : Byte) ≤ 4 := by decide
  have h47 : (4 : Byte) ≤ 7 := by decide
  refine ⟨?mac, ?net, ?text, exec_portId_of_error rfl, ?subtype, ?macLength,
    exec_portId_of_error (idDec_net_empty h41 h47 rfl), ?family, ?netLength, ?utf8⟩
  case mac =>
    intro m hm ha
    exact exec_portId (Wire.idWf_mac rfl h31 h37 hm) (by rw [IdValue.bytes, hm]) ha
  case net =>
    intro af a h ha
    obtain ⟨hf, hl⟩ := family_of_length h
    exact exec_portId (Wire.idWf_net rfl h41 h47 hf hl) (by rw [IdValue.bytes, List.length_cons]; omega) ha
  case text =>
    intro sub t h1 h7 h3 h4 hl hu ha
    exact exec_portId (Wire.idWf_text (portKind_text h3 h4) h1 h7 hl hu) rfl ha
  case subtype => exact fun sub r h => exec_portId_of_error (idDec_of_subtype r h)
  case macLength => exact fun m hm => exec_portId_of_error (idDec_mac_of_length_ne h31 h37 rfl hm)
  case family => exact fun af a h1 h2 => exec_portId_of_error (idDec_net_of_not_family h41 h47 a rfl h1 h2)
  case netLength => exact fun af a h => exec_portId_of_error (idDec_net_of_length_ne h41 h47 rfl h)
  case utf8 =>
    intro sub t h1 h7 h3 h4 hl hu
    exact exec_portId_of_error (idDec_text_of_not_utf8 h1 h7 (portKind_text h3 h4) hl hu)

/-! ### The fixed layouts -/

/-- Settles O21: two bytes decode, any other number does not. -/
theorem ttlStep : Obligations.TtlStep := by
  unfold Obligations.TtlStep
  intro s
  constructor
  · intro hi lo ha
    exact exec_of_accepts (k := .ttl) (v := .ttl (hi ++ lo)) rfl (by decide) rfl ha
  · intro p hp
    exact exec_of_pdec_error (k := .ttl) (if_pos hp)

/-- Settles O23: four bytes decode when the subset law holds (R153). -/
theorem systemCapabilitiesStep : Obligations.SystemCapabilitiesStep := by
  unfold Obligations.SystemCapabilitiesStep
  intro s
  refine ⟨?subset, ?notSubset, ?length⟩
  case subset =>
    intro a b c d hsub ha
    exact exec_of_accepts (k := .systemCapabilities) (v := .systemCapabilities (a ++ b) (c ++ d)) (if_neg (not_not.mpr hsub))
      (by decide) rfl ha
  case notSubset =>
    intro a b c d hsub
    exact exec_of_pdec_error (k := .systemCapabilities) (p := [a, b, c, d]) (if_pos hsub)
  case length =>
    intro p hp
    exact exec_of_pdec_error (k := .systemCapabilities) (if_pos hp)

/-- Settles O26: an empty payload decodes, and its step stops the parse. -/
theorem endOfLldpduStep : Obligations.EndOfLldpduStep := by
  unfold Obligations.EndOfLldpduStep
  intro s
  constructor
  · intro ha
    exact exec_eq_of_accepts (k := .endOfLldpdu) (p := []) (v := .endOfLldpdu) rfl rfl ha
  · intro p hp
    exact exec_of_pdec_error (k := .endOfLldpdu) (if_pos (mt List.length_eq_zero_iff.mp hp))

/-- Settles O25: a payload of four bytes or more is OUI, subtype and value; a shorter one has no room for them. -/
theorem organizationallySpecificStep : Obligations.OrganizationallySpecificStep := by
  unfold Obligations.OrganizationallySpecificStep
  intro s
  constructor
  · intro o0 o1 o2 sub v hv ha
    have hwf : (Tlv.organizationallySpecific [o0, o1, o2] sub v).wf = true := by simpa [Tlv.wf] using hv
    have hlen : 2 + (penc (.organizationallySpecific [o0, o1, o2] sub v)).length = 6 + v.length := by
      simp +arith only [penc, List.length_append, List.length_cons, List.length_nil]
    exact exec_of_accepts (pdec_penc hwf) nofun hlen ha
  · intro p hp
    exact exec_of_pdec_error (k := .organizationallySpecific) (if_pos hp)

/-! ### Texts (R143) -/

section
variable {t : Bytes}

theorem textDec_of_long (h : 255 < t.length) : textDec t = .error .lenRange := if_pos h

theorem textDec_of_not_utf8 (hl : t.length ≤ 255) (hu : utf8Ok t = false) : textDec t = .error .utf8 := by
  rw [textDec, if_neg (Nat.not_lt.mpr hl), hu]
  rfl

/-- R144, R147, R150: the three text variants decode alike. -/
theorem exec_text_of_error {c : Cause} (h : textDec t = .error c) (s : State) :
    exec (.portDescription t) s = .next (takeFault c (some 4) s) ∧ exec (.systemName t) s = .next (takeFault c (some 5) s) ∧
    exec (.systemDescription t) s = .next (takeFault c (some 6) s) :=
  ⟨exec_of_pdec_error (k := .portDescription) (by simp only [pdec, pdecPortDescription, h]),
    exec_of_pdec_error (k := .systemName) (by simp only [pdec, pdecSystemName, h]),
    exec_of_pdec_error (k := .systemDescription) (by simp only [pdec, pdecSystemDescription, h])⟩

end

/-- Settles O22: the outcome of `text_dec` is that of all three. -/
theorem textTlvSteps : Obligations.TextTlvSteps := by
  unfold Obligations.TextTlvSteps
  intro s t
  refine ⟨?text, fun hl => exec_text_of_error (textDec_of_long hl) s,
    fun hl hu => exec_text_of_error (textDec_of_not_utf8 hl hu) s⟩
  intro hl hu
  have hwf : (decide (t.length ≤ 255) && utf8Ok t) = true := by simp [hl, hu]
  exact ⟨exec_of_accepts (pdec_penc (v := .portDescription t) hwf) nofun rfl,
    exec_of_accepts (pdec_penc (v := .systemName t) hwf) nofun rfl,
    exec_of_accepts (pdec_penc (v := .systemDescription t) hwf) nofun rfl⟩

/-! ### ManagementAddress (R160, R161) -/

/-- R160: a laid-out payload that meets the checks of its decode rule is that of a well-formed value. -/
theorem exec_managementAddress {s : State} {af ifsub : Byte} {a oid : Bytes} (n3 n2 n1 n0 : Byte)
    (h : (af = 1 ∧ a.length = 4) ∨ (af = 2 ∧ a.length = 16)) (h1 : 1 ≤ ifsub) (h3 : ifsub ≤ 3) (ho : oid.length ≤ 128)
    (ha : Accepts s.duRx .managementAddress (10 + a.length + oid.length)) :
    exec (.managementAddress
        (mgmtPayload (BitVec.ofNat 8 (1 + a.length)) af a ifsub n3 n2 n1 n0 (BitVec.ofNat 8 oid.length) oid)) s =
      .next (appended (.managementAddress af a ifsub (n3 ++ n2 ++ n1 ++ n0) oid) (10 + a.length + oid.length) s) := by
  obtain ⟨hf, hl⟩ := family_of_length h
  have hwf : (Tlv.managementAddress af a ifsub (n3 ++ n2 ++ n1 ++ n0) oid).wf = true := by
    simp only [Tlv.wf, hf, hl, h1, h3, ho, decide_true, Bool.and_self, beq_self_eq_true]
  rw [← penc_managementAddress]
  refine exec_of_accepts (pdec_penc hwf) nofun ?_ ha
  simp +arith only [penc_managementAddress, mgmtPayload, List.length_append, List.length_cons]

section
variable {p : Bytes} {sl ol : Nat} (hsl : sl = (p.getD 0 0).toNat) (hol : ol = (p.getD (sl + 6) 0).toNat)
include hsl hol

theorem pdecManagementAddress_of_short (hpos : 1 ≤ p.length) (h : p.length < sl + 7 + ol) :
    pdecManagementAddress p = .error .truncPayload := by
  rw [pdecManagementAddress_of_nonempty hsl hol hpos, if_pos h, ite_self]

theorem pdecManagementAddress_of_trailing (h : sl + 7 + ol < p.length) : pdecManagementAddress p = .error .trailing := by
  rw [pdecManagementAddress_of_nonempty hsl hol (by omega), if_neg (by omega), if_neg (by omega), if_pos h]

variable (hlen : p.length = sl + 7 + ol)
include hlen

theorem pdecManagementAddress_of_no_family (h : sl = 0) : pdecManagementAddress p = .error .lenRange := by
  rw [pdecManagementAddress_of_nonempty hsl hol (by omega), if_neg (by omega), if_neg (by omega), if_neg (by omega),
    if_pos (by omega)]

theorem pdecManagementAddress_of_not_family (hpos : 1 ≤ sl) (hf1 : p.getD 1 0 ≠ 1) (hf2 : p.getD 1 0 ≠ 2) :
    pdecManagementAddress p = .error .af := by
  rw [pdecManagementAddress_of_length hsl hol hlen hpos, mgmtFields, isFamily_eq_false hf1 hf2]
  rfl

theorem pdecManagementAddress_of_wrong_length (hpos : 1 ≤ sl)
    (h : (p.getD 1 0 = 1 ∧ sl ≠ 5) ∨ (p.getD 1 0 = 2 ∧ sl ≠ 17)) :
    pdecManagementAddress p = .error .lenRange := by
  obtain ⟨hf, hl⟩ := family_of_wrong_length (n := sl - 1) (h.imp (And.imp_right (by omega)) (And.imp_right (by omega)))
  rw [pdecManagementAddress_of_length hsl hol hlen hpos, mgmtFields, hf, if_pos hl]
  rfl

variable (h : (p.getD 1 0 = 1 ∧ sl = 5) ∨ (p.getD 1 0 = 2 ∧ sl = 17))
include h

theorem pdecManagementAddress_of_oid_long (ho : 128 < ol) : pdecManagementAddress p = .error .lenRange := by
  obtain ⟨hf, hl⟩ := family_of_length (n := sl - 1) (h.imp (And.imp_right (by omega)) (And.imp_right (by omega)))
  rw [pdecManagementAddress_of_length hsl hol hlen (by omega), mgmtFields, hf, if_neg (not_not.mpr hl), if_pos ho]
  rfl

theorem pdecManagementAddress_of_interface (ho : ol ≤ 128) (hs : p.getD (sl + 1) 0 < 1 ∨ 3 < p.getD (sl + 1) 0) :
    pdecManagementAddress p = .error .subtype := by
  obtain ⟨hf, hl⟩ := family_of_length (n := sl - 1) (h.imp (And.imp_right (by omega)) (And.imp_right (by omega)))
  rw [pdecManagementAddress_of_length hsl hol hlen (by omega), mgmtFields, hf, if_neg (not_not.mpr hl),
    if_neg (Nat.not_lt.mpr ho), if_pos hs]
  rfl

end

/-- Settles O24: the payload of a well-formed value, or the first check of the decode rule that fails. -/
theorem managementAddressStep : Obligations.ManagementAddressStep := by
  unfold Obligations.ManagementAddressStep
  intro s
  refine ⟨?accepted, exec_of_pdec_error (k := .managementAddress) rfl, ?checks⟩
  case accepted =>
    intro af ifsub n3 n2 n1 n0 a oid h h1 h3 ho ha
    simpa [mgmtPayload, appended] using exec_managementAddress n3 n2 n1 n0 h h1 h3 ho ha
  case checks =>
    intro p sl ol hpos hsl hol
    have hfault {c : Cause} (h : pdecManagementAddress p = .error c) :
        exec (.managementAddress p) s = .next (takeFault c (some 8) s) := exec_of_pdec_error (k := .managementAddress) h
    refine ⟨fun h => ?string, fun _ h => ?oid, fun h => ?trailing, fun hlen h => ?noFamily, fun hlen h hf1 hf2 => ?family,
      fun hlen h hf => ?stringLength, fun hlen hf ho => ?oidLength, fun hlen hf ho hs => ?interface⟩
    case string => exact hfault (pdecManagementAddress_of_short hsl hol hpos (Nat.lt_add_right ol h))
    case oid => exact hfault (pdecManagementAddress_of_short hsl hol hpos h)
    case trailing => exact hfault (pdecManagementAddress_of_trailing hsl hol h)
    case noFamily => exact hfault (pdecManagementAddress_of_no_family hsl hol hlen h)
    case family => exact hfault (pdecManagementAddress_of_not_family hsl hol hlen h hf1 hf2)
    case stringLength => exact hfault (pdecManagementAddress_of_wrong_length hsl hol hlen h hf)
    case oidLength => exact hfault (pdecManagementAddress_of_oid_long hsl hol hlen hf ho)
    case interface => exact hfault (pdecManagementAddress_of_interface hsl hol hlen hf ho hs)

end Sys2Proof.Proofs.TlvStep
end

section
/-! The operations that code one TLV value: TLV.ENC (41_tlv_variants R126) and TLV.DEC (R127), and the record faults TLV.ENC shares
with DU.APPEND (42_container R187). -/

namespace Sys2Proof.Proofs.TlvCodec

open Sys2Proof Sys2Proof.Machine Sys2Proof.Proofs.VariantCodec

/-! ### TLV.ENC of a well-formed value (R125, R126) -/

theorem encBytes_length (v : Tlv) : (encBytes v).length = 2 + tlvLength v := by
  simp +arith only [encBytes, tlvBytes, tlvLength, List.length_cons]

/-- R71, R122: a well-formed value's TLV fits `TLVBUF`. -/
theorem encBytes_length_le {v : Tlv} (h : v.wf = true) : (encBytes v).length ≤ Config.tlvCap := by
  have := Record.tlvLength_le_of_wf h
  rw [encBytes_length]
  show _ ≤ 513
  omega

theorem exec_tlvEnc_of_wf {s : State} {v : Tlv} (hv : recordValue s.tlvRec = some v) (h : v.wf = true) :
    exec .tlvEnc s = .next (finish statusOk { s with
      tlvbuf := s.tlvbuf.writeN 0 (encBytes v), tlvLen := BitVec.ofNat 10 (2 + tlvLength v) }) := by
  rw [← encBytes_length, ← storeTlv_eq s (encBytes_length_le h)]
  simp only [exec, execTlvEnc, hv, enc_eq_ok_iff.mpr ⟨h, rfl⟩]

/-- Settles O32: the state TLV.ENC leaves, and its bytes read back by the laws of a read after a write. -/
theorem tlvEncResult : Obligations.TlvEncResult := by
  unfold Obligations.TlvEncResult
  intro s v hv h
  refine ⟨_, exec_tlvEnc_of_wf hv h, rfl, fun hwf => ?_⟩
  have hlen : (BitVec.ofNat 10 (2 + tlvLength v)).toNat = (encBytes v).length := by
    have := Record.tlvLength_le_of_wf h
    rw [encBytes_length, BitVec.toNat_ofNat]
    omega
  simp only [finish_tlvbuf, finish_tlvLen, hlen]
  refine ⟨?_, fun a ha => read_writeN_outside hwf _ _ _ (by omega)⟩
  rw [readN_writeN hwf]
  exact enc_eq_ok_iff.mpr ⟨h, rfl⟩

/-! ### A record that is turned away (R125, R187) -/

section
variable {s : State}

/-- R24: `REC.type` is no defined type code. -/
theorem exec_of_recordValue_none (h : recordValue s.tlvRec = none) :
    exec .tlvEnc s = .next (takeFault .unknownType (some s.tlvRec.typ) s) ∧
    exec .duAppend s = .next (takeFault .unknownType (some s.tlvRec.typ) s) := by
  simp only [exec, execTlvEnc, execDuAppend, h, and_self]

/-- R125, R187: both operations make the checks of `enc`, and fault alike. -/
theorem exec_of_wfCheck_error {v : Tlv} {c : Cause} (hv : recordValue s.tlvRec = some v) (h : wfCheck v = .error c) :
    exec .tlvEnc s = .next (takeFault c (some s.tlvRec.typ) s) ∧
    exec .duAppend s = .next (takeFault c (some s.tlvRec.typ) s) := by
  simp only [exec, execTlvEnc, execDuAppend, enc, hv, h, and_self]

end

/-! ### The value in `REC`, by its type code (R23) -/

section
variable {r : TlvRecord}

theorem recordValue_undefined (h : 9 ≤ r.typ.toNat ∧ r.typ.toNat ≤ 126) : recordValue r = none := by
  rw [recordValue, (variant_ofCode_none r.typ.isLt).mpr h]

theorem recordValue_chassisId (h : r.typ = 1) : recordValue r = some (.chassisId r.sub (recordId chassisKind r)) := by
  rw [recordValue, h]
  rfl

theorem recordValue_portId (h : r.typ = 2) : recordValue r = some (.portId r.sub (recordId portKind r)) := by
  rw [recordValue, h]
  rfl

theorem recordValue_text (h : r.typ = 4 ∨ r.typ = 5 ∨ r.typ = 6) :
    ∃ v, recordValue r = some v ∧ wfCheck v = textCheck (r.val.readN 0 r.vlen.toNat) := by
  rcases h with h | h | h <;>
    · rw [recordValue, h]
      exact ⟨_, rfl, rfl⟩

theorem recordValue_systemCapabilities (h : r.typ = 7) : recordValue r = some (.systemCapabilities r.capSup r.capEn) := by
  rw [recordValue, h]
  rfl

theorem recordValue_managementAddress (h : r.typ = 8) :
    recordValue r = some (.managementAddress r.af (r.addr.readN 0 (addrLen r.af)) r.ifsub r.ifnum
      (r.val.readN 0 r.vlen.toNat)) := by
  rw [recordValue, h]
  rfl

theorem recordValue_organizationallySpecific (h : r.typ = 127) :
    recordValue r = some (.organizationallySpecific (r.oui.readN 0 Config.ouiBytes) r.sub (r.val.readN 0 r.vlen.toNat)) := by
  rw [recordValue, h]
  rfl

end

/-! ### Ids: the checks of `id_enc` on what `REC` holds (R135) -/

section
variable {kind : Byte → IdKind} {sub : Byte} (h1 : 1 ≤ sub) (h7 : sub ≤ 7)

theorem idCheck_of_subtype (idv : IdValue) (h : sub < 1 ∨ 7 < sub) : idCheck kind sub idv = .error .subtype := if_pos h

include h1 h7

theorem idCheck_mac_of_length_ne {m : Bytes} (hkind : kind sub = .mac) (hm : m.length ≠ 6) :
    idCheck kind sub (.mac m) = .error .lenRange := by
  rw [idCheck, if_neg (Wire.not_outside h1 h7), hkind]
  exact if_pos hm

theorem idCheck_net_of_not_family {af : Byte} (a : Bytes) (hkind : kind sub = .net) (hf1 : af ≠ 1) (hf2 : af ≠ 2) :
    idCheck kind sub (.net af a) = .error .af := by
  rw [idCheck, if_neg (Wire.not_outside h1 h7), hkind]
  exact if_pos (congrArg not (TlvStep.isFamily_eq_false hf1 hf2))

theorem idCheck_text {t : Bytes} (hkind : kind sub = .text) :
    idCheck kind sub (.text t) =
      if t.length > 510 then .error .lenRange else if !utf8Ok t then .error .utf8 else .ok () := by
  rw [idCheck, if_neg (Wire.not_outside h1 h7), hkind]
  rfl

end

section
variable {r : TlvRecord}

section
variable {kind : Byte → IdKind}

theorem recordId_mac (h : kind r.sub = .mac) : recordId kind r = .mac (r.val.readN 0 r.vlen.toNat) := by
  simp only [recordId, h]

theorem recordId_net (h : kind r.sub = .net) : recordId kind r = .net r.af (r.addr.readN 0 (addrLen r.af)) := by
  simp only [recordId, h]

theorem recordId_text (h : kind r.sub = .text) : recordId kind r = .text (r.val.readN 0 r.vlen.toNat) := by
  simp only [recordId, h]

end

/-- R131: a record of a ChassisId or PortId whose subtype is of kind `kd` holds a value with the checks of that variant's ids. -/
theorem exists_idCheck {kd : IdKind} (h : (r.typ = 1 ∧ chassisKind r.sub = kd) ∨ (r.typ = 2 ∧ portKind r.sub = kd)) :
    ∃ kind v, kind r.sub = kd ∧ recordValue r = some v ∧ wfCheck v = idCheck kind r.sub (recordId kind r) := by
  rcases h with ⟨ht, hkind⟩ | ⟨ht, hkind⟩
  · exact ⟨chassisKind, _, hkind, recordValue_chassisId ht, rfl⟩
  · exact ⟨portKind, _, hkind, recordValue_portId ht, rfl⟩

/-- R131: as above, for the two subtypes of a kind other than text, which lie in 1..7. -/
theorem exists_idCheck_of_subtype {cs ps : Byte} {kd : IdKind} (h : (r.typ = 1 ∧ r.sub = cs) ∨ (r.typ = 2 ∧ r.sub = ps))
    (hkind : chassisKind cs = kd ∧ portKind ps = kd) (hrange : ∀ b ∈ [cs, ps], 1 ≤ b ∧ b ≤ 7) :
    (1 ≤ r.sub ∧ r.sub ≤ 7) ∧
    ∃ kind v, kind r.sub = kd ∧ recordValue r = some v ∧ wfCheck v = idCheck kind r.sub (recordId kind r) := by
  rcases h with ⟨ht, rfl⟩ | ⟨ht, rfl⟩
  · exact ⟨hrange _ (by simp), exists_idCheck (.inl ⟨ht, hkind.1⟩)⟩
  · exact ⟨hrange _ (by simp), exists_idCheck (.inr ⟨ht, hkind.2⟩)⟩

theorem exists_idCheck_text
    (h : (r.typ = 1 ∧ r.sub ≠ 4 ∧ r.sub ≠ 5) ∨ (r.typ = 2 ∧ r.sub ≠ 3 ∧ r.sub ≠ 4)) (hs : 1 ≤ r.sub ∧ r.sub ≤ 7) :
    ∃ v, recordValue r = some v ∧ wfCheck v =
      if (r.val.readN 0 r.vlen.toNat).length > 510 then .error .lenRange
      else if !utf8Ok (r.val.readN 0 r.vlen.toNat) then .error .utf8 else .ok () := by
  have htext := h.imp (And.imp_right fun hn => TlvStep.chassisKind_text hn.1 hn.2)
    (And.imp_right fun hn => TlvStep.portKind_text hn.1 hn.2)
  obtain ⟨kind, v, hkind, hv, hcheck⟩ := exists_idCheck htext
  rw [recordId_text hkind, idCheck_text hs.1 hs.2 hkind] at hcheck
  exact ⟨v, hv, hcheck⟩

/-- R162: the checks left to a record whose family is known; its address has the family's length. -/
theorem wfCheck_managementAddress (ha : r.af = 1 ∨ r.af = 2) :
    wfCheck (.managementAddress r.af (r.addr.readN 0 (addrLen r.af)) r.ifsub r.ifnum (r.val.readN 0 r.vlen.toNat)) =
      if r.ifsub < 1 ∨ r.ifsub > 3 then .error .subtype
      else if (r.val.readN 0 r.vlen.toNat).length > 128 then .error .lenRange else .ok () := by
  rw [wfCheck, TlvStep.isFamily_of_eq ha, if_neg (not_not.mpr (readN_length _ _ _))]
  rfl

/-- R125: what the record holds is no value, or one that the named check of its encode rule turns away. -/
theorem recordValue_of_recordFault {c : Cause} (h : RecordFault r c) :
    (recordValue r = none ∧ c = .unknownType) ∨ ∃ v, recordValue r = some v ∧ wfCheck v = .error c := by
  have vlen_gt {n : BitVec 9} (hl : n < r.vlen) : (r.val.readN 0 r.vlen.toNat).length > n.toNat := by
    rw [readN_length]
    exact hl
  have vlen_le {n : BitVec 9} (hl : r.vlen ≤ n) : ¬ (r.val.readN 0 r.vlen.toNat).length > n.toNat := by
    rw [readN_length]
    exact Nat.not_lt.mpr hl
  cases h with
  | unknownType h => exact .inl ⟨recordValue_undefined h, rfl⟩
  | idSubtype h hs =>
    obtain h | h := h
    · exact .inr ⟨_, recordValue_chassisId h, idCheck_of_subtype _ hs⟩
    · exact .inr ⟨_, recordValue_portId h, idCheck_of_subtype _ hs⟩
  | idMac h hl =>
    obtain ⟨⟨h1, h7⟩, kind, v, hkind, hv, hcheck⟩ := exists_idCheck_of_subtype h ⟨rfl, rfl⟩ (by decide)
    rw [recordId_mac hkind] at hcheck
    have hlen : (r.val.readN 0 r.vlen.toNat).length ≠ 6 := by
      rw [readN_length]
      exact fun he => hl (BitVec.eq_of_toNat_eq he)
    exact .inr ⟨v, hv, hcheck.trans (idCheck_mac_of_length_ne h1 h7 hkind hlen)⟩
  | idFamily h ha =>
    obtain ⟨⟨h1, h7⟩, kind, v, hkind, hv, hcheck⟩ := exists_idCheck_of_subtype h ⟨rfl, rfl⟩ (by decide)
    rw [recordId_net hkind] at hcheck
    exact .inr ⟨v, hv, hcheck.trans (idCheck_net_of_not_family h1 h7 _ hkind ha.1 ha.2)⟩
  | idTextLong h hs hl =>
    obtain ⟨v, hv, hcheck⟩ := exists_idCheck_text h hs
    exact .inr ⟨v, hv, hcheck.trans (if_pos (vlen_gt hl))⟩
  | idTextUtf8 h hs hl hu =>
    obtain ⟨v, hv, hcheck⟩ := exists_idCheck_text h hs
    exact .inr ⟨v, hv, hcheck.trans ((if_neg (vlen_le hl)).trans (if_pos (congrArg not hu)))⟩
  | textLong h hl =>
    obtain ⟨v, hv, hcheck⟩ := recordValue_text h
    exact .inr ⟨v, hv, hcheck.trans (if_pos (vlen_gt hl))⟩
  | textUtf8 h hl hu =>
    obtain ⟨v, hv, hcheck⟩ := recordValue_text h
    exact .inr ⟨v, hv, hcheck.trans ((if_neg (vlen_le hl)).trans (if_pos (congrArg not hu)))⟩
  | capabilities h hc => exact .inr ⟨_, recordValue_systemCapabilities h, if_pos hc⟩
  | mgmtFamily h ha =>
    exact .inr ⟨_, recordValue_managementAddress h, if_pos (congrArg not (TlvStep.isFamily_eq_false ha.1 ha.2))⟩
  | mgmtSubtype h ha hs =>
    exact .inr ⟨_, recordValue_managementAddress h, (wfCheck_managementAddress ha).trans (if_pos hs)⟩
  | mgmtOid h ha hs hl =>
    refine .inr ⟨_, recordValue_managementAddress h, (wfCheck_managementAddress ha).trans ?_⟩
    rw [if_neg (Wire.not_outside hs.1 hs.2)]
    exact if_pos (vlen_gt hl)
  | orgLong h hl =>
    refine .inr ⟨_, recordValue_organizationallySpecific h, ?_⟩
    rw [wfCheck, if_neg (not_not.mpr (readN_length _ _ _))]
    exact if_pos (vlen_gt hl)

end

/-- Settles O33: each cause is that of the first check of `enc` that fails, and both operations make these checks. -/
theorem recordFaultsOfEncodeAndAppend : Obligations.RecordFaultsOfEncodeAndAppend := by
  unfold Obligations.RecordFaultsOfEncodeAndAppend
  intro s c h
  rcases recordValue_of_recordFault h with ⟨hnone, rfl⟩ | ⟨v, hv, hcheck⟩
  · exact exec_of_recordValue_none hnone
  · exact exec_of_wfCheck_error hv hcheck

/-! ### The frame of a decoder (R121), check by check -/

section
variable {k : Variant} {b0 b1 : Byte} {p : Bytes} {t l : Nat}

theorem decFrame_of_short {b : Bytes} (h : b.length < 2) : decFrame k b = .error ⟨.truncHdr, none⟩ := by
  match b, h with
  | [], _ => rfl
  | [_], _ => rfl

variable (ht : t = b0.toNat / 2) (hl : l = b0.toNat % 2 * 256 + b1.toNat)
include ht hl

/-- R100, R121: a frame with its header, whose type code and length are named. -/
theorem decFrame_of_header :
    decFrame k (b0 :: b1 :: p) =
      if t ≠ k.code then .error ⟨.unexpectedType, some (BitVec.ofNat 7 t)⟩
      else if p.length < l then .error ⟨.truncPayload, some (BitVec.ofNat 7 t)⟩
      else if p.length > l then .error ⟨.trailing, some (BitVec.ofNat 7 t)⟩
      else (pdec k p).mapError (⟨·, some (BitVec.ofNat 7 t)⟩) := by
  subst ht hl
  simp only [decFrame, hdrDec_eq]
  cases pdec k p <;> rfl

end

/-! ### TLV.DEC (R127) -/

section
variable {s : State} {k : Variant}

theorem exec_tlvDec_of_undefined (h9 : 9 ≤ s.expect.toNat) (h126 : s.expect.toNat ≤ 126) :
    exec .tlvDec s = .next (takeFault .illegalOp none s) := by
  simp only [exec, execTlvDec, (variant_ofCode_none s.expect.isLt).mpr ⟨h9, h126⟩]
  rfl

/-- R13, R33: all valid bytes of `TLVBUF` can be read. -/
theorem memRead_tlvbuf_valid (hcap : s.tlvLen.toNat ≤ Config.tlvCap) :
    memRead .tlvbuf 0 (validLen .tlvbuf s) s = .ok (s.tlvbuf.readN 0 s.tlvLen.toNat) :=
  memRead_eq (Nat.zero_add _).le ((Nat.zero_add _).trans_le hcap)

variable (hk : s.expect.toNat = k.code) (hcap : s.tlvLen.toNat ≤ Config.tlvCap)
include hk hcap

theorem exec_tlvDec_of_ok {v : Tlv} (h : decFrame k (s.tlvbuf.readN 0 s.tlvLen.toNat) = .ok v) :
    exec .tlvDec s = .next (storeRecord v s) := by
  simp only [exec, execTlvDec, hk, variant_ofCode_code, memRead_tlvbuf_valid hcap, h]

theorem exec_tlvDec_of_error {c : Cause} {t : Option (BitVec 7)}
    (h : decFrame k (s.tlvbuf.readN 0 s.tlvLen.toNat) = .error ⟨c, t⟩) :
    exec .tlvDec s = .next (takeFault c t s) := by
  simp only [exec, execTlvDec, hk, variant_ofCode_code, memRead_tlvbuf_valid hcap, h]

end

/-- Settles O34: the bytes of a well-formed value decode to it (R124). -/
theorem tlvDecResult : Obligations.TlvDecResult := by
  unfold Obligations.TlvDecResult
  intro s v hwf hk hcap henc
  obtain ⟨-, hbytes⟩ := enc_eq_ok_iff.mp henc
  exact exec_tlvDec_of_ok hk hcap (decFrame_eq_ok_iff.mpr ⟨rfl, hwf, hbytes⟩)

/-- Settles O35: the checks of the frame, in their order, on the valid bytes of `TLVBUF`. -/
theorem tlvDecFaults : Obligations.TlvDecFaults := by
  unfold Obligations.TlvDecFaults
  intro s hcap
  refine ⟨exec_tlvDec_of_undefined, fun k t l hk ht hl => ?_⟩
  have hframe {n : Nat} (hn : s.tlvLen.toNat = 2 + n) {c : Cause}
      (h : decFrame k (s.tlvbuf.read 0 :: s.tlvbuf.read 1 :: s.tlvbuf.readN 2 n) = .error ⟨c, some (BitVec.ofNat 7 t)⟩) :
      exec .tlvDec s = .next (takeFault c (some (BitVec.ofNat 7 t)) s) := by
    refine exec_tlvDec_of_error hk hcap ?_
    rw [hn, readN_add]
    exact h
  refine ⟨fun h => ?short, fun h hne => ?unexpected, fun h heq hless => ?less, fun heq hmore => ?more,
    fun c heq hn hp => ?payload⟩
  case short => exact exec_tlvDec_of_error hk hcap (decFrame_of_short (by rwa [readN_length]))
  case unexpected =>
    obtain ⟨n, hn⟩ := Nat.exists_eq_add_of_le h
    exact hframe hn ((decFrame_of_header ht hl).trans (if_pos hne))
  case less =>
    obtain ⟨n, hn⟩ := Nat.exists_eq_add_of_le h
    refine hframe hn ?_
    rw [decFrame_of_header ht hl, if_neg (not_not.mpr heq), readN_length, if_pos (by omega)]
  case more =>
    obtain ⟨n, hn⟩ := Nat.exists_eq_add_of_le (show 2 ≤ s.tlvLen.toNat by omega)
    refine hframe hn ?_
    rw [decFrame_of_header ht hl, if_neg (not_not.mpr heq), readN_length, if_neg (by omega), if_pos (by omega)]
  case payload =>
    refine hframe hn ?_
    rw [decFrame_of_header ht hl, if_neg (not_not.mpr heq), readN_length, if_neg (lt_irrefl l), if_neg (lt_irrefl l), hp]
    rfl

end Sys2Proof.Proofs.TlvCodec
end

section
/-! Containers (42_container): what `append` takes and why it turns a value away (R186), the order of the elements of a reachable
container (R188, R189), and when it is complete (R195). -/

namespace Sys2Proof.Proofs.Container

open Sys2Proof Sys2Proof.Machine Sys2Proof.Proofs.VariantCodec Sys2Proof.Proofs.TlvStep

/-! ### Variants and classes (R185) -/

theorem variant_eq_end {v : Tlv} : v.variant = .endOfLldpdu ↔ v = .endOfLldpdu := by
  cases v <;> simp [Tlv.variant]

theorem cls_eq_endTlv {v : Tlv} : v.cls = .endTlv ↔ v.variant = .endOfLldpdu := by
  cases v <;> simp [Tlv.cls, Tlv.variant]

/-- R185: a value that is none of the four named classes is Optional. -/
theorem cls_eq_optional {v : Tlv} :
    v.cls = .optional ↔ v.variant ≠ .chassisId ∧ v.variant ≠ .portId ∧ v.variant ≠ .ttl ∧ v.variant ≠ .endOfLldpdu := by
  cases v <;> simp [Tlv.cls, Tlv.variant]

theorem three_le_of_mayStandAt {k : Variant} {n : Nat} (h : mayStandAt k n) (hc : k ≠ .chassisId) (hp : k ≠ .portId)
    (ht : k ≠ .ttl) : 3 ≤ n := by
  cases k with
  | chassisId => exact absurd rfl hc
  | portId => exact absurd rfl hp
  | ttl => exact absurd rfl ht
  | _ => exact h

/-! ### Why `append` turns a value away (R186), in the order of its tests -/

section
variable {du : List Tlv} {v : Tlv}

theorem duAppend_of_second_end (hend : duHasEnd du = true) (hv : v.variant = .endOfLldpdu) :
    duAppend du v = .error .ordEndDup := by
  rw [duAppend, if_pos hend, if_pos (cls_eq_endTlv.mpr hv)]

theorem duAppend_of_behind_end (hend : duHasEnd du = true) (hv : v.variant ≠ .endOfLldpdu) :
    duAppend du v = .error .ordAfterEnd := by
  rw [duAppend, if_pos hend, if_neg (mt cls_eq_endTlv.mp hv)]

/-- R186: the cause of the position test is the class's, ChassisId, PortId and Ttl on one side, the rest on the other. -/
theorem positionFault_of_not_mayStandAt {n : Nat} (h : ¬ mayStandAt v.variant n) :
    positionFault v.cls n = some (if v.variant ∈ [.chassisId, .portId, .ttl] then .ordPosition else .ordTriple) := by
  cases v with
  | chassisId | portId | ttl => exact if_pos h
  | _ => exact if_pos (Nat.lt_of_not_le h)

theorem duAppend_of_position (hend : duHasEnd du = false) (hpos : ¬ mayStandAt v.variant du.length) :
    duAppend du v = .error (if v.variant ∈ [.chassisId, .portId, .ttl] then .ordPosition else .ordTriple) := by
  rw [duAppend, hend, if_neg Bool.false_ne_true, positionFault_of_not_mayStandAt hpos]

theorem duAppend_of_size (hend : duHasEnd du = false) (hpos : mayStandAt v.variant du.length)
    (hsize : 1500 < duLen du + tlvSize v) : duAppend du v = .error .size := by
  rw [duAppend, hend, if_neg Bool.false_ne_true, positionFault_eq_none.mpr hpos]
  exact if_pos hsize

theorem duAppend_of_accepts (h : Accepts du v.variant (tlvSize v)) : duAppend du v = .ok (du ++ [v]) :=
  duAppend_eq_ok_iff.mpr ⟨h, rfl⟩

end

/-! ### Elements by position (R28) -/

section
variable {du : List Tlv} {v : Tlv} {k : Variant} {i : Nat}

/-- R28: the elements of a container a value is appended to are the old ones and, behind them, the value. -/
theorem getElem?_append_one {t : Tlv} : (du ++ [v])[i]? = some t ↔ du[i]? = some t ∨ (i = du.length ∧ v = t) := by
  rcases Nat.lt_trichotomy i du.length with h | rfl | h
  · simp [List.getElem?_append_left h, h.ne]
  · simp
  · simp [List.getElem?_append_right h.le, h.le, h.ne', Nat.sub_ne_zero_of_lt h]

theorem kindAt_eq_some : kindAt du i = some k ↔ ∃ t, du[i]? = some t ∧ t.variant = k := by
  simp [kindAt]

theorem kindAt_append_one : kindAt (du ++ [v]) i = some k ↔ kindAt du i = some k ∨ (i = du.length ∧ v.variant = k) := by
  simp only [kindAt_eq_some, getElem?_append_one, or_and_right, exists_or, and_assoc, exists_and_left, exists_eq_left']

theorem lt_length_of_kindAt (h : kindAt du i = some k) : i < du.length := by
  obtain ⟨t, ht, -⟩ := kindAt_eq_some.mp h
  exact (List.getElem?_eq_some_iff.mp ht).1

theorem duHasEnd_iff : duHasEnd du = true ↔ ∃ i, kindAt du i = some .endOfLldpdu := by
  simp only [duHasEnd, List.any_eq_true, beq_iff_eq, kindAt_eq_some, List.mem_iff_getElem?]
  exact ⟨fun ⟨t, ⟨i, hi⟩, hk⟩ => ⟨i, t, hi, hk⟩, fun ⟨i, t, hi, hk⟩ => ⟨t, ⟨i, hi⟩, hk⟩⟩

theorem kindAt_ne_end (h : duHasEnd du = false) : kindAt du i ≠ some .endOfLldpdu := by
  intro hi
  rw [duHasEnd_iff.mpr ⟨i, hi⟩] at h
  cases h

end

/-! ### The seven invariants (R188) -/

/-- R186, R188: a value `append` takes keeps the order; each position rule is one invariant's. -/
theorem duOrdered_append {du : List Tlv} {v : Tlv} (h : DuOrdered du) (ha : Accepts du v.variant (tlvSize v)) :
    DuOrdered (du ++ [v]) := by
  obtain ⟨hrunning, hpos, hsize⟩ := ha
  have hold {i : Nat} : kindAt du i ≠ some .endOfLldpdu := kindAt_ne_end hrunning
  have hnew {i : Nat} {k : Variant} (hi : kindAt (du ++ [v]) i = some k) :
      kindAt du i = some k ∨ (i = du.length ∧ mayStandAt k i) :=
    (kindAt_append_one.mp hi).imp_right fun ⟨hi, hk⟩ => ⟨hi, hi ▸ hk ▸ hpos⟩
  refine
    { chassisAtZero := fun i hi => (hnew hi).elim (h.chassisAtZero i) And.right
      portAtOne := fun i hi => (hnew hi).elim (h.portAtOne i) And.right
      ttlAtTwo := fun i hi => (hnew hi).elim (h.ttlAtTwo i) And.right
      optionalAfterTriple := ?optional
      endAfterTriple := fun i hi => (hnew hi).elim (h.endAfterTriple i) And.right
      endOnce := fun i j hi hj =>
        ((hnew hi).resolve_left hold).1.trans ((hnew hj).resolve_left hold).1.symm
      size := by simpa using hsize
      endLast := fun i hi => by simp [((hnew hi).resolve_left hold).1] }
  intro i t hi ht
  rcases getElem?_append_one.mp hi with hi | ⟨rfl, rfl⟩
  · exact h.optionalAfterTriple i t hi ht
  · obtain ⟨hc, hp, ht, -⟩ := cls_eq_optional.mp ht
    exact three_le_of_mayStandAt hpos hc hp ht

/-- R188: `append` of a well-formed value keeps what the block holds of its containers. -/
theorem duInv_append {du : List Tlv} {v : Tlv} (h : DuInv du) (hwf : v.wf = true) (ha : Accepts du v.variant (tlvSize v)) :
    DuInv (du ++ [v]) := by
  refine ⟨duOrdered_append h.1 ha, fun t ht => ?_⟩
  rcases List.mem_append.mp ht with ht | ht
  · exact h.2 t ht
  · exact List.mem_singleton.mp ht ▸ hwf

theorem duInv_of_reachable {du : List Tlv} (h : DuReachable du) : DuInv du := by
  induction h with
  | empty => exact Reset.duInv_nil
  | append _ hwf happ ih =>
    obtain ⟨ha, rfl⟩ := duAppend_eq_ok_iff.mp happ
    exact duInv_append ih hwf ha

/-- Settles O42, by induction on the appends: the empty container is ordered, and `append` keeps the order. -/
theorem reachableContainersAreOrdered : Obligations.ReachableContainersAreOrdered := by
  unfold Obligations.ReachableContainersAreOrdered
  exact fun du h => (duInv_of_reachable h).1

/-! ### The triple and the end (R189, R195) -/

section
variable {du : List Tlv} (h : DuOrdered du)
include h

/-- R189: the invariants leave one variant for each of the first three positions, and exclude these variants behind them. -/
theorem position_cases {i : Nat} {t : Tlv} (hi : du[i]? = some t) :
    (i = 0 ∧ t.variant = .chassisId) ∨ (i = 1 ∧ t.variant = .portId) ∨ (i = 2 ∧ t.variant = .ttl) ∨
    (3 ≤ i ∧ t.cls = .optional) ∨ (3 ≤ i ∧ t.variant = .endOfLldpdu ∧ i + 1 = du.length) := by
  have hkind {k : Variant} (hk : t.variant = k) : kindAt du i = some k := kindAt_eq_some.mpr ⟨t, hi, hk⟩
  by_cases hc : t.variant = .chassisId
  · exact .inl ⟨h.chassisAtZero i (hkind hc), hc⟩
  by_cases hp : t.variant = .portId
  · exact .inr (.inl ⟨h.portAtOne i (hkind hp), hp⟩)
  by_cases ht : t.variant = .ttl
  · exact .inr (.inr (.inl ⟨h.ttlAtTwo i (hkind ht), ht⟩))
  by_cases he : t.variant = .endOfLldpdu
  · exact .inr (.inr (.inr (.inr ⟨h.endAfterTriple i (hkind he), he, h.endLast i (hkind he)⟩)))
  · have hopt := cls_eq_optional.mpr ⟨hc, hp, ht, he⟩
    exact .inr (.inr (.inr (.inl ⟨h.optionalAfterTriple i t hi hopt, hopt⟩)))

/-- R189: a container with an element at position `i` has the triple there, as far as the triple goes. -/
theorem kindAt_of_lt {i : Nat} (hi : i < du.length) : (i = 0 → kindAt du i = some .chassisId) ∧
    (i = 1 → kindAt du i = some .portId) ∧ (i = 2 → kindAt du i = some .ttl) := by
  have ht : du[i]? = some du[i] := List.getElem?_eq_getElem hi
  have hkind {k : Variant} (hk : du[i].variant = k) : kindAt du i = some k := kindAt_eq_some.mpr ⟨_, ht, hk⟩
  rcases position_cases h ht with ⟨h0, hk⟩ | ⟨h1, hk⟩ | ⟨h2, hk⟩ | ⟨h3, -⟩ | ⟨h3, -⟩
  · exact ⟨fun _ => hkind hk, by omega, by omega⟩
  · exact ⟨by omega, fun _ => hkind hk, by omega⟩
  · exact ⟨by omega, by omega, fun _ => hkind hk⟩
  · exact ⟨by omega, by omega, by omega⟩
  · exact ⟨by omega, by omega, by omega⟩

theorem kindAt_zero (hi : 0 < du.length) : kindAt du 0 = some .chassisId := (kindAt_of_lt h hi).1 rfl

theorem kindAt_one (hi : 1 < du.length) : kindAt du 1 = some .portId := (kindAt_of_lt h hi).2.1 rfl

theorem kindAt_two (hi : 2 < du.length) : kindAt du 2 = some .ttl := (kindAt_of_lt h hi).2.2 rfl

/-- R195: in an ordered container an EndOfLLDPDU stands last and behind the triple, so the last of the four checks decides. -/
theorem duComplete_eq_duHasEnd : duComplete du = duHasEnd du := by
  rw [Bool.eq_iff_iff]
  constructor
  · intro hc
    simp only [duComplete, Bool.and_eq_true, beq_iff_eq] at hc
    exact duHasEnd_iff.mpr ⟨_, hc.2⟩
  · intro he
    obtain ⟨i, hi⟩ := duHasEnd_iff.mp he
    have h3 := h.endAfterTriple i hi
    have hlast := h.endLast i hi
    have hlen : 4 ≤ du.length := by omega
    have h0 := kindAt_zero h (by omega)
    have h1 := kindAt_one h (by omega)
    have h2 := kindAt_two h (by omega)
    rw [show i = du.length - 1 by omega] at hi
    simp [duComplete, hlen, h0, h1, h2, hi]

end

/-- Settles O43: the order of R188 leaves one class for each position. -/
theorem reachableContainersBeginWithTheTriple : Obligations.ReachableContainersBeginWithTheTriple := by
  unfold Obligations.ReachableContainersBeginWithTheTriple
  intro du hdu
  have h := (duInv_of_reachable hdu).1
  refine ⟨fun i => kindAt_of_lt h, fun i t hi h3 => ?_⟩
  rcases position_cases h hi with ⟨h0, -⟩ | ⟨h1, -⟩ | ⟨h2, -⟩ | ⟨-, hopt⟩ | ⟨-, hend, hlast⟩
  · omega
  · omega
  · omega
  · exact .inl hopt
  · exact .inr ⟨variant_eq_end.mp hend, hlast⟩

/-- Settles O44: reachable containers are ordered, and ordered ones are complete when they have an end. -/
theorem reachableCompletenessIsHasEnd : Obligations.ReachableCompletenessIsHasEnd := by
  unfold Obligations.ReachableCompletenessIsHasEnd
  exact fun du h => duComplete_eq_duHasEnd (duInv_of_reachable h).1

end Sys2Proof.Proofs.Container
end

section
/-! The container operations (42_container R180, R187, R191, R196, R198, R201), and a TLV whose value `append` turns away (R200). -/

namespace Sys2Proof.Proofs.ContainerOps

open Sys2Proof Sys2Proof.Machine Sys2Proof.Proofs.VariantCodec Sys2Proof.Proofs.Container

/-! ### The TLV step (R200) -/

/-- R186, R200: a payload that decodes to a value `append` turns away faults with `append`'s cause, on the type of the TLV. -/
theorem exec_of_append_error {k : Variant} {p : Bytes} {v : Tlv} {c : Cause} {s : State} (h : pdec k p = .ok v)
    (happ : duAppend s.duRx v = .error c) : exec (k.instr p) s = .next (takeFault c (some (variantTyp k)) s) := by
  rw [exec_variant, h]
  simp only [tlvStep, happ]

/-- Settles O28: what decodes is a value of the TLV's variant with the TLV's length, so each clause is one failed test of `append`. -/
theorem tlvStepOrderingFaults : Obligations.TlvStepOrderingFaults := by
  unfold Obligations.TlvStepOrderingFaults
  intro s k p v h
  obtain ⟨rfl, rfl, -⟩ := pdec_eq_ok h
  refine ⟨fun hend hv => exec_of_append_error h (duAppend_of_second_end hend hv),
    fun hend hv => exec_of_append_error h (duAppend_of_behind_end hend hv),
    fun hend hpos hk => exec_of_append_error h ?position, fun hend hpos hk => exec_of_append_error h ?triple,
    fun hend hpos hsize => exec_of_append_error h (duAppend_of_size hend hpos hsize)⟩
  case position => rw [duAppend_of_position hend hpos, if_pos hk]
  case triple => rw [duAppend_of_position hend hpos, if_neg hk]

/-! ### DU.NEW (R180) -/

/-- Settles O36: the two values of `SEL`. -/
theorem duNewResult : Obligations.DuNewResult := by
  unfold Obligations.DuNewResult
  intro s
  constructor
  · intro hsel
    simp only [exec, execDuNew, hsel, if_true, finish]
  · intro hsel
    have hne : ¬ s.sel = 0 := by simp [hsel]
    simp only [exec, execDuNew, if_neg hne, finish]

/-! ### DU.APPEND (R187) -/

section
variable {s : State} {v : Tlv} (hv : recordValue s.tlvRec = some v) (hwf : v.wf = true)
include hv hwf

/-- R187: a well-formed value `append` takes becomes the last element of `DU_TX`. -/
theorem exec_duAppend_of_accepts (ha : Accepts s.duTx v.variant (tlvSize v)) :
    exec .duAppend s = .next (finish statusOk { s with duTx := s.duTx ++ [v] }) := by
  simp only [exec, execDuAppend, hv, wfCheck_eq_ok.mpr hwf, duAppend_of_accepts ha]

/-- R187: a well-formed value `append` turns away faults with its cause, on `REC.type`. -/
theorem exec_duAppend_of_error {c : Cause} (happ : duAppend s.duTx v = .error c) :
    exec .duAppend s = .next (takeFault c (some s.tlvRec.typ) s) := by
  simp only [exec, execDuAppend, hv, wfCheck_eq_ok.mpr hwf, happ]

end

/-- Settles O37: the record passes the checks of `enc`, and each clause is one outcome of `append`. -/
theorem duAppendResult : Obligations.DuAppendResult := by
  unfold Obligations.DuAppendResult
  intro s v hv hwf
  have hfault {c : Cause} := exec_duAppend_of_error (c := c) hv hwf
  refine ⟨exec_duAppend_of_accepts hv hwf, fun hend he => hfault (duAppend_of_second_end hend (variant_eq_end.mpr he)),
    fun hend he => hfault (duAppend_of_behind_end hend (mt variant_eq_end.mp he)),
    fun hend hpos hk => hfault ?position, fun hend hpos hk => hfault ?triple,
    fun hend hpos hsize => hfault (duAppend_of_size hend hpos hsize)⟩
  case position => rw [duAppend_of_position hend hpos, if_pos hk]
  case triple => rw [duAppend_of_position hend hpos, if_neg hk]

/-! ### Serialization (R190) -/

@[simp] theorem serialize_nil : serialize [] = [] := rfl

theorem serialize_append_one (du : List Tlv) (v : Tlv) : serialize (du ++ [v]) = serialize du ++ encBytes v := by
  simp [serialize]

/-- R28, R190: a container's serialization has the container's length. -/
theorem serialize_length (du : List Tlv) : (serialize du).length = duLen du := by
  simp only [serialize, List.length_flatMap, duLen, TlvCodec.encBytes_length]
  rfl

/-- R191: a container within 1500 bytes fits `TXBUF`. -/
theorem exec_duSer {s : State} (h : duLen (selected s) ≤ 1500) :
    exec .duSer s = .next (finish statusOk { s with
      txbuf := s.txbuf.writeN 0 (serialize (selected s)), txLen := BitVec.ofNat 16 (duLen (selected s)) }) := by
  rw [← serialize_length] at h ⊢
  exact storeTx_eq statusOk s (h.trans (by decide))

/-- Settles O38: the state DU.SER leaves, and its bytes read back by the laws of a read after a write. -/
theorem duSerResult : Obligations.DuSerResult := by
  unfold Obligations.DuSerResult
  intro s h
  refine ⟨_, exec_duSer h, rfl, fun hwf => ?_⟩
  have hlen : (BitVec.ofNat 16 (duLen (selected s))).toNat = (serialize (selected s)).length := by
    have : duLen (selected s) ≤ 1500 := h
    rw [serialize_length, BitVec.toNat_ofNat]
    omega
  simp only [finish_txbuf, finish_txLen, hlen]
  refine ⟨?_, fun a ha => read_writeN_outside hwf _ _ _ (by omega)⟩
  rw [readN_writeN hwf]
  exact List.flatMap_def

/-! ### DU.PARSE, DU.COMPLETE, DU.GET (R201, R196, R198) -/

/-- Settles O39: the two outcomes of the descriptor's check. -/
theorem duParseBegins : Obligations.DuParseBegins := by
  unfold Obligations.DuParseBegins
  intro s hp
  constructor
  · intro h
    exact if_neg (Nat.not_lt.mpr h)
  · intro h
    have hfault : exec .duParse s = .next (takeFault .illegalOp none s) := if_pos h
    simp only [hfault, Fault.takeFault_of_idle _ _ hp, hp]
    rfl

/-- R195: the bit is set when all four checks pass. -/
theorem duComplete_iff {du : List Tlv} : duComplete du = true ↔ 4 ≤ du.length ∧ kindAt du 0 = some .chassisId ∧
    kindAt du 1 = some .portId ∧ kindAt du 2 = some .ttl ∧ kindAt du (du.length - 1) = some .endOfLldpdu := by
  simp only [duComplete, Bool.and_eq_true, decide_eq_true_eq, beq_iff_eq, and_assoc]

/-- Settles O40: the bit DU.COMPLETE writes is the fourfold check of the selected container. -/
theorem duCompleteResult : Obligations.DuCompleteResult := by
  unfold Obligations.DuCompleteResult
  intro s
  refine ⟨duComplete (selected s), rfl, ?_⟩
  rw [duComplete_iff]
  constructor
  · intro h
    exact ⟨_, rfl, h⟩
  · rintro ⟨_, rfl, h⟩
    exact h

/-- Settles O41: the element at `IDX` is there, or it is not. -/
theorem duGetResult : Obligations.DuGetResult := by
  unfold Obligations.DuGetResult
  intro s
  constructor
  · intro v hv
    have hv : (selected s)[s.idx.toNat]? = some v := hv
    simp only [exec, execDuGet, hv, storeRecord, finish]
  · intro hidx
    have hnone : (selected s)[s.idx.toNat]? = none := List.getElem?_eq_none hidx
    simp only [exec, execDuGet, hnone, illegalOp]

end Sys2Proof.Proofs.ContainerOps
end

section
/-! No rule raises the cause OK (60_exceptions R240): a fault always says why. -/

namespace Sys2Proof.Proofs.Causes

open Sys2Proof Sys2Proof.Machine

theorem textDec_ne_ok (p : Bytes) : textDec p ≠ .error .ok := by
  unfold textDec
  repeat' split
  all_goals exact nofun

theorem idDec_ne_ok (kind : Byte → IdKind) (p : Bytes) : idDec kind p ≠ .error .ok := by
  unfold idDec
  repeat' split
  all_goals exact nofun

/-- R128, R240: what a payload decoder raises is a cause of the table's faults. -/
theorem pdec_ne_ok (k : Variant) (p : Bytes) : pdec k p ≠ .error .ok := by
  cases k with
  | chassisId =>
    have := idDec_ne_ok chassisKind p
    simp only [pdec, pdecChassisId]
    split <;> simp_all
  | portId =>
    have := idDec_ne_ok portKind p
    simp only [pdec, pdecPortId]
    split <;> simp_all
  | portDescription | systemName | systemDescription =>
    have := textDec_ne_ok p
    simp only [pdec, pdecPortDescription, pdecSystemName, pdecSystemDescription]
    split <;> simp_all
  | endOfLldpdu | ttl | systemCapabilities | managementAddress | organizationallySpecific =>
    simp only [pdec, pdecEndOfLldpdu, pdecTtl, pdecSystemCapabilities, pdecManagementAddress, pdecOrganizationallySpecific]
    repeat' split
    all_goals exact nofun

theorem textCheck_ne_ok (t : Bytes) : textCheck t ≠ .error .ok := by
  unfold textCheck
  repeat' split
  all_goals exact nofun

theorem idCheck_ne_ok (kind : Byte → IdKind) (sub : Byte) (idv : IdValue) : idCheck kind sub idv ≠ .error .ok := by
  unfold idCheck
  cases idv <;>
    · dsimp only
      repeat' split
      all_goals exact nofun

/-- R125, R240: the same of the checks of `enc`. -/
theorem wfCheck_ne_ok (v : Tlv) : wfCheck v ≠ .error .ok := by
  cases v with
  | endOfLldpdu | ttl => exact nofun
  | chassisId | portId => exact idCheck_ne_ok _ _ _
  | portDescription | systemName | systemDescription => exact textCheck_ne_ok _
  | systemCapabilities | managementAddress | organizationallySpecific =>
    simp only [wfCheck]
    repeat' split
    all_goals exact nofun

/-- R121, R240: the same of the frame around the decoders. -/
theorem decFrame_ne_ok {k : Variant} {b : Bytes} {r : Raise} (h : decFrame k b = .error r) : r.cause ≠ .ok := by
  match b, h with
  | [], h | [_], h =>
    cases h
    exact nofun
  | b0 :: b1 :: p, h =>
    have hp := pdec_ne_ok k p
    rw [TlvCodec.decFrame_of_header rfl rfl] at h
    split_ifs at h
    · cases h
      exact nofun
    · cases h
      exact nofun
    · cases h
      exact nofun
    · cases hd : pdec k p with
      | ok v =>
        rw [hd] at h
        cases h
      | error c =>
        rw [hd] at h hp
        cases h
        exact fun hc => hp (congrArg Except.error hc)

/-- R186, R240: the same of `append`. -/
theorem duAppend_ne_ok (du : List Tlv) (v : Tlv) : duAppend du v ≠ .error .ok := by
  intro h
  rcases duAppend_eq_error h with ⟨-, hc⟩ | ⟨-, hpos⟩ | ⟨-, -, -, hc⟩
  · split_ifs at hc
  · by_cases hs : mayStandAt v.variant du.length
    · rw [TlvStep.positionFault_eq_none.mpr hs] at hpos
      cases hpos
    · rw [Container.positionFault_of_not_mayStandAt hs] at hpos
      split_ifs at hpos <;> cases hpos
  · cases hc

end Sys2Proof.Proofs.Causes
end

section
/-! The TLV at the cursor of a running parse (42_container R200): the bytes of the slice from the cursor on, what the engine fetches
from them, and everything one step of a running parse can do. -/

namespace Sys2Proof.Proofs.Cursor

open Sys2Proof Sys2Proof.Machine Sys2Proof.Proofs.Encoding Sys2Proof.Proofs.VariantCodec Sys2Proof.Proofs.TlvStep

/-! ### The slice and the cursor (R55, R200) -/

/-- The bytes of the payload slice, `RXBUF[PAY_BASE .. PAY_BASE + PAY_LEN)`. -/
def payload (s : State) : Bytes := s.rxbuf.readN s.payBase.toNat s.payLen.toNat

/-- The bytes of the slice from the cursor on, `RXBUF[PAY_BASE + OFF .. PAY_BASE + PAY_LEN)`. -/
def ahead (s : State) : Bytes := (payload s).drop s.off.toNat

/-- The slice lies in the valid bytes of `RXBUF`, and the cursor in the slice. -/
structure SliceValid (s : State) : Prop where
  slice : s.payBase.toNat + s.payLen.toNat ≤ s.rxLen.toNat
  valid : s.rxLen.toNat ≤ Config.rxCap
  cursor : s.off.toNat ≤ s.payLen.toNat

theorem readN_drop (m : Memory) (a n k : Nat) : (m.readN a n).drop k = m.readN (a + k) (n - k) := by
  rcases Nat.le_total k n with h | h
  · obtain ⟨j, rfl⟩ := Nat.exists_eq_add_of_le h
    rw [readN_add, List.drop_left' (readN_length m a k), Nat.add_sub_cancel_left]
  · rw [List.drop_eq_nil_of_le (by simpa using h), Nat.sub_eq_zero_of_le h, readN_zero]

section
variable (s : State)

@[simp] theorem payload_length : (payload s).length = s.payLen.toNat := readN_length _ _ _

@[simp] theorem ahead_length : (ahead s).length = s.payLen.toNat - s.off.toNat := by simp [ahead]

theorem ahead_eq_readN :
    ahead s = s.rxbuf.readN (s.payBase.toNat + s.off.toNat) (s.payLen.toNat - s.off.toNat) := readN_drop _ _ _ _

theorem ahead_take (n : Nat) : (ahead s).take n =
    s.rxbuf.readN (s.payBase.toNat + s.off.toNat) (min n (s.payLen.toNat - s.off.toNat)) := by
  rw [ahead_eq_readN, readN_take]

end

/-! ### The bytes fetched (R71, R84, R246) -/

theorem two_le_tlvExtent (b : Bytes) : 2 ≤ tlvExtent b := by
  unfold tlvExtent
  repeat' split
  all_goals omega

/-- R71, R84: how far a TLV reaches is told by its first two bytes. -/
theorem tlvExtent_take_two (b : Bytes) : tlvExtent (b.take 2) = tlvExtent b := by
  match b with
  | [] | [_] | _ :: _ :: _ => rfl

/-- R70, R84: the encoding of a TLV reaches exactly to its own end. -/
theorem tlvExtent_of_encode {i : Instr} {b : Bytes} (hwf : i.wf = true) (henc : encode i = .stream b) (rest : Bytes) :
    tlvExtent (b ++ rest) = b.length := by
  rcases instr_cases i with ⟨k, p, rfl⟩ | ⟨t, len, hi⟩ | ⟨op, hop⟩
  · rw [encode_variant] at henc
    cases henc
    have hdr := hdrDec_hdrJoin (variant_code_lt k) (Nat.lt_succ_of_le (wf_variant_iff.mp hwf))
    simp +arith [tlvExtent, tlvBytes, hdr, variant_ofCode_code]
  · obtain ⟨h9, h126, hcode, -⟩ := undefinedHeader_eq_some hi
    rw [hcode] at henc
    cases henc
    have hdr := hdrDec_hdrJoin (Nat.lt_succ_of_le (Nat.le_succ_of_le h126)) len.isLt
    have hnone : Variant.ofCode t = none := (variant_ofCode_none (by omega)).mpr ⟨h9, h126⟩
    simp [tlvExtent, hdr, hnone]
  · rw [hop] at henc
    cases henc

/-- R55, R200: the engine fetches the bytes ahead, as far as the TLV at the cursor reaches; or it has read outside the valid bytes. -/
theorem fetchBytes_cases (s : State) : (∃ f, fetchBytes s = .error f ∧ ¬ SliceValid s) ∨
    fetchBytes s = .ok ((ahead s).take (tlvExtent (ahead s))) := by
  have hread (n : Nat) :
      (∃ f, memRead .rxbuf (s.payBase.toNat + s.off.toNat) (min n (s.payLen.toNat - s.off.toNat)) s = .error f ∧
        ¬ SliceValid s) ∨
      memRead .rxbuf (s.payBase.toNat + s.off.toNat) (min n (s.payLen.toNat - s.off.toNat)) s = .ok ((ahead s).take n) := by
    rcases memRead_cases (sp := .rxbuf) (s := s) rfl with ⟨hok, -⟩ | ⟨herr, hout⟩
    · rw [ahead_take]
      exact .inr hok
    · refine .inl ⟨_, herr, fun ⟨hslice, hvalid, hcursor⟩ => hout ?_⟩
      simp only [validLen, capacity]
      omega
  unfold fetchBytes
  dsimp only
  rcases hread 2 with ⟨f, hf, hout⟩ | hhdr
  · exact .inl ⟨f, by rw [hf], hout⟩
  rw [hhdr]
  dsimp only
  rw [tlvExtent_take_two]
  exact hread _

theorem fetchBytes_of_valid {s : State} (h : SliceValid s) : fetchBytes s = .ok ((ahead s).take (tlvExtent (ahead s))) :=
  (fetchBytes_cases s).resolve_left fun ⟨_, _, hout⟩ => hout h

/-! ### The step, by what is ahead -/

section
variable {s : State} (hreset : NoReset s) (hp : s.parsing = true) (hvalid : SliceValid s)
include hreset hp hvalid

/-- R200, R201: no byte is left. -/
theorem step_of_ahead_nil (h : ahead s = []) : step s = .next (stopParse .exhausted s) := by
  have hfetch := fetchBytes_of_valid hvalid
  rw [h, List.take_nil] at hfetch
  refine step_settled ((fetch_parsing hreset hp).trans ?_)
  simp only [fetchTlv, hfetch]

/-- R200: one byte is left, no header. -/
theorem step_of_ahead_one {b : Byte} (h : ahead s = [b]) : step s = .next (takeFault .truncHdr none s) := by
  have hfetch := fetchBytes_of_valid hvalid
  rw [h] at hfetch
  refine step_settled ((fetch_parsing hreset hp).trans ?_)
  simp only [fetchTlv, hfetch]
  rfl

/-- R200: a header of a defined type is there, with fewer bytes behind it than it declares. -/
theorem step_of_ahead_short {b0 b1 : Byte} {p : Bytes} {k : Variant} (h : ahead s = b0 :: b1 :: p)
    (hk : b0.toNat / 2 = k.code) (hlen : p.length < (hdrDec b0 b1).2) :
    step s = .next (takeFault .truncPayload (some (BitVec.ofNat 7 k.code)) s) := by
  have hall : (ahead s).take (tlvExtent (ahead s)) = b0 :: b1 :: p := by
    rw [h, List.take_of_length_le]
    simp only [tlvExtent, Truncation.ofCode_hdrDec b1 hk, List.length_cons]
    omega
  have hfetch := fetchBytes_of_valid hvalid
  rw [hall] at hfetch
  refine step_settled ((fetch_parsing hreset hp).trans ?_)
  simp only [fetchTlv, hfetch, Truncation.decodeTlv_of_payload_short b1 hk hlen]

/-- R10, R200: the encoding of an instruction is there; what follows it in the slice makes no difference. -/
theorem step_of_ahead_encode {i : Instr} {b rest : Bytes} (hwf : i.wf = true) (henc : encode i = .stream b)
    (h : ahead s = b ++ rest) : step s = exec i s := by
  have hdec : decodeTlv b = .ok (i, []) := by
    simpa using (decodeOfEncodeIsTheInstruction i hwf).2 b [] henc
  have hfetch := fetchBytes_of_valid hvalid
  rw [h, tlvExtent_of_encode hwf henc, List.take_left] at hfetch
  refine step_instr ((fetch_parsing hreset hp).trans ?_)
  cases b with
  | nil => cases hdec
  | cons b0 b => simp only [fetchTlv, hfetch, hdec]

end

/-- Settles O6: the bytes at the cursor are the first ones ahead. -/
theorem stepRunsTheTlvAtTheCursor : Obligations.StepRunsTheTlvAtTheCursor := by
  unfold Obligations.StepRunsTheTlvAtTheCursor
  intro s i b hreset hp hwf henc hlen hslice hcap hbytes
  have hread : (ahead s).take b.length = b := by
    rw [ahead_take, Nat.min_eq_left (by omega)]
    refine List.ext_getElem (readN_length _ _ _) fun k _ hk => ?_
    rw [readN_getElem, hbytes k hk]
  refine step_of_ahead_encode hreset hp ⟨hslice, hcap, by omega⟩ hwf henc (rest := (ahead s).drop b.length) ?_
  rw [← List.take_append_drop b.length (ahead s), hread]
  simp

/-- Settles O8: the slice has no byte left, one, or a header and too few bytes behind it. -/
theorem parseEndsWithoutAnInstruction : Obligations.ParseEndsWithoutAnInstruction := by
  unfold Obligations.ParseEndsWithoutAnInstruction
  intro s hreset hp hslice hcap
  refine ⟨fun h => ?exhausted, fun h => ?header, fun k b0 b1 h h0 h1 hk hshort => ?short⟩
  case exhausted =>
    have hnil : ahead s = [] := List.length_eq_zero_iff.mp (by rw [ahead_length]; omega)
    exact step_of_ahead_nil hreset hp ⟨hslice, hcap, by omega⟩ hnil
  case header =>
    have hone : (ahead s).length = 1 := by rw [ahead_length]; omega
    obtain ⟨b, hb⟩ := List.length_eq_one_iff.mp hone
    rw [step_of_ahead_one hreset hp ⟨hslice, hcap, by omega⟩ hb, Fault.takeFault_of_parsing _ _ hp]
    rfl
  case short =>
    obtain ⟨n, hn⟩ := Nat.exists_eq_add_of_le (show 2 ≤ s.payLen.toNat - s.off.toNat by omega)
    have hahead : ahead s = b0 :: b1 :: s.rxbuf.readN (s.payBase.toNat + s.off.toNat + 2) n := by
      rw [ahead_eq_readN, hn, readN_add, ← h0, ← h1]
      rfl
    rw [step_of_ahead_short hreset hp ⟨hslice, hcap, by omega⟩ hahead hk, Fault.takeFault_of_parsing _ _ hp]
    · rfl
    · rw [hdrDec_eq, readN_length]
      omega

/-! ### Everything a step of a running parse can do -/

/-- The TLV at the cursor is that of value `v`, and `append` takes it (R186, R200). -/
structure Takes (s : State) (v : Tlv) : Prop where
  wf : v.wf = true
  accepts : Accepts s.duRx v.variant (tlvSize v)
  bytes : encBytes v <+: ahead s

/-- R200 to R202: a step of a running parse stops at the end of the slice, faults, or takes the TLV at the cursor, and then goes on
unless it was EndOfLLDPDU. -/
inductive ParseStep (s : State) : State → Prop
  | exhausted (h : ahead s = []) : ParseStep s (stopParse .exhausted s)
  | fault {c : Cause} (t : Option (BitVec 7)) (h : c ≠ .ok) : ParseStep s (takeFault c t s)
  | ended {v : Tlv} (h : Takes s v) (hv : v.variant = .endOfLldpdu) :
      ParseStep s (stopParse .endTlv (appended v (tlvSize v) s))
  | taken {v : Tlv} (h : Takes s v) (hv : v.variant ≠ .endOfLldpdu) : ParseStep s (appended v (tlvSize v) s)

/-- R200: the step of a TLV of a defined type, whose bytes are the first ones ahead. -/
theorem parseStep_of_variant {s : State} {k : Variant} {p : Bytes} (hwf : (k.instr p).wf = true)
    (hb : tlvBytes k.code p <+: ahead s) : ParseStep s (tlvStep (variantTyp k) p.length (pdec k p) s) := by
  have htakes {v : Tlv} (hv : pdec k p = .ok v) (happ : duAppend s.duRx v = .ok (s.duRx ++ [v])) :
      Takes s v ∧ p.length = tlvLength v := by
    obtain ⟨rfl, rfl, hwfv⟩ := pdec_eq_ok hv
    exact ⟨⟨hwfv (wf_variant_iff.mp hwf), (duAppend_eq_ok_iff.mp happ).1, hb⟩, rfl⟩
  rcases tlvStep_cases (variantTyp k) p.length (pdec k p) s with
    ⟨c, hc, ht⟩ | ⟨v, c, -, hc, ht⟩ | ⟨v, hv, happ, hend, ht⟩ | ⟨v, hv, happ, hend, ht⟩ <;> rw [ht]
  · exact .fault _ fun h => Causes.pdec_ne_ok k p (h ▸ hc)
  · exact .fault _ fun h => Causes.duAppend_ne_ok s.duRx v (h ▸ hc)
  · obtain ⟨htake, hlen⟩ := htakes hv happ
    rw [hlen]
    exact .ended htake hend
  · obtain ⟨htake, hlen⟩ := htakes hv happ
    rw [hlen]
    exact .taken htake hend

/-- R200, R246: a step inside a parse is one of these, or the fetch reads outside, which a valid slice excludes. -/
theorem step_of_parsing {s : State} (hreset : NoReset s) (hp : s.parsing = true) :
    (∃ f, step s = .fault f ∧ ¬ SliceValid s) ∨ ∃ t, step s = .next t ∧ ParseStep s t := by
  have hfetch : fetch s = fetchTlv s := fetch_parsing hreset hp
  have hb {b : Bytes} (h : fetchBytes s = .ok b) : b = (ahead s).take (tlvExtent (ahead s)) := by
    rcases fetchBytes_cases s with ⟨f, hf, -⟩ | hok
    · rw [hf] at h
      cases h
    · exact Except.ok.inj (h.symm.trans hok)
  rcases fetchTlv_cases s with
    ⟨f, hf, ht⟩ | ⟨hnil, ht⟩ | ⟨b, -, -, -, ht⟩ | ⟨b, t, -, -, -, ht⟩ | ⟨b, i, rest, hok, -, hdec, ht⟩
  · refine .inl ⟨f, step_settled (hfetch.trans ht), fun hv => ?_⟩
    rw [fetchBytes_of_valid hv] at hf
    cases hf
  · refine .inr ⟨_, step_settled (hfetch.trans ht), .exhausted ?_⟩
    have := two_le_tlvExtent (ahead s)
    exact (List.take_eq_nil_iff.mp (hb hnil).symm).resolve_left (by omega)
  · exact .inr ⟨_, step_settled (hfetch.trans ht), .fault _ nofun⟩
  · exact .inr ⟨_, step_settled (hfetch.trans ht), .fault _ nofun⟩
  · rw [step_instr (hfetch.trans ht)]
    obtain ⟨hwf, code, henc, hcode⟩ := encodeOfDecodeIsTheCode.1 b i rest hdec
    have hfetched : code ++ rest = (ahead s).take (tlvExtent (ahead s)) := hcode.symm.trans (hb hok)
    have hahead : code <+: ahead s := (List.prefix_append code rest).trans (hfetched ▸ List.take_prefix _ _)
    rcases instr_cases i with ⟨k, p, rfl⟩ | ⟨t, len, hi⟩ | ⟨op, hop⟩
    · rw [encode_variant] at henc
      cases henc
      exact .inr ⟨_, exec_variant k p s, parseStep_of_variant hwf hahead⟩
    · exact .inr ⟨_, Fault.exec_undefined hi s, .fault _ nofun⟩
    · rw [hop] at henc
      cases henc

end Sys2Proof.Proofs.Cursor
end

section
/-! The invariant of the machine (42_container R188, 60_exceptions R245, 10_state R33, 42_container R204): every step keeps it. -/

namespace Sys2Proof.Proofs.Invariant

open Sys2Proof Sys2Proof.Machine Sys2Proof.Proofs.VariantCodec Sys2Proof.Proofs.TlvStep Sys2Proof.Proofs.Container
open Sys2Proof.Proofs.Cursor

/-! ### The parts -/

theorem memInv_write {cap a : Nat} {m : Memory} (b : Byte) (h : MemInv cap m) (ha : a < cap) : MemInv cap (m.write a b) :=
  ⟨wf_write a b h.1, below_write b h.2 ha⟩

theorem memInv_writeN {cap : Nat} {m : Memory} {b : Bytes} (h : MemInv cap m) (hb : b.length ≤ cap) :
    MemInv cap (m.writeN 0 b) :=
  ⟨wf_writeN 0 b h.1, below_writeN b h.2 (by omega)⟩

/-- R30: `ST` of an operation that ends without a fault, whatever it reports. -/
theorem statusInv_ok (qual complete : Bool) {why : Stop} (h : why ≠ .fault) :
    StatusInv { statusOk with qual := qual, complete := complete, stop := why } :=
  ⟨rfl, rfl, fun _ => rfl, fun _ => ⟨rfl, rfl, h⟩, Bool.noConfusion⟩

/-- R245: `ST` of a fault. -/
theorem statusInv_takeFault {c : Cause} (t : Option (BitVec 7)) (s : State) (hc : c ≠ .ok) : StatusInv (takeFault c t s).st where
  okIff := by simp [hc]
  cat := rfl
  typ h := by
    cases t with
    | none => rfl
    | some t => cases h
  okPlain := Bool.noConfusion
  faultPlain _ := by
    cases hp : s.parsing <;> simp [hp]

/-- R22, R23: a well-formed value written into `REC` stays within its arrays. -/
theorem memInv_recordWrite {v : Tlv} {r : TlvRecord} (hwf : v.wf = true) (haddr : MemInv Config.addrBytes r.addr)
    (houi : MemInv Config.ouiBytes r.oui) (hval : MemInv Config.valBytes r.val) :
    MemInv Config.addrBytes (recordWrite v r).addr ∧ MemInv Config.ouiBytes (recordWrite v r).oui ∧
      MemInv Config.valBytes (recordWrite v r).val := by
  refine ⟨?addr, ?oui, ?val⟩
  case addr =>
    rw [(Record.recordWrite_addr v r).2]
    cases ha : Record.recAddr v with
    | none => exact haddr
    | some p =>
      obtain ⟨hf, hl⟩ := Record.recAddr_family (af := p.1) (addr := p.2) hwf ha
      have := Record.family_cases hf hl
      exact memInv_writeN haddr (show _ ≤ 16 by omega)
  case oui =>
    by_cases hk : v.variant = .organizationallySpecific
    · cases v with
      | organizationallySpecific => exact memInv_writeN houi (Record.oui_length_of_wf hwf).le
      | _ => cases hk
    · rw [Record.recordWrite_oui r hk]
      exact houi
  case val =>
    rw [(Record.recordWrite_val v r).2]
    cases hb : Record.recVal v with
    | none => exact hval
    | some b => exact memInv_writeN hval (Record.recVal_length_le hwf hb)

/-! ### The invariant outside a parse -/

/-- What the invariant says of the containers, `ST` and the byte spaces, whether a parse runs or not. -/
structure DataInv (s : State) : Prop where
  duRx : DuInv s.duRx
  duTx : DuInv s.duTx
  status : StatusInv s.st
  rxbuf : MemInv Config.rxCap s.rxbuf
  txbuf : MemInv Config.txCap s.txbuf
  tlvbuf : MemInv Config.tlvCap s.tlvbuf
  localMac : MemInv Config.macBytes s.localMac
  recAddr : MemInv Config.addrBytes s.tlvRec.addr
  recOui : MemInv Config.ouiBytes s.tlvRec.oui
  recVal : MemInv Config.valBytes s.tlvRec.val
  rxLen : s.rxLen.toNat ≤ Config.rxCap
  txLen : s.txLen.toNat ≤ Config.txCap
  tlvLen : s.tlvLen.toNat ≤ Config.tlvCap

theorem dataInv_of_inv {s : State} (h : Inv s) : DataInv s := { h with }

theorem inv_of_idle {s : State} (h : DataInv s) (hp : s.parsing = false) (hs : s.savedPay = none) : Inv s :=
  { h with
    parse := fun hp' => absurd (hp.symm.trans hp') Bool.false_ne_true
    idle := fun _ => hs }

/-! ### The shared operations -/

theorem inv_finish {s : State} {st : Status} (h : DataInv s) (hst : StatusInv st) (hs : s.savedPay = none) :
    Inv (finish st s) :=
  inv_of_idle { h with status := hst } rfl hs

/-- R201, R230: a parse begins on a slice inside the valid bytes; RX.FRAME has kept the descriptor it found. -/
theorem inv_openParse {s : State} (h : DataInv s) (hop : s.op = some 7 ∨ s.op = some 12)
    (hslice : s.payBase.toNat + s.payLen.toNat ≤ s.rxLen.toNat) (hsaved : s.savedPay.isSome = (s.op == some 12)) :
    Inv (openParse s) :=
  { h with
    duRx := Reset.duInv_nil
    parse := fun _ =>
      { byParser := hop, sliceInside := hslice, cursor := rfl, cursorInside := Nat.zero_le _, running := rfl, saved := hsaved }
    idle := Bool.noConfusion }

section
variable {s : State} (h : Inv s)
include h

/-- R202, R245: a fault empties `DU_RX` or leaves it, and leaves no descriptor kept. -/
theorem inv_takeFault {c : Cause} (t : Option (BitVec 7)) (hc : c ≠ .ok) : Inv (takeFault c t s) :=
  { h with
    duRx := by
      rw [takeFault_duRx]
      split
      · exact Reset.duInv_nil
      · exact h.duRx
    status := statusInv_takeFault t s hc
    parse := Bool.noConfusion
    idle := fun _ => by
      rw [takeFault_savedPay]
      split
      · rfl
      · exact h.idle (by simpa using ‹¬ s.parsing = true›) }

/-- R201: a parse stops with a container the block can hold in `DU_RX`. -/
theorem inv_stopParse {du : List Tlv} (off : BitVec 11) {why : Stop} (hdu : DuInv du) (hwhy : why ≠ .fault) :
    Inv (stopParse why { s with duRx := du, off := off }) :=
  { h with duRx := hdu, status := statusInv_ok _ _ hwhy, parse := Bool.noConfusion, idle := fun _ => rfl }

theorem inv_storeTlv {b : Bytes} {t : State} (hs : s.savedPay = none) (ht : storeTlv b s = .next t) : Inv t := by
  obtain ⟨hb, rfl⟩ := storeTlv_next ht
  have hlen : (BitVec.ofNat 10 b.length).toNat ≤ Config.tlvCap := (Nat.mod_le _ _).trans hb
  exact inv_finish { h with tlvbuf := memInv_writeN h.tlvbuf hb, tlvLen := hlen } Reset.statusInv_statusOk hs

theorem inv_storeTx {b : Bytes} {st : Status} {t : State} (hst : StatusInv st) (hs : s.savedPay = none)
    (ht : storeTx b st s = .next t) : Inv t := by
  obtain ⟨hb, rfl⟩ := storeTx_next ht
  have hlen : (BitVec.ofNat 16 b.length).toNat ≤ Config.txCap := (Nat.mod_le _ _).trans hb
  exact inv_finish { h with txbuf := memInv_writeN h.txbuf hb, txLen := hlen } hst hs

theorem inv_storeRecord {v : Tlv} (hwf : v.wf = true) (hs : s.savedPay = none) : Inv (storeRecord v s) := by
  obtain ⟨haddr, houi, hval⟩ := memInv_recordWrite hwf h.recAddr h.recOui h.recVal
  exact inv_of_idle { h with recAddr := haddr, recOui := houi, recVal := hval, status := Reset.statusInv_statusOk } rfl hs

theorem duInv_selected : DuInv (selected s) := by
  unfold selected
  split
  · exact h.duRx
  · exact h.duTx

/-! ### A step of a running parse (R200) -/

theorem sliceValid_of_inv (hp : s.parsing = true) : SliceValid s where
  slice := (h.parse hp).sliceInside
  valid := h.rxLen
  cursor := (h.parse hp).cursorInside

/-- R200, R204: the cursor moves behind the TLV taken, and stays in the slice. -/
theorem inv_appended {v : Tlv} (hp : s.parsing = true) (htake : Takes s v) (hv : v.variant ≠ .endOfLldpdu) :
    Inv (appended v (tlvSize v) s) := by
  obtain ⟨hop, hslice, hcursor, hcursorInside, hrunning, hsaved⟩ := h.parse hp
  obtain ⟨-, -, hsize⟩ := htake.accepts
  have hinside : tlvSize v ≤ s.payLen.toNat - s.off.toNat := by
    have := htake.bytes.length_le
    rwa [TlvCodec.encBytes_length, ahead_length] at this
  have hoff : (appended v (tlvSize v) s).off.toNat = duLen s.duRx + tlvSize v := by
    rw [appended, BitVec.toNat_add, BitVec.toNat_ofNat, hcursor]
    omega
  exact
    { h with
      duRx := duInv_append h.duRx htake.wf htake.accepts
      parse := fun _ =>
        { byParser := hop
          sliceInside := hslice
          cursor := hoff.trans (by simp [appended])
          cursorInside := hoff.trans_le (show _ ≤ s.payLen.toNat by omega)
          running := by simp [appended, hrunning, hv]
          saved := hsaved }
      idle := fun hp' => absurd hp' (by simp [appended, hp]) }

theorem inv_parseStep {t : State} (hp : s.parsing = true) (ht : ParseStep s t) : Inv t := by
  cases ht with
  | exhausted => exact inv_stopParse h s.off h.duRx nofun
  | fault ty hc => exact inv_takeFault h ty hc
  | ended htake => exact inv_stopParse h _ (duInv_append h.duRx htake.wf htake.accepts) nofun
  | taken htake hv => exact inv_appended h hp htake hv

end

/-! ### The operations -/

/-- R220: a frame that qualifies has its envelope. -/
theorem fourteen_le_of_qualifies {f mac : Bytes} (hq : qualifies f mac = true) : 14 ≤ f.length := by
  simp only [qualifies, Bool.and_eq_true, decide_eq_true_eq] at hq
  obtain ⟨⟨⟨hlen, -⟩, -⟩, -⟩ := hq
  exact hlen

section
variable {s t : State} (h : Inv s) (hs : s.savedPay = none)
include h hs

theorem inv_execHdrEnc (ht : execHdrEnc s = .next t) : Inv t := by
  unfold execHdrEnc at ht
  split at ht
  · cases ht
    exact inv_takeFault h _ nofun
  · exact inv_storeTlv h hs ht

theorem inv_execHdrDec (ht : execHdrDec s = .next t) : Inv t := by
  unfold execHdrDec at ht
  split_ifs at ht
  · cases ht
    exact inv_takeFault h _ nofun
  · split at ht <;> cases ht
    exact inv_finish { h with } Reset.statusInv_statusOk hs

theorem inv_execTlvEnc (ht : execTlvEnc s = .next t) : Inv t := by
  unfold execTlvEnc enc at ht
  split at ht
  · cases ht
    exact inv_takeFault h _ nofun
  · rename_i v _
    cases hv : wfCheck v with
    | error c =>
      rw [hv] at ht
      cases ht
      exact inv_takeFault h _ fun hc => Causes.wfCheck_ne_ok v (hc ▸ hv)
    | ok =>
      rw [hv] at ht
      exact inv_storeTlv h hs ht

theorem inv_execTlvDec (ht : execTlvDec s = .next t) : Inv t := by
  unfold execTlvDec at ht
  split at ht
  · cases ht
    exact inv_takeFault h _ nofun
  · split at ht
    · cases ht
    · split at ht <;> cases ht
      · exact inv_takeFault h _ (Causes.decFrame_ne_ok ‹_›)
      · exact inv_storeRecord h (decFrame_eq_ok_iff.mp ‹_›).2.1 hs

theorem inv_execDuNew (ht : execDuNew s = .next t) : Inv t := by
  cases ht
  split
  · exact inv_finish { h with duRx := Reset.duInv_nil } Reset.statusInv_statusOk hs
  · exact inv_finish { h with duTx := Reset.duInv_nil } Reset.statusInv_statusOk hs

theorem inv_execDuAppend (ht : execDuAppend s = .next t) : Inv t := by
  unfold execDuAppend at ht
  split at ht
  · cases ht
    exact inv_takeFault h _ nofun
  · rename_i v _
    split at ht
    · rename_i c hcheck
      cases ht
      exact inv_takeFault h _ fun hc => Causes.wfCheck_ne_ok v (hc ▸ hcheck)
    · rename_i hcheck
      split at ht
      · rename_i c happ
        cases ht
        exact inv_takeFault h _ fun hc => Causes.duAppend_ne_ok s.duTx v (hc ▸ happ)
      · rename_i happ
        cases ht
        obtain ⟨ha, rfl⟩ := duAppend_eq_ok_iff.mp happ
        exact inv_finish { h with duTx := duInv_append h.duTx (wfCheck_eq_ok.mp hcheck) ha } Reset.statusInv_statusOk hs

theorem inv_execDuParse (hop : s.op = some 7) (ht : execDuParse s = .next t) : Inv t := by
  unfold execDuParse at ht
  split_ifs at ht with hslice <;> cases ht
  · exact inv_takeFault h _ nofun
  · exact inv_openParse (dataInv_of_inv h) (.inl hop) (Nat.le_of_not_lt hslice) (by simp [hop, hs])

theorem inv_execDuComplete (ht : execDuComplete s = .next t) : Inv t := by
  cases ht
  exact inv_finish (dataInv_of_inv h) (statusInv_ok false _ (why := .notParsed) nofun) hs

theorem inv_execDuGet (ht : execDuGet s = .next t) : Inv t := by
  unfold execDuGet at ht
  split at ht <;> cases ht
  · exact inv_takeFault h _ nofun
  · rename_i hv
    exact inv_storeRecord h ((duInv_selected h).2 _ (List.mem_of_getElem? hv)) hs

theorem inv_execEnvClassify (ht : execEnvClassify s = .next t) : Inv t := by
  unfold execEnvClassify at ht
  split at ht
  · cases ht
  · split_ifs at ht <;> cases ht
    · exact inv_finish { h with } (statusInv_ok true false (why := .notParsed) nofun) hs
    · exact inv_finish { h with } Reset.statusInv_statusOk hs

theorem inv_execEnvBuild (ht : execEnvBuild s = .next t) : Inv t := by
  unfold execEnvBuild at ht
  split at ht
  · cases ht
    exact inv_takeFault h _ nofun
  · exact inv_storeTx h (statusInv_ok false _ (why := .notParsed) nofun) hs ht

theorem inv_execRxFrame (hop : s.op = some 12) (ht : execRxFrame s = .next t) : Inv t := by
  unfold execRxFrame at ht
  split at ht
  · cases ht
  · rename_i f hread
    split_ifs at ht with hq <;> cases ht
    · have hlen : 14 ≤ s.rxLen.toNat := by
        rcases memRead_cases hread with ⟨hf, -, -⟩ | ⟨hf, -⟩ <;> cases hf
        simpa [validLen] using fourteen_le_of_qualifies hq
      have hbase : (BitVec.ofNat 16 14).toNat = 14 := rfl
      have hrest : (BitVec.ofNat 16 (validLen .rxbuf s - 14)).toNat ≤ validLen .rxbuf s - 14 := Nat.mod_le _ _
      refine inv_openParse { h with } (.inr hop) ?_ (by simp [hop])
      simp only [setPayload_payBase, setPayload_payLen, setPayload_rxLen, savePay_rxLen, hbase]
      have : validLen .rxbuf s = s.rxLen.toNat := rfl
      omega
    · exact inv_finish { h with duRx := Reset.duInv_nil } Reset.statusInv_statusOk hs

/-- R8, R90: whichever operation `OP` names. -/
theorem inv_exec_of_op {op : BitVec 4} (hop : s.op = some op) (ht : exec (decodeOp op) s = .next t) : Inv t := by
  have hcode := Encoding.encode_decodeOp op
  generalize decodeOp op = i at ht hcode
  cases i with
  | hdrEnc => exact inv_execHdrEnc h hs ht
  | hdrDec => exact inv_execHdrDec h hs ht
  | tlvEnc => exact inv_execTlvEnc h hs ht
  | tlvDec => exact inv_execTlvDec h hs ht
  | duNew => exact inv_execDuNew h hs ht
  | duAppend => exact inv_execDuAppend h hs ht
  | duSer => exact inv_storeTx h Reset.statusInv_statusOk hs ht
  | duParse =>
    cases hcode
    exact inv_execDuParse h hs hop ht
  | duComplete => exact inv_execDuComplete h hs ht
  | duGet => exact inv_execDuGet h hs ht
  | envClassify => exact inv_execEnvClassify h hs ht
  | envBuild => exact inv_execEnvBuild h hs ht
  | rxFrame =>
    cases hcode
    exact inv_execRxFrame h hs hop ht
  | reservedOp13 | reservedOp14 | reservedOp15 =>
    cases ht
    exact inv_takeFault h _ nofun
  | _ => cases hcode

end

/-! ### The host (R31, R33) -/

/-- R281: after a reset the state is that of R37. -/
theorem inv_reset (inputs : List HostInput) : Inv { State.reset with inputs := inputs } :=
  inv_of_idle { Reset.resetMeetsMachineInvariant with } rfl rfl

section
variable {s t : State} (h : DataInv s) (hp : s.parsing = false) (hs : s.savedPay = none)
include h hp hs

/-- R22, R33: a host write of `REC` reaches no byte outside the bank's arrays. -/
theorem inv_writeRecord (w : RecordWrite) : Inv { s with tlvRec := writeRecord w s.tlvRec } := by
  cases w with
  | addr i v => exact inv_of_idle { h with recAddr := memInv_write v h.recAddr i.isLt } hp hs
  | oui i v => exact inv_of_idle { h with recOui := memInv_write v h.recOui i.isLt } hp hs
  | val i v => exact inv_of_idle { h with recVal := memInv_write v h.recVal i.isLt } hp hs
  | _ => exact inv_of_idle { h with } hp hs

/-- R33, 93 U6: the block takes no host input that would leave a space. -/
theorem inv_acceptInput {a : HostInput} (ht : acceptInput a s = .next t) : Inv t := by
  cases a with
  | reset =>
    cases ht
    exact inv_reset s.inputs
  | writeRecord w =>
    cases ht
    exact inv_writeRecord h hp hs w
  | writeLocalMac i v =>
    cases ht
    exact inv_of_idle { h with localMac := memInv_write v h.localMac i.isLt } hp hs
  | writeRxByte x v =>
    simp only [acceptInput] at ht
    split_ifs at ht with hx
    cases ht
    exact inv_of_idle { h with rxbuf := memInv_write v h.rxbuf hx } hp hs
  | writeRxLen v =>
    simp only [acceptInput] at ht
    split_ifs at ht with hv
    cases ht
    exact inv_of_idle { h with rxLen := hv } hp hs
  | writeTlvByte x v =>
    simp only [acceptInput] at ht
    split_ifs at ht with hx
    cases ht
    exact inv_of_idle { h with tlvbuf := memInv_write v h.tlvbuf hx } hp hs
  | writeTlvLen v =>
    simp only [acceptInput] at ht
    split_ifs at ht with hv
    cases ht
    exact inv_of_idle { h with tlvLen := hv } hp hs
  | _ =>
    cases ht
    exact inv_of_idle { h with } hp hs

end

/-! ### Every step -/

/-- R8, R9, R263: a step of an engine that runs no parse. -/
theorem inv_step_of_idle {s t : State} (h : Inv s) (hreset : NoReset s) (hp : s.parsing = false) (ht : step s = .next t) :
    Inv t := by
  have hs := h.idle hp
  cases hop : s.op with
  | some op =>
    rw [Scope.step_of_op_started hreset hp hop] at ht
    exact inv_exec_of_op h hs hop ht
  | none =>
    cases hin : s.inputs with
    | nil =>
      rw [Scope.step_of_idle hin hp hop] at ht
      cases ht
      exact h
    | cons a rest =>
      rw [HostPort.step_of_input hin hp hop] at ht
      exact inv_acceptInput (s := { s with inputs := rest }) { h with } hp hs ht

/-- Settles O3: the step serves a reset, runs an operation or takes a host input with no parse running, or is one of the four kinds of
step of a running parse. -/
theorem everyStepKeepsMachineInvariant : Obligations.EveryStepKeepsMachineInvariant := by
  unfold Obligations.EveryStepKeepsMachineInvariant
  intro s t h ht
  by_cases hreset : NoReset s
  · cases hp : s.parsing with
    | false => exact inv_step_of_idle h hreset hp ht
    | true =>
      rcases step_of_parsing hreset hp with ⟨f, hf, -⟩ | ⟨t', ht', hstep⟩
      · rw [hf] at ht
        cases ht
      · rw [ht'] at ht
        cases ht
        exact inv_parseStep h hp hstep
  · obtain ⟨rest, hin⟩ : ∃ rest, s.inputs = .reset :: rest := by simpa [NoReset] using hreset
    rw [step_settled (fetch_reset hin)] at ht
    cases ht
    exact inv_reset rest

end Sys2Proof.Proofs.Invariant
end

section
/-! Runs of a parse (42_container R201 to R205): it ends within 750 TLV steps, what it leaves in `DU_RX` serializes to the bytes it
consumed, and parsing a serialization gives the container back. -/

namespace Sys2Proof.Proofs.ParseRun

open Sys2Proof Sys2Proof.Machine Sys2Proof.Proofs.VariantCodec Sys2Proof.Proofs.TlvStep Sys2Proof.Proofs.Container
open Sys2Proof.Proofs.ContainerOps Sys2Proof.Proofs.Cursor Sys2Proof.Proofs.Invariant

/-! ### Runs -/

/-- `k` steps lead from `s` to `t`. -/
def Runs (k : Nat) (s t : State) : Prop := Host.Core.run Sys2Proof.core k s = .next t

theorem coreRun_succ_iff (M : Host.Core) {k : Nat} {s t : M.State} :
    M.run (k + 1) s = .next t ↔ ∃ u, M.step s = .next u ∧ M.run k u = .next t := by
  rw [Host.Core.run]
  cases M.step s <;> simp

section
variable {s t u : State} {k : Nat}

theorem runs_zero_iff : Runs 0 s t ↔ t = s := ⟨fun h => by cases h; rfl, fun h => h ▸ rfl⟩

theorem runs_succ_iff : Runs (k + 1) s t ↔ ∃ u, step s = .next u ∧ Runs k u t := coreRun_succ_iff Sys2Proof.core

/-- One more step at the end of a run. -/
theorem runs_then_step (hrun : Runs k s t) (h : step t = .next u) : Runs (k + 1) s u := by
  induction k generalizing s with
  | zero =>
    obtain rfl := runs_zero_iff.mp hrun
    exact runs_succ_iff.mpr ⟨u, h, runs_zero_iff.mpr rfl⟩
  | succ k ih =>
    obtain ⟨s', hs', hrun⟩ := runs_succ_iff.mp hrun
    exact runs_succ_iff.mpr ⟨s', hs', ih hrun⟩

/-- R263: an idle engine with nothing to come stays as it is. -/
theorem eq_of_runs_idle (hrun : Runs k s t) (hin : s.inputs = []) (hp : s.parsing = false) (hop : s.op = none) : t = s := by
  induction k with
  | zero => exact runs_zero_iff.mp hrun
  | succ k ih =>
    obtain ⟨s', hs', hrun⟩ := runs_succ_iff.mp hrun
    cases (Scope.step_of_idle hin hp hop).symm.trans hs'
    exact ih hrun

end

/-! ### A parse ends (R204) -/

theorem two_mul_length_le_duLen (du : List Tlv) : 2 * du.length ≤ duLen du := by
  induction du with
  | nil => rfl
  | cons v du ih =>
    simp only [duLen, List.map_cons, List.sum_cons, List.length_cons, tlvSize] at ih ⊢
    omega

/-- R130: an id has a subtype byte in its payload. -/
theorem three_le_tlvSize {v : Tlv} (h : v.variant = .chassisId ∨ v.variant = .portId) : 3 ≤ tlvSize v := by
  cases v with
  | chassisId | portId =>
    simp only [tlvSize, tlvLength, penc, List.length_cons]
    omega
  | _ => simp [Tlv.variant] at h

/-- R188, R204: every TLV takes at least two bytes of the 1500, the first two TLVs three. -/
theorem length_le_of_ordered {du : List Tlv} (h : DuOrdered du) : du.length ≤ 749 := by
  match du, h with
  | [], _ | [_], _ => simp
  | a :: b :: rest, h =>
    have ha : a.variant = .chassisId := by simpa [kindAt] using kindAt_zero h (by simp)
    have hb : b.variant = .portId := by simpa [kindAt] using kindAt_one h (by simp)
    have hsa := three_le_tlvSize (.inl ha)
    have hsb := three_le_tlvSize (.inr hb)
    have hrest := two_mul_length_le_duLen rest
    have hsize := h.size
    simp only [duLen, List.map_cons, List.sum_cons, List.length_cons] at hsize hrest ⊢
    omega

/-- R204: a step of a running parse ends it or makes `DU_RX` longer. -/
theorem step_ends_or_grows {s : State} (h : Inv s) (hp : s.parsing = true) (hreset : NoReset s) :
    ∃ t, step s = .next t ∧ ((t.parsing = false ∧ t.op = none) ∨
      (Inv t ∧ t.parsing = true ∧ NoReset t ∧ t.duRx.length = s.duRx.length + 1)) := by
  obtain ⟨t, ht, hstep⟩ := (step_of_parsing hreset hp).resolve_left fun ⟨_, _, hout⟩ => hout (sliceValid_of_inv h hp)
  refine ⟨t, ht, ?_⟩
  cases hstep with
  | exhausted | fault | ended => exact .inl ⟨rfl, rfl⟩
  | taken htake hv => exact .inr ⟨inv_appended h hp htake hv, hp, hreset, by simp [appended]⟩

/-- R204: the steps to come are one for each element `DU_RX` still has room for, and the one that stops. -/
theorem exists_runs_to_idle {s : State} {n : Nat} (h : Inv s) (hp : s.parsing = true) (hreset : NoReset s)
    (hn : 749 ≤ s.duRx.length + n) : ∃ k t, k ≤ n + 1 ∧ Runs k s t ∧ t.parsing = false ∧ t.op = none := by
  induction n generalizing s with
  | zero =>
    obtain ⟨t, ht, ⟨hidle, hop⟩ | ⟨hinv, -, -, hlen⟩⟩ := step_ends_or_grows h hp hreset
    · exact ⟨1, t, le_rfl, runs_succ_iff.mpr ⟨t, ht, runs_zero_iff.mpr rfl⟩, hidle, hop⟩
    · have hroom := length_le_of_ordered hinv.duRx.1
      omega
  | succ n ih =>
    obtain ⟨t, ht, ⟨hidle, hop⟩ | ⟨hinv, hp', hreset', hlen⟩⟩ := step_ends_or_grows h hp hreset
    · exact ⟨1, t, by omega, runs_succ_iff.mpr ⟨t, ht, runs_zero_iff.mpr rfl⟩, hidle, hop⟩
    · obtain ⟨k, u, hk, hrun, hidle, hop⟩ := ih hinv hp' hreset' (by omega)
      exact ⟨k + 1, u, by omega, runs_succ_iff.mpr ⟨t, ht, hrun⟩, hidle, hop⟩

/-- Settles O5: from an empty `DU_RX` on there is room for 749 elements. -/
theorem everyParseEnds : Obligations.EveryParseEnds := by
  unfold Obligations.EveryParseEnds
  intro s h hp hreset
  exact exists_runs_to_idle h hp hreset (Nat.le_add_left 749 _)

/-! ### The bytes consumed (R202, R205) -/

/-- What a parse keeps from its beginning on: the cursor is where the TLVs taken end, and their bytes are those passed. -/
structure Consumed (s : State) : Prop where
  cursor : s.off.toNat = duLen s.duRx
  bytes : serialize s.duRx <+: payload s

theorem append_isPrefix_of_drop {α : Type} {a b l : List α} (ha : a <+: l) (hb : b <+: l.drop a.length) : a ++ b <+: l := by
  obtain ⟨r, rfl⟩ := ha
  rw [List.drop_left] at hb
  exact (List.prefix_append_right_inj a).mpr hb

section
variable {s t : State} (h : Consumed s)
include h

theorem serialize_of_consumed : serialize s.duRx = s.rxbuf.readN s.payBase.toNat s.off.toNat := by
  have hlen := h.bytes.length_le
  rw [serialize_length, payload_length, ← h.cursor] at hlen
  have htake := List.prefix_iff_eq_take.mp h.bytes
  rwa [serialize_length, ← h.cursor, payload, readN_take, Nat.min_eq_left hlen] at htake

theorem consumed_stopParse {why : Stop} : Consumed (stopParse why s) := ⟨h.cursor, h.bytes⟩

/-- R200, R205: the TLV taken is appended to both. -/
theorem consumed_appended {v : Tlv} (htake : Takes s v) : Consumed (appended v (tlvSize v) s) where
  cursor := by
    obtain ⟨-, -, hsize⟩ := htake.accepts
    simp only [appended, BitVec.toNat_add, BitVec.toNat_ofNat, h.cursor, duLen_append, duLen_singleton]
    omega
  bytes := by
    have hb := htake.bytes
    rw [ahead, h.cursor, ← serialize_length] at hb
    rw [appended, serialize_append_one]
    exact append_isPrefix_of_drop h.bytes hb

end

/-- What a parse of the bytes of `m` from `base` on leaves at its end `t` (R202, R205). -/
def ConsumedOrEmpty (m : Memory) (base : Nat) (t : State) : Prop :=
  (t.st.ok = true → serialize t.duRx = m.readN base t.off.toNat) ∧ (t.st.ok = false → t.duRx = [])

/-- R202, R205: by induction on the run, whose steps take TLVs until one ends the parse, after which nothing happens. -/
theorem consumedOrEmpty_of_runs {s t : State} {k : Nat} (h : Consumed s) (hp : s.parsing = true) (hin : s.inputs = [])
    (hrun : Runs k s t) (hidle : t.parsing = false) :
    ConsumedOrEmpty s.rxbuf s.payBase.toNat t := by
  induction k generalizing s with
  | zero =>
    obtain rfl := runs_zero_iff.mp hrun
    exact absurd (hp.symm.trans hidle) nofun
  | succ k ih =>
    obtain ⟨s', hs', hrun⟩ := runs_succ_iff.mp hrun
    have hreset : NoReset s := by simp [NoReset, hin]
    obtain ⟨t', ht', hstep⟩ := (step_of_parsing hreset hp).resolve_left fun ⟨f, hf, _⟩ => by
      rw [hf] at hs'
      cases hs'
    cases hs'.symm.trans ht'
    cases hstep with
    | taken htake => exact ih (s := appended _ _ s) (consumed_appended h htake) hp hin hrun
    | exhausted =>
      obtain rfl := eq_of_runs_idle hrun hin rfl rfl
      exact ⟨fun _ => serialize_of_consumed (consumed_stopParse h), nofun⟩
    | ended htake =>
      obtain rfl := eq_of_runs_idle hrun hin rfl rfl
      exact ⟨fun _ => serialize_of_consumed (consumed_stopParse (consumed_appended h htake)), nofun⟩
    | fault =>
      obtain rfl := eq_of_runs_idle hrun hin rfl rfl
      exact ⟨nofun, fun _ => if_pos hp⟩

/-- Settles O46: at the beginning of a parse no byte is consumed. -/
theorem serializeOfParseIsTheBytesConsumed : Obligations.SerializeOfParseIsTheBytesConsumed := by
  unfold Obligations.SerializeOfParseIsTheBytesConsumed
  intro s t k hp hdu hoff hin hrun hidle
  have hbegin : Consumed s := ⟨by simp [hdu, hoff], by simp [hdu]⟩
  exact consumedOrEmpty_of_runs hbegin hp hin hrun hidle

/-! ### Parsing a serialization (R205) -/

/-- The state of a parse that has taken the elements of `du`. -/
def parsed (du : List Tlv) (s : State) : State := { s with duRx := du, off := BitVec.ofNat 11 (duLen du) }

theorem parsed_nil {s : State} (hnil : s.duRx = []) (hoff : s.off = 0) : parsed [] s = s := by
  cases s
  cases hnil
  cases hoff
  rfl

theorem parsed_off_toNat {du : List Tlv} (s : State) (hsize : duLen du ≤ 1500) : (parsed du s).off.toNat = duLen du := by
  rw [parsed, BitVec.toNat_ofNat]
  omega

theorem appended_parsed (du : List Tlv) (v : Tlv) (s : State) :
    appended v (tlvSize v) (parsed du s) = parsed (du ++ [v]) s := by
  simp only [appended, parsed, duLen_append, duLen_singleton, BitVec.ofNat_add]

/-- R190, R200: a TLV step at the encoding of a well-formed value `append` takes. -/
theorem step_of_ahead_encBytes {s : State} {v : Tlv} {rest : Bytes} (hreset : NoReset s) (hp : s.parsing = true)
    (hvalid : SliceValid s) (hwf : v.wf = true) (ha : Accepts s.duRx v.variant (tlvSize v)) (hb : ahead s = encBytes v ++ rest) :
    step s = .next (if v.variant = .endOfLldpdu then stopParse .endTlv (appended v (tlvSize v) s)
      else appended v (tlvSize v) s) := by
  have hinstr : (v.variant.instr (penc v)).wf = true := Encoding.wf_variant_iff.mpr (Record.tlvLength_le_of_wf hwf)
  rw [step_of_ahead_encode hreset hp hvalid hinstr (Encoding.encode_variant _ _) hb]
  exact exec_eq_of_accepts (pdec_penc hwf) rfl ha

/-- R200, R205: behind the elements taken, the bytes ahead are the rest of the slice. -/
theorem parsed_cursor {s : State} {du : List Tlv} {rest : Bytes} (hslice : s.payBase.toNat + s.payLen.toNat ≤ s.rxLen.toNat)
    (hcap : s.rxLen.toNat ≤ Config.rxCap) (hsize : duLen du ≤ 1500) (hb : payload s = serialize du ++ rest) :
    SliceValid (parsed du s) ∧ ahead (parsed du s) = rest := by
  have hoff := parsed_off_toNat s hsize
  have hlen := congrArg List.length hb
  rw [payload_length, List.length_append, serialize_length] at hlen
  refine ⟨⟨hslice, hcap, hoff.trans_le (show _ ≤ s.payLen.toNat by omega)⟩, ?_⟩
  have hpayload : payload (parsed du s) = serialize du ++ rest := hb
  rw [ahead, hoff, hpayload, ← serialize_length, List.drop_left]

/-- R205: by induction on the appends the container was got by, each of which is one TLV step. -/
theorem exists_runs_parsed {s : State} {du : List Tlv} {rest : Bytes} (hdu : DuReachable du) (hp : s.parsing = true)
    (hreset : NoReset s) (hslice : s.payBase.toNat + s.payLen.toNat ≤ s.rxLen.toNat) (hcap : s.rxLen.toNat ≤ Config.rxCap)
    (hnil : s.duRx = []) (hoff : s.off = 0) (hb : payload s = serialize du ++ rest) :
    ∃ k, Runs k s (if duHasEnd du = true then stopParse .endTlv (parsed du s) else parsed du s) := by
  induction hdu generalizing rest with
  | empty =>
    exact ⟨0, runs_zero_iff.mpr (parsed_nil hnil hoff)⟩
  | @append du du' v hdu hwf happ ih =>
    obtain ⟨ha, rfl⟩ := duAppend_eq_ok_iff.mp happ
    rw [serialize_append_one, List.append_assoc] at hb
    obtain ⟨k, hrun⟩ := ih hb
    rw [ha.1, if_neg Bool.false_ne_true] at hrun
    obtain ⟨hvalid, hahead⟩ := parsed_cursor hslice hcap (duInv_of_reachable hdu).1.size hb
    have hstep := step_of_ahead_encBytes (s := parsed du s) hreset hp hvalid hwf ha hahead
    refine ⟨k + 1, ?_⟩
    simpa [appended_parsed, ha.1] using runs_then_step hrun hstep

/-- Settles O45: the elements are taken one by one; then the parse has stopped at its EndOfLLDPDU, or the slice is exhausted. -/
theorem parseOfSerializeIsTheContainer : Obligations.ParseOfSerializeIsTheContainer := by
  unfold Obligations.ParseOfSerializeIsTheContainer
  intro s du hdu hp _ hreset hnil hoff hslice hcap hbytes
  have hb : payload s = serialize du ++ [] := by rwa [List.append_nil]
  have hcomplete : duComplete du = duHasEnd du := reachableCompletenessIsHasEnd du hdu
  have hsize := (duInv_of_reachable hdu).1.size
  obtain ⟨k, hrun⟩ := exists_runs_parsed hdu hp hreset hslice hcap hnil hoff hb
  have hlen := parsed_off_toNat s hsize
  cases hend : duHasEnd du with
  | true =>
    rw [hend, if_pos rfl] at hrun
    exact ⟨k, _, hrun, rfl, rfl, rfl, hlen, hcomplete.trans hend, rfl⟩
  | false =>
    rw [hend, if_neg Bool.false_ne_true] at hrun
    obtain ⟨hvalid, hahead⟩ := parsed_cursor hslice hcap hsize hb
    have hstop := step_of_ahead_nil (s := parsed du s) hreset hp hvalid hahead
    exact ⟨k + 1, _, runs_then_step hrun hstop, rfl, rfl, rfl, hlen, hcomplete.trans hend, rfl⟩

end Sys2Proof.Proofs.ParseRun
end

section
/-! The envelope filter and its operations (43_envelope): which frames qualify (R220), ENV.CLASSIFY (R222), ENV.BUILD (R226, R227), and
where RX.FRAME begins and ends (R230). -/

namespace Sys2Proof.Proofs.Envelope

open Sys2Proof Sys2Proof.Machine Sys2Proof.Proofs.ContainerOps Sys2Proof.Proofs.TlvStep Sys2Proof.Proofs.Cursor
open Sys2Proof.Proofs.Invariant Sys2Proof.Proofs.ParseRun

/-! ### Slices (00_scope R12) -/

theorem slice_zero (b : Bytes) (n : Nat) : slice b 0 n = b.take n := by simp [slice]

/-- The part between a known front and a known rest. -/
theorem slice_append_mid (front mid rest : Bytes) :
    slice (front ++ mid ++ rest) front.length (front.length + mid.length) = mid := by
  simp [slice]

/-- Two bytes, one by one. -/
theorem slice_two {b : Bytes} {i : Nat} (h : i + 2 ≤ b.length) : slice b i (i + 2) = [b.getD i 0, b.getD (i + 1) 0] := by
  have h0 : i < b.length := by omega
  have h1 : i + 1 < b.length := by omega
  rw [slice, Nat.add_sub_cancel_left, List.drop_eq_getElem_cons h0, List.drop_eq_getElem_cons h1,
    List.getD_eq_getElem _ _ h0, List.getD_eq_getElem _ _ h1]
  rfl

/-! ### Which frames qualify (R220) -/

/-- R6: the three reserved group addresses. -/
def ReservedAddress (dst : Bytes) : Prop := dst = Config.mcast0 ∨ dst = Config.mcast1 ∨ dst = Config.mcast2

/-- R220: the tests, by the parts of the frame they look at. -/
theorem qualifies_iff {f mac : Bytes} : qualifies f mac = true ↔
    14 ≤ f.length ∧ slice f 12 14 = Config.etherType ∧ ReservedAddress (slice f 0 6) ∧ slice f 6 12 ≠ mac := by
  simp only [qualifies, ReservedAddress, Bool.and_eq_true, Bool.or_eq_true, decide_eq_true_eq, beq_iff_eq, bne_iff_ne, and_assoc,
    or_assoc]

/-- Settles O47: the parts of the frame are those the statement names, and the EtherType is read byte by byte. -/
theorem qualifyingFrames : Obligations.QualifyingFrames := by
  unfold Obligations.QualifyingFrames
  intro f mac
  rw [qualifies_iff, slice_zero]
  refine and_congr_right fun hlen => ?_
  rw [slice_two hlen]
  simp only [Config.etherType, List.cons.injEq, and_true, and_assoc]
  rfl

/-- R226, R220: a frame with an envelope qualifies at every station but its source. -/
theorem qualifies_envelope_iff {dst src : Bytes} (rest mac : Bytes) (hdst : ReservedAddress dst) (hsrc : src.length = 6) :
    qualifies (envelope dst src ++ rest) mac = true ↔ mac ≠ src := by
  have hlen : dst.length = 6 := by rcases hdst with rfl | rfl | rfl <;> rfl
  have hto : slice (envelope dst src ++ rest) 0 6 = dst := by
    simpa [envelope, hlen] using slice_append_mid [] dst (src ++ Config.etherType ++ rest)
  have hfrom : slice (envelope dst src ++ rest) 6 12 = src := by
    simpa [envelope, hlen, hsrc] using slice_append_mid dst src (Config.etherType ++ rest)
  have htype : slice (envelope dst src ++ rest) 12 14 = Config.etherType := by
    simpa [envelope, hlen, hsrc, Config.etherType] using slice_append_mid (dst ++ src) Config.etherType rest
  have h14 : 14 ≤ (envelope dst src ++ rest).length := by simp +arith [envelope, hlen, hsrc, Config.etherType]
  rw [qualifies_iff, hto, hfrom, htype]
  exact ⟨fun ⟨_, _, _, hne⟩ => hne.symm, fun hne => ⟨h14, rfl, hdst, hne.symm⟩⟩

/-! ### ENV.CLASSIFY and the front of RX.FRAME (R222, R230) -/

/-- R222, R230: RX.FRAME has found that the frame qualifies, written the descriptor and begun the parse. -/
def begun (s : State) : State := openParse (setPayload 14 (s.rxLen.toNat - 14) (savePay s))

section
variable {s : State} (hcap : s.rxLen.toNat ≤ Config.rxCap)
include hcap

/-- R13, R33: the whole of the received frame can be read. -/
theorem memRead_frame : memRead .rxbuf 0 (validLen .rxbuf s) s = .ok (s.rxbuf.readN 0 s.rxLen.toNat) :=
  memRead_eq (Nat.zero_add _).le ((Nat.zero_add _).trans_le hcap)

/-- R222: the two outcomes of ENV.CLASSIFY. -/
theorem exec_envClassify : exec .envClassify s = .next (
    if qualifies (s.rxbuf.readN 0 s.rxLen.toNat) (localMacBytes s) = true
    then finish { statusOk with qual := true } (setPayload 14 (s.rxLen.toNat - 14) s)
    else finish statusOk (setPayload 0 0 s)) := by
  simp only [exec, execEnvClassify, memRead_frame hcap]
  split <;> rfl

/-- R230: the two outcomes of RX.FRAME's classification. -/
theorem exec_rxFrame : exec .rxFrame s = .next (
    if qualifies (s.rxbuf.readN 0 s.rxLen.toNat) (localMacBytes s) = true
    then begun s
    else finish statusOk { setPayload 0 0 s with duRx := [], off := 0 }) := by
  simp only [exec, execRxFrame, memRead_frame hcap]
  split <;> rfl

end

/-- Settles O48: the frame qualifies or it does not. -/
theorem envClassifyResult : Obligations.EnvClassifyResult := by
  unfold Obligations.EnvClassifyResult
  intro s hcap
  constructor
  · intro hq
    exact (exec_envClassify hcap).trans (congrArg _ (if_pos hq))
  · intro hq
    exact (exec_envClassify hcap).trans (congrArg _ (if_neg (Bool.eq_false_iff.mp hq)))

/-- Settles O50: the frame qualifies or it does not. -/
theorem rxFrameResult : Obligations.RxFrameResult := by
  unfold Obligations.RxFrameResult
  intro s hcap hp
  constructor
  · intro hq
    exact (exec_rxFrame hcap).trans (congrArg _ (if_pos hq))
  · intro hq
    rw [hp]
    exact (exec_rxFrame hcap).trans (congrArg _ (if_neg (Bool.eq_false_iff.mp hq)))

/-! ### ENV.BUILD (R226, R227) -/

/-- R31, R6: a legal `DST_SEL` names a reserved address, by its last byte. -/
theorem destination_eq_some {sel : BitVec 2} (h : sel ≠ 3) : ∃ last : Byte,
    (sel = 0 ∧ last = 0x00 ∨ sel = 1 ∧ last = 0x03 ∨ sel = 2 ∧ last = 0x0E) ∧
    destination sel = some [0x01, 0x80, 0xC2, 0x00, 0x00, last] ∧ ReservedAddress [0x01, 0x80, 0xC2, 0x00, 0x00, last] := by
  have hsel : sel = 0 ∨ sel = 1 ∨ sel = 2 := by bv_omega
  rcases hsel with rfl | rfl | rfl
  · exact ⟨0x00, .inl ⟨rfl, rfl⟩, rfl, .inl rfl⟩
  · exact ⟨0x03, .inr (.inl ⟨rfl, rfl⟩), rfl, .inr (.inl rfl)⟩
  · exact ⟨0x0E, .inr (.inr ⟨rfl, rfl⟩), rfl, .inr (.inr rfl)⟩

theorem localMacBytes_length (s : State) : (localMacBytes s).length = 6 := readN_length _ _ _

/-- R226: the frame ENV.BUILD writes for destination `dst`. -/
def builtFrame (dst : Bytes) (s : State) : Bytes := envelope dst (localMacBytes s) ++ serialize s.duTx

theorem builtFrame_length {dst : Bytes} (s : State) (hdst : dst.length = 6) : (builtFrame dst s).length = 14 + duLen s.duTx := by
  simp +arith [builtFrame, envelope, hdst, localMacBytes_length, serialize_length, Config.etherType]

/-- R227: a container within 1500 bytes and its envelope fit `TXBUF`. -/
theorem exec_envBuild {s : State} {dst : Bytes} (hlen : duLen s.duTx ≤ 1500) (hsel : destination s.dstSel = some dst)
    (hdst : dst.length = 6) : exec .envBuild s = .next (finish { statusOk with complete := duComplete s.duTx } { s with
      txbuf := s.txbuf.writeN 0 (builtFrame dst s), txLen := BitVec.ofNat 16 (14 + duLen s.duTx) }) := by
  have hfit : (builtFrame dst s).length ≤ Config.txCap := by
    rw [builtFrame_length s hdst]
    show _ ≤ 1514
    omega
  simp only [exec, execEnvBuild, hsel]
  rw [← builtFrame_length s hdst]
  exact storeTx_eq _ s hfit

/-- Settles O49: the state ENV.BUILD leaves, its bytes read back by the laws of a read after a write, and its frame an envelope of
`LOCAL_MAC`. -/
theorem envBuildResult : Obligations.EnvBuildResult := by
  unfold Obligations.EnvBuildResult
  intro s hsize
  refine ⟨fun hsel => ?build, fun hsel => ?illegal⟩
  case illegal =>
    have hnone : destination s.dstSel = none := by rw [hsel]; rfl
    simp only [exec, execEnvBuild, hnone, illegalOp]
  case build =>
    obtain ⟨last, hlast, hdst, hreserved⟩ := destination_eq_some hsel
    refine ⟨_, last, exec_envBuild hsize hdst rfl, hlast, ?_, fun hwf => ?_⟩
    · simp only [finish]
    have hlen : (BitVec.ofNat 16 (14 + duLen s.duTx)).toNat = (builtFrame [0x01, 0x80, 0xC2, 0x00, 0x00, last] s).length := by
      rw [builtFrame_length s rfl, BitVec.toNat_ofNat]
      omega
    simp only [finish_txbuf, finish_txLen, hlen, readN_writeN hwf]
    refine ⟨?bytes, fun a ha => read_writeN_outside hwf _ _ _ (by omega),
      fun mac => qualifies_envelope_iff _ mac hreserved (localMacBytes_length s)⟩
    case bytes =>
      rw [← List.flatMap_def]
      rfl

/-! ### Where a parse ends (R201, R202, R204) -/

/-- R201, R202: a parse that `s` is in has ended, at some cursor and with some TLVs taken, by a stop or by a fault. -/
inductive ParseEnd (s : State) : State → Prop
  | stopped (du : List Tlv) (off : BitVec 11) {why : Stop} (h : why = .endTlv ∨ why = .exhausted) :
      ParseEnd s (stopParse why { s with duRx := du, off := off })
  | fault (du : List Tlv) (off : BitVec 11) (c : Cause) (t : Option (BitVec 7)) :
      ParseEnd s (takeFault c t { s with duRx := du, off := off })

/-- R200: a TLV taken changes nothing that the end of the parse could tell. -/
theorem parseEnd_of_appended {s t : State} {v : Tlv} {n : Nat} (h : ParseEnd (appended v n s) t) : ParseEnd s t := by
  cases h with
  | stopped du off hwhy => exact .stopped du off hwhy
  | fault du off c ty => exact .fault du off c ty

/-- R200 to R202: a step of a running parse is its end, or takes a TLV. -/
theorem parseEnd_or_taken {s t : State} (h : ParseStep s t) :
    ParseEnd s t ∨ ∃ v, Takes s v ∧ v.variant ≠ .endOfLldpdu ∧ t = appended v (tlvSize v) s := by
  cases h with
  | exhausted => exact .inl (.stopped s.duRx s.off (.inr rfl))
  | fault ty => exact .inl (.fault s.duRx s.off _ ty)
  | ended htake => exact .inl (.stopped _ _ (.inl rfl))
  | taken htake hv => exact .inr ⟨_, htake, hv, rfl⟩

/-- R204: by induction on the steps `DU_RX` leaves room for, as for `exists_runs_to_idle`; this run stops at the very step that ends
the parse, and so tells what that step leaves. -/
theorem exists_runs_to_parseEnd {s : State} {n : Nat} (h : Inv s) (hp : s.parsing = true) (hreset : NoReset s)
    (hn : 750 ≤ s.duRx.length + n) : ∃ k t, k ≤ n ∧ Runs k s t ∧ ParseEnd s t := by
  induction n generalizing s with
  | zero =>
    have := length_le_of_ordered h.duRx.1
    omega
  | succ n ih =>
    obtain ⟨t, ht, hstep⟩ := (step_of_parsing hreset hp).resolve_left fun ⟨_, _, hout⟩ => hout (sliceValid_of_inv h hp)
    rcases parseEnd_or_taken hstep with hend | ⟨v, htake, hv, rfl⟩
    · exact ⟨1, t, by omega, runs_succ_iff.mpr ⟨t, ht, runs_zero_iff.mpr rfl⟩, hend⟩
    · have hroom : 750 ≤ (appended v (tlvSize v) s).duRx.length + n := by
        simp only [appended, List.length_append, List.length_singleton]
        omega
      obtain ⟨k, u, hk, hrun, hend⟩ := ih (inv_appended h hp htake hv) hp hreset hroom
      exact ⟨k + 1, u, by omega, runs_succ_iff.mpr ⟨_, ht, hrun⟩, parseEnd_of_appended hend⟩

/-! ### RX.FRAME from its start to its end (R230) -/

/-- R230: the step that starts RX.FRAME on a frame that qualifies opens its parse. -/
theorem step_rxFrame {s : State} (hcap : s.rxLen.toNat ≤ Config.rxCap) (hreset : NoReset s) (hp : s.parsing = false)
    (hop : s.op = some 12) (hq : qualifies (s.rxbuf.readN 0 s.rxLen.toNat) (localMacBytes s) = true) :
    step s = .next (begun s) := by
  rw [Scope.step_of_op_started hreset hp hop]
  exact (exec_rxFrame hcap).trans (congrArg _ (if_pos hq))

/-- Settles O51: one step opens the parse, at most 750 end it, and each kind of end leaves what the statement says. -/
theorem rxFrameRunsToItsEnd : Obligations.RxFrameRunsToItsEnd := by
  unfold Obligations.RxFrameRunsToItsEnd
  intro s h hreset hp hop hq
  have hopen := step_rxFrame h.rxLen hreset hp hop hq
  have hinv := Invariant.everyStepKeepsMachineInvariant s _ h hopen
  obtain ⟨k, t, hk, hrun, hend⟩ := exists_runs_to_parseEnd hinv rfl hreset (Nat.le_add_left 750 _)
  refine ⟨k + 1, t, by omega, runs_succ_iff.mpr ⟨_, hopen, hrun⟩, ?_⟩
  have hsaved := h.idle hp
  have hvia : (s.op == some 12) = true := by simp [hop]
  cases hend with
  | stopped du off hwhy =>
    have hlen : (BitVec.ofNat 16 (s.rxLen.toNat - 14)).toNat = s.rxLen.toNat - 14 := by
      rw [BitVec.toNat_ofNat]
      omega
    refine ⟨?_, hvia, fun _ => ⟨rfl, hlen, rfl, rfl, hwhy⟩, nofun⟩
    rw [hp, hsaved]
    rfl
  | fault du off c ty =>
    have hpay : faultPay { begun s with duRx := du, off := off } =
        if Config.rxFaultRestoresPay = true then (s.payBase, s.payLen) else (14, BitVec.ofNat 16 (s.rxLen.toNat - 14)) :=
      faultPay_of_some rfl
    refine ⟨?_, hvia, nofun, fun _ => ⟨hpay, rfl, rfl, rfl, rfl⟩⟩
    rw [hp, hsaved]
    rfl

end Sys2Proof.Proofs.Envelope
end

section
/-! The numbers of the STATUS fields (10_state R30, 60_exceptions R240, R241), and what taking a fault writes (R245). -/

namespace Sys2Proof.Proofs.FaultEntry

open Sys2Proof Sys2Proof.Machine

/-- Settles O56: each cause has its row of the table; the other numbers are those of the definitions. -/
theorem statusCodes : Obligations.StatusCodes := by
  unfold Obligations.StatusCodes
  refine ⟨fun c => ?_, rfl, rfl, rfl, rfl, rfl, rfl, rfl, rfl, rfl, rfl, rfl, rfl⟩
  cases c <;> decide

/-- Settles O29: a fault inside a parse and one outside it, and the descriptor the first leaves, by whether one was kept. -/
theorem faultEntryWrites : Obligations.FaultEntryWrites := by
  unfold Obligations.FaultEntryWrites
  intro c ty s
  exact ⟨Fault.takeFault_of_parsing c ty, faultPay_of_none, fun _ => faultPay_of_some, Fault.takeFault_of_idle c ty⟩

end Sys2Proof.Proofs.FaultEntry
end

section
/-! Which causes an instruction can report (60_exceptions R243, 42_container R201): those its checks can raise, and no other way to end
an operation than without a fault or with one of these. -/

namespace Sys2Proof.Proofs.FaultCauses

open Sys2Proof Sys2Proof.Machine Sys2Proof.Proofs.Encoding Sys2Proof.Proofs.Container

/-! ### The causes a check can raise -/

/-- If `r` raises a cause, it is one of `l`. -/
def RaisesOnly {α : Type} (l : List Cause) (r : Except Cause α) : Prop := ∀ c, r = .error c → c ∈ l

section
variable {α : Type} {l : List Cause}

@[simp] theorem raisesOnly_ok {a : α} : RaisesOnly l (.ok a) := nofun

@[simp] theorem raisesOnly_error {c : Cause} : RaisesOnly l (.error c : Except Cause α) ↔ c ∈ l := by
  simp [RaisesOnly]

/-- A check in front of others: what it raises where it fails, and what they raise where it passes. -/
@[simp] theorem raisesOnly_ite {p : Prop} [Decidable p] {a b : Except Cause α} :
    RaisesOnly l (if p then a else b) ↔ (p → RaisesOnly l a) ∧ (¬ p → RaisesOnly l b) := by
  by_cases h : p <;> simp [h]

theorem raisesOnly_mono {l' : List Cause} {r : Except Cause α} (h : RaisesOnly l r) (hl : l ⊆ l') : RaisesOnly l' r :=
  fun c hc => hl (h c hc)

end

/-! ### The payload decoders (R128) -/

/-- R134. -/
theorem idDec_raisesOnly (kind : Byte → IdKind) (p : Bytes) : RaisesOnly [.lenRange, .subtype, .af, .utf8] (idDec kind p) := by
  cases p with
  | nil => simp [idDec]
  | cons sub rest =>
    cases hk : kind sub with
    | mac | text => simp [idDec, hk]
    | net => cases rest <;> simp [idDec, hk]

/-- R143. -/
theorem textDec_raisesOnly (p : Bytes) : RaisesOnly [.lenRange, .utf8] (textDec p) := by simp [textDec]

/-- The fault list of each variant's decode rule (R132, R136, R140, R144, R147, R150, R154, R161, R166, R170). -/
def decodeCauses : Variant → List Cause
  | .endOfLldpdu | .ttl | .organizationallySpecific => [.lenRange]
  | .chassisId | .portId => [.lenRange, .subtype, .af, .utf8]
  | .portDescription | .systemName | .systemDescription => [.lenRange, .utf8]
  | .systemCapabilities => [.lenRange, .capSubset]
  | .managementAddress => [.truncPayload, .trailing, .lenRange, .af, .subtype]

/-- R128: a payload decoder raises what its rule lists; those that read an id or a text pass on what its decoder raises. -/
theorem pdec_raisesOnly (k : Variant) (p : Bytes) : RaisesOnly (decodeCauses k) (pdec k p) := by
  cases k with
  | chassisId | portId =>
    simp only [pdec, pdecChassisId, pdecPortId]
    split
    · exact raisesOnly_error.mpr (idDec_raisesOnly _ p _ ‹_›)
    · exact raisesOnly_ok
  | portDescription | systemName | systemDescription =>
    simp only [pdec, pdecPortDescription, pdecSystemName, pdecSystemDescription]
    split
    · exact raisesOnly_error.mpr (textDec_raisesOnly p _ ‹_›)
    · exact raisesOnly_ok
  | endOfLldpdu => simp [pdec, pdecEndOfLldpdu, decodeCauses]
  | ttl => simp [pdec, pdecTtl, decodeCauses]
  | systemCapabilities => simp [pdec, pdecSystemCapabilities, decodeCauses]
  | managementAddress => simp [pdec, pdecManagementAddress, decodeCauses]
  | organizationallySpecific => simp [pdec, pdecOrganizationallySpecific, decodeCauses]

/-- R121: the frame adds the header's own faults. -/
theorem decFrame_cause_mem {k : Variant} {b : Bytes} {r : Raise} (h : decFrame k b = .error r) :
    r.cause ∈ [.truncHdr, .unexpectedType, .truncPayload, .trailing] ∨ r.cause ∈ decodeCauses k := by
  match b, h with
  | [], h | [_], h =>
    cases h
    simp
  | b0 :: b1 :: p, h =>
    have hp := pdec_raisesOnly k p
    rw [TlvCodec.decFrame_of_header rfl rfl] at h
    split_ifs at h
    · cases h
      simp
    · cases h
      simp
    · cases h
      simp
    · cases hd : pdec k p with
      | ok v =>
        rw [hd] at h
        cases h
      | error c =>
        rw [hd] at h
        cases h
        exact .inr (hp c hd)

/-! ### The checks of `enc` (R125) -/

/-- R135. -/
theorem idCheck_raisesOnly (kind : Byte → IdKind) (sub : Byte) (idv : IdValue) : RaisesOnly valueCauses (idCheck kind sub idv) := by
  cases idv <;> simp [idCheck, valueCauses]

/-- R143. -/
theorem textCheck_raisesOnly (t : Bytes) : RaisesOnly valueCauses (textCheck t) := by simp [textCheck, valueCauses]

/-- R125, R243. -/
theorem wfCheck_raisesOnly (v : Tlv) : RaisesOnly valueCauses (wfCheck v) := by
  cases v with
  | endOfLldpdu | ttl => exact raisesOnly_ok
  | chassisId | portId => exact idCheck_raisesOnly _ _ _
  | portDescription | systemName | systemDescription => exact textCheck_raisesOnly _
  | systemCapabilities | managementAddress | organizationallySpecific => simp [wfCheck, valueCauses]

/-! ### `append` (R186) -/

/-- R186: the cause of the position test, by the variant. -/
def positionCause (k : Variant) : Cause := if k ∈ [.chassisId, .portId, .ttl] then .ordPosition else .ordTriple

/-- R186, R201: on a container with no EndOfLLDPDU only the position and the size tests can fail. -/
theorem duAppend_raisesOnly_of_running {du : List Tlv} (v : Tlv) (h : duHasEnd du = false) :
    RaisesOnly [positionCause v.variant, .size] (duAppend du v) := by
  by_cases hpos : mayStandAt v.variant du.length
  · by_cases hsize : 1500 < duLen du + tlvSize v
    · simp [duAppend_of_size h hpos hsize]
    · simp [duAppend_of_accepts ⟨h, hpos, Nat.le_of_not_lt hsize⟩]
  · simp [duAppend_of_position h hpos, positionCause]

/-- R186, R243. -/
theorem duAppend_raisesOnly (du : List Tlv) (v : Tlv) :
    RaisesOnly [.ordEndDup, .ordAfterEnd, .ordPosition, .ordTriple, .size] (duAppend du v) := by
  cases h : duHasEnd du with
  | true =>
    by_cases hv : v.variant = .endOfLldpdu
    · simp [duAppend_of_second_end h hv]
    · simp [duAppend_of_behind_end h hv]
  | false =>
    refine raisesOnly_mono (duAppend_raisesOnly_of_running v h) ?_
    rw [positionCause]
    split <;> simp

/-! ### How an operation ends -/

/-- If the outcome ends the operation, it is without a fault or with a cause of `l`. -/
def Reports (l : List Cause) (o : Host.Outcome State Fault Refusal) : Prop :=
  ∀ t, o = .next t → t.op = none → t.st.ok = true ∨ t.st.cause ∈ l

section
variable {l : List Cause} {s : State}

theorem reports_fault {f : Fault} : Reports l (.fault f) := by
  rintro t ⟨⟩

/-- R245: a fault reports its cause. -/
theorem reports_takeFault {c : Cause} {ty : Option (BitVec 7)} (h : c ∈ l) : Reports l (.next (takeFault c ty s)) := by
  rintro t ⟨⟩ -
  exact .inr h

/-- R30: an operation that ends without a fault. -/
theorem reports_finish {st : Status} (h : st.ok = true) : Reports l (.next (finish st s)) := by
  rintro t ⟨⟩ -
  exact .inl h

/-- R201: a parse that goes on has not ended its operation. -/
theorem reports_of_op_ne_none {t : State} (h : t.op ≠ none) : Reports l (.next t) := by
  rintro t ⟨⟩ hop
  exact absurd hop h

theorem reports_storeTlv (b : Bytes) : Reports l (storeTlv b s) := by
  rintro t h -
  obtain ⟨-, rfl⟩ := storeTlv_next h
  exact .inl rfl

theorem reports_storeTx (b : Bytes) {st : Status} (hst : st.ok = true) : Reports l (storeTx b st s) := by
  rintro t h -
  obtain ⟨-, rfl⟩ := storeTx_next h
  exact .inl hst

end

/-! ### The TLVs (R84, R200) -/

/-- R201, R243: the causes of a defined type are those of its decode rule and of `append`. -/
theorem raisable_variant (k : Variant) (p : Bytes) : raisable (k.instr p) = decodeCauses k ++ [positionCause k, .size] := by
  cases k <;> rfl

theorem isTlv_variant (k : Variant) (p : Bytes) : isTlv (k.instr p) = true := by
  rw [isTlv, encode_variant]

/-- R200 to R202: the TLV step of a defined type, in a parse that has taken no EndOfLLDPDU. -/
theorem exec_variant_reports {s : State} (k : Variant) (p : Bytes) (hop : s.op ≠ none) (hrunning : duHasEnd s.duRx = false) :
    Reports (raisable (k.instr p)) (exec (k.instr p) s) := by
  rw [exec_variant, raisable_variant]
  rcases tlvStep_cases (variantTyp k) p.length (pdec k p) s with
    ⟨c, hc, ht⟩ | ⟨v, c, hv, hc, ht⟩ | ⟨v, -, -, -, ht⟩ | ⟨v, -, -, -, ht⟩ <;> rw [ht]
  · exact reports_takeFault (List.mem_append_left _ (pdec_raisesOnly k p c hc))
  · obtain ⟨rfl, -, -⟩ := VariantCodec.pdec_eq_ok hv
    exact reports_takeFault (List.mem_append_right _ (duAppend_raisesOnly_of_running v hrunning c hc))
  · exact reports_finish rfl
  · exact reports_of_op_ne_none hop

/-- R84, R243: an undefined type has one cause. -/
theorem raisable_undefined {i : Instr} {n : Nat} {len : BitVec 9} (h : undefinedHeader i = some (n, len)) :
    raisable i = [.unknownType] := by
  cases i with
  | unknown9 | unknown10To11 | unknown12To15 | unknown16To31 | unknown32To63 | unknown64To95 | unknown96To111
  | unknown112To119 | unknown120To123 | unknown124To125 | unknown126 => rfl
  | _ => cases h

theorem exec_undefined_reports {i : Instr} {n : Nat} {len : BitVec 9} (h : undefinedHeader i = some (n, len)) (s : State) :
    Reports (raisable i) (exec i s) := by
  rw [Fault.exec_undefined h, raisable_undefined h]
  exact reports_takeFault (List.mem_singleton_self _)

/-! ### The operations (R90, R243) -/

section
variable {s : State}

theorem illegalOp_reports : Reports [.illegalOp] (.next (illegalOp s)) := reports_takeFault (List.mem_singleton_self _)

/-- R104. -/
theorem execHdrEnc_reports : Reports (raisable .hdrEnc) (execHdrEnc s) := by
  unfold execHdrEnc
  split
  · exact reports_takeFault (List.mem_singleton_self _)
  · exact reports_storeTlv _

/-- R105. -/
theorem execHdrDec_reports : Reports (raisable .hdrDec) (execHdrDec s) := by
  unfold execHdrDec
  split
  · exact reports_takeFault (List.mem_singleton_self _)
  · split
    · exact reports_fault
    · exact reports_finish rfl

/-- R126. -/
theorem execTlvEnc_reports : Reports (raisable .tlvEnc) (execTlvEnc s) := by
  unfold execTlvEnc enc
  split
  · exact reports_takeFault List.mem_cons_self
  · rename_i v _
    cases hv : wfCheck v with
    | error c => exact reports_takeFault (List.mem_cons_of_mem _ (wfCheck_raisesOnly v c hv))
    | ok => exact reports_storeTlv _

/-- R127, R243: every cause of a decode rule is one TLV.DEC lists. -/
theorem decFrame_cause_mem_raisable {k : Variant} {b : Bytes} {r : Raise} (h : decFrame k b = .error r) :
    r.cause ∈ raisable .tlvDec := by
  have hframe : [.truncHdr, .unexpectedType, .truncPayload, .trailing] ⊆ raisable .tlvDec := by decide
  have hpayload : decodeCauses k ⊆ raisable .tlvDec := by cases k <;> decide
  exact (decFrame_cause_mem h).elim (@hframe _) (@hpayload _)

/-- R127. -/
theorem execTlvDec_reports : Reports (raisable .tlvDec) (execTlvDec s) := by
  unfold execTlvDec
  split
  · exact reports_takeFault List.mem_cons_self
  · split
    · exact reports_fault
    · split
      · exact reports_takeFault (decFrame_cause_mem_raisable ‹_›)
      · exact reports_finish rfl

/-- R187: the checks of `enc`, then `append`. -/
theorem execDuAppend_reports : Reports (raisable .duAppend) (execDuAppend s) := by
  unfold execDuAppend
  split
  · exact reports_takeFault List.mem_cons_self
  · split
    · exact reports_takeFault (List.mem_cons_of_mem _ (List.mem_append_left _ (wfCheck_raisesOnly _ _ ‹_›)))
    · split
      · exact reports_takeFault (List.mem_cons_of_mem _ (List.mem_append_right _ (duAppend_raisesOnly _ _ _ ‹_›)))
      · exact reports_finish rfl

/-- R201. -/
theorem execDuParse_reports (hop : s.op ≠ none) : Reports (raisable .duParse) (execDuParse s) := by
  unfold execDuParse
  split
  · exact illegalOp_reports
  · exact reports_of_op_ne_none hop

/-- R198. -/
theorem execDuGet_reports : Reports (raisable .duGet) (execDuGet s) := by
  unfold execDuGet
  split
  · exact illegalOp_reports
  · exact reports_finish rfl

/-- R222. -/
theorem execEnvClassify_reports : Reports (raisable .envClassify) (execEnvClassify s) := by
  unfold execEnvClassify
  split
  · exact reports_fault
  · split <;> exact reports_finish rfl

/-- R227. -/
theorem execEnvBuild_reports : Reports (raisable .envBuild) (execEnvBuild s) := by
  unfold execEnvBuild
  split
  · exact illegalOp_reports
  · exact reports_storeTx _ rfl

/-- R230. -/
theorem execRxFrame_reports (hop : s.op ≠ none) : Reports (raisable .rxFrame) (execRxFrame s) := by
  unfold execRxFrame
  split
  · exact reports_fault
  · split
    · exact reports_of_op_ne_none hop
    · exact reports_finish rfl

/-- R243, line by line of its table. -/
theorem exec_op_reports {i : Instr} {op : BitVec 4} (hcode : encode i = .port op) (hop : s.op ≠ none) :
    Reports (raisable i) (exec i s) := by
  cases i with
  | hdrEnc => exact execHdrEnc_reports
  | hdrDec => exact execHdrDec_reports
  | tlvEnc => exact execTlvEnc_reports
  | tlvDec => exact execTlvDec_reports
  | duNew => exact reports_finish rfl
  | duAppend => exact execDuAppend_reports
  | duSer => exact reports_storeTx _ rfl
  | duParse => exact execDuParse_reports hop
  | duComplete => exact reports_finish rfl
  | duGet => exact execDuGet_reports
  | envClassify => exact execEnvClassify_reports
  | envBuild => exact execEnvBuild_reports
  | rxFrame => exact execRxFrame_reports hop
  | reservedOp13 | reservedOp14 | reservedOp15 => exact illegalOp_reports
  | _ => cases hcode

end

/-- Settles O53: a TLV of a defined type, one of an undefined type, or an operation. -/
theorem faultCausesAreThoseListed : Obligations.FaultCausesAreThoseListed := by
  unfold Obligations.FaultCausesAreThoseListed
  intro i s t hop hrunning
  rcases instr_cases i with ⟨k, p, rfl⟩ | ⟨n, len, hi⟩ | ⟨op, hcode⟩
  · exact exec_variant_reports k p hop (hrunning (isTlv_variant k p)) t
  · exact exec_undefined_reports hi s t
  · exact exec_op_reports hcode hop t

end Sys2Proof.Proofs.FaultCauses
end

section
/-! Nothing stops the engine in a state the block reaches (60_exceptions R246, 70_reset_and_hazards R295): every step answers a next
state. -/

namespace Sys2Proof.Proofs.Progress

open Sys2Proof Sys2Proof.Machine Sys2Proof.Proofs.Invariant

/-! ### The operations (R90) -/

section
variable (s : State)

/-- R104: the operands are in their domain, or one is outside. -/
theorem exists_next_hdrEnc : ∃ t, exec .hdrEnc s = .next t := by
  by_cases hin : s.htype.toNat ≤ 127 ∧ s.hlen.toNat ≤ 511
  · exact ⟨_, HeaderCodec.execHdrEnc_of_le hin.1 hin.2⟩
  · exact ⟨_, HeaderCodec.execHdrEnc_of_outside (by omega)⟩

/-- R105: the header is there, or it is truncated. -/
theorem exists_next_hdrDec : ∃ t, exec .hdrDec s = .next t := by
  rcases Nat.lt_or_ge s.tlvLen.toNat 2 with hlen | hlen
  · exact ⟨_, HeaderCodec.execHdrDec_of_short hlen⟩
  · exact ⟨_, HeaderCodec.execHdrDec_of_valid hlen⟩

/-- R126: what passes the checks of `enc` is well-formed, and fits `TLVBUF`. -/
theorem exists_next_tlvEnc : ∃ t, exec .tlvEnc s = .next t := by
  cases hv : recordValue s.tlvRec with
  | none => exact ⟨_, (TlvCodec.exec_of_recordValue_none hv).1⟩
  | some v =>
    cases hcheck : wfCheck v with
    | error c => exact ⟨_, (TlvCodec.exec_of_wfCheck_error hv hcheck).1⟩
    | ok => exact ⟨_, TlvCodec.exec_tlvEnc_of_wf hv (VariantCodec.wfCheck_eq_ok.mp hcheck)⟩

/-- R187: the checks of `enc`, then those of `append`. -/
theorem exists_next_duAppend : ∃ t, exec .duAppend s = .next t := by
  cases hv : recordValue s.tlvRec with
  | none => exact ⟨_, (TlvCodec.exec_of_recordValue_none hv).2⟩
  | some v =>
    cases hcheck : wfCheck v with
    | error c => exact ⟨_, (TlvCodec.exec_of_wfCheck_error hv hcheck).2⟩
    | ok =>
      have hwf := VariantCodec.wfCheck_eq_ok.mp hcheck
      cases happ : duAppend s.duTx v with
      | error c => exact ⟨_, ContainerOps.exec_duAppend_of_error hv hwf happ⟩
      | ok du => exact ⟨_, ContainerOps.exec_duAppend_of_accepts hv hwf (TlvStep.duAppend_eq_ok_iff.mp happ).1⟩

/-- R201: the descriptor's check fails, or the parse begins. -/
theorem exists_next_duParse : ∃ t, exec .duParse s = .next t := by
  simp only [exec, execDuParse]
  split <;> exact ⟨_, rfl⟩

/-- R198: the element at `IDX` is there, or it is not. -/
theorem exists_next_duGet : ∃ t, exec .duGet s = .next t := by
  simp only [exec, execDuGet]
  split <;> exact ⟨_, rfl⟩

end

section
variable {s : State} (h : Inv s)
include h

/-- R127, R33: the valid bytes of `TLVBUF` can be read, and decode or do not. -/
theorem exists_next_tlvDec : ∃ t, exec .tlvDec s = .next t := by
  cases hk : Variant.ofCode s.expect.toNat with
  | none =>
    obtain ⟨h9, h126⟩ := (variant_ofCode_none s.expect.isLt).mp hk
    exact ⟨_, TlvCodec.exec_tlvDec_of_undefined h9 h126⟩
  | some k =>
    have hcode := (variant_code_of_ofCode hk).symm
    cases hdec : decFrame k (s.tlvbuf.readN 0 s.tlvLen.toNat) with
    | error r => exact ⟨_, TlvCodec.exec_tlvDec_of_error hcode h.tlvLen hdec⟩
    | ok v => exact ⟨_, TlvCodec.exec_tlvDec_of_ok hcode h.tlvLen hdec⟩

/-- R227: the selector is illegal, or the container and its envelope fit `TXBUF`. -/
theorem exists_next_envBuild : ∃ t, exec .envBuild s = .next t := by
  by_cases hsel : s.dstSel = 3
  · exact ⟨_, (Envelope.envBuildResult s h.duTx.1.size).2 hsel⟩
  · obtain ⟨_, _, hdst, _⟩ := Envelope.destination_eq_some hsel
    exact ⟨_, Envelope.exec_envBuild h.duTx.1.size hdst rfl⟩

/-- R246: what an operation reads lies in the valid bytes, and what it stores fits its space. -/
theorem exists_next_of_op (op : BitVec 4) : ∃ t, exec (decodeOp op) s = .next t := by
  have hcode := Encoding.encode_decodeOp op
  generalize decodeOp op = i at hcode
  cases i with
  | hdrEnc => exact exists_next_hdrEnc s
  | hdrDec => exact exists_next_hdrDec s
  | tlvEnc => exact exists_next_tlvEnc s
  | tlvDec => exact exists_next_tlvDec h
  | duAppend => exact exists_next_duAppend s
  | duSer => exact ⟨_, ContainerOps.exec_duSer (duInv_selected h).1.size⟩
  | duParse => exact exists_next_duParse s
  | duGet => exact exists_next_duGet s
  | envClassify => exact ⟨_, Envelope.exec_envClassify h.rxLen⟩
  | envBuild => exact exists_next_envBuild h
  | rxFrame => exact ⟨_, Envelope.exec_rxFrame h.rxLen⟩
  | duNew | duComplete | reservedOp13 | reservedOp14 | reservedOp15 => exact ⟨_, rfl⟩
  | _ => cases hcode

end

/-! ### The host (R33, 93 U6) -/

/-- R33: a legal input has an address its space has, or a length within the capacity. -/
theorem exists_next_acceptInput {a : HostInput} (s : State) (ha : legalInput a = true) : ∃ t, acceptInput a s = .next t := by
  cases a with
  | writeRxByte x v => exact ⟨_, HostPort.acceptInput_writeRxByte_inside s v (of_decide_eq_true ha)⟩
  | writeRxLen v => exact ⟨_, HostPort.acceptInput_writeRxLen_inside s (of_decide_eq_true ha)⟩
  | writeTlvByte x v => exact ⟨_, HostPort.acceptInput_writeTlvByte_inside s v (of_decide_eq_true ha)⟩
  | writeTlvLen v => exact ⟨_, HostPort.acceptInput_writeTlvLen_inside s (of_decide_eq_true ha)⟩
  | _ => exact ⟨_, rfl⟩

/-! ### Every step -/

/-- R8, R9, R263: an engine that runs no parse runs the operation started, takes the host's next input, or keeps its state. -/
theorem exists_next_of_idle {s : State} (h : Inv s) (hin : InputsLegal s) (hreset : NoReset s) (hp : s.parsing = false) :
    ∃ t, step s = .next t := by
  cases hop : s.op with
  | some op =>
    rw [Scope.step_of_op_started hreset hp hop]
    exact exists_next_of_op h op
  | none =>
    cases hinputs : s.inputs with
    | nil => exact ⟨s, Scope.step_of_idle hinputs hp hop⟩
    | cons a rest =>
      rw [HostPort.step_of_input hinputs hp hop]
      exact exists_next_acceptInput _ (hin a (by simp [hinputs]))

/-- Settles O4: a step serves a reset, is taken by an engine that runs no parse, or is one of a running parse, whose slice is valid. -/
theorem noReachableStateStops : Obligations.NoReachableStateStops := by
  unfold Obligations.NoReachableStateStops
  intro s h hin
  by_cases hreset : NoReset s
  · cases hp : s.parsing with
    | false => exact exists_next_of_idle h hin hreset hp
    | true =>
      obtain ⟨t, ht, -⟩ := (Cursor.step_of_parsing hreset hp).resolve_left fun ⟨_, _, hout⟩ => hout (sliceValid_of_inv h hp)
      exact ⟨t, ht⟩
  · obtain ⟨rest, hinputs⟩ : ∃ rest, s.inputs = .reset :: rest := by simpa [NoReset] using hreset
    exact ⟨_, step_settled (fetch_reset hinputs)⟩

end Sys2Proof.Proofs.Progress
end

section
/-! The host and a running operation (70_reset_and_hazards R280, R281, R287): a reset is served whatever runs; every other act waits,
and the operation leaves alone what only the host writes. -/

namespace Sys2Proof.Proofs.Hazards

open Sys2Proof Sys2Proof.Machine Sys2Proof.Proofs.Cursor Sys2Proof.Proofs.Frame

/-! ### Reset -/

/-- Settles O57: the fetch looks for a reset before it looks for anything that runs. -/
theorem resetAbandonsTheOperation : Obligations.ResetAbandonsTheOperation := by
  unfold Obligations.ResetAbandonsTheOperation
  intro s rest hin
  exact step_settled (fetch_reset hin)

/-! ### Waiting -/

/-- State `t` has the host's acts, and every register and buffer that only the host writes, as `s` has them (R20, R31, R33). A field is
filled in by itself where `t` copies it from `s`. -/
structure KeepsHostState (s t : State) : Prop where
  inputs : t.inputs = s.inputs := by rfl
  localMac : t.localMac = s.localMac := by rfl
  dstSel : t.dstSel = s.dstSel := by rfl
  expect : t.expect = s.expect := by rfl
  sel : t.sel = s.sel := by rfl
  idx : t.idx = s.idx := by rfl
  rxbuf : t.rxbuf = s.rxbuf := by rfl
  rxLen : t.rxLen = s.rxLen := by rfl

section
variable {s t : State}

/-- R91: no instruction has its result in host state. -/
theorem exec_keepsHostState {i : Instr} (h : exec i s = .next t) : KeepsHostState s t := { exec_writes h with }

/-- R200: nor does a step of a running parse, one settled without an instruction included. -/
theorem parseStep_keepsHostState (h : ParseStep s t) : KeepsHostState s t := by
  cases h with
  | exhausted | fault | ended | taken => exact {}

/-- R287: the step of a running operation is one of a parse, or of the operation `OP` names. -/
theorem step_keepsHostState (hreset : NoReset s) (hrunning : s.parsing = true ∨ s.op ≠ none) (h : step s = .next t) :
    KeepsHostState s t := by
  cases hp : s.parsing with
  | true =>
    rcases step_of_parsing hreset hp with ⟨f, hf, -⟩ | ⟨t', ht', hstep⟩
    · rw [hf] at h
      cases h
    · rw [ht'] at h
      cases h
      exact parseStep_keepsHostState hstep
  | false =>
    have hstarted : s.op ≠ none := hrunning.resolve_left (by simp [hp])
    obtain ⟨op, hop⟩ := Option.ne_none_iff_exists'.mp hstarted
    rw [Scope.step_of_op_started hreset hp hop] at h
    exact exec_keepsHostState h

end

/-- Settles O58: in a parse and in a started operation alike. -/
theorem hostWaitsForTheOperation : Obligations.HostWaitsForTheOperation := by
  unfold Obligations.HostWaitsForTheOperation
  intro s t hreset hrunning h
  have k := step_keepsHostState hreset hrunning h
  exact ⟨k.inputs, k.localMac, k.dstSel, k.expect, k.sel, k.idx, k.rxbuf, k.rxLen⟩

end Sys2Proof.Proofs.Hazards
end
